-- ==== Sys2Proof/Word.lean ====
section
/-!
DEFINITION. The word types of MECC (`00_scope.md` R5): 32-bit command and port words, bytes of the SEC buffer,
256-bit magnitudes, and the 3-bit register index.
-/

namespace Sys2Proof

/-- A command word or one port access: `CMDW = 32` bits (R5). -/
abbrev Word := BitVec 32

/-- One byte of the SEC buffer (`10_state.md` R40). -/
abbrev Byte := BitVec 8

/-- An integer magnitude, a field number or a prime: `W = 256` bits (R5). -/
abbrev U256 := BitVec 256

/-- The index of a register: every file has 8 (R5: `NF = NQ = NK = 8`). -/
abbrev Reg := Fin 8

end Sys2Proof
end

