-- ==== Sys2Proof/Machine/Value.lean ====
section
/-!
DEFINITION. The value types of `00_scope.md` R10 and the command faults of `60_exceptions.md` R220.
-/

namespace Sys2Proof.Machine

/-- A field element `{ num, prime }` (R10); its invariant is `0 ≤ num < prime` (`10_state.md` R21). -/
structure FE where
  num : U256
  prime : U256
deriving DecidableEq, Repr

/-- The coordinates of a point: `Identity` or `Affine(x, y)` (R10). The identity has none (`10_state.md` R22). -/
inductive Coords where
  | identity
  | affine (x y : U256)
deriving DecidableEq, Repr

/-- A curve point as a point register holds it: one `prime` for `x`, `y`, `a` and `b` (`10_state.md` R22). -/
structure Pt where
  coords : Coords
  a : U256
  b : U256
  prime : U256
deriving DecidableEq, Repr

/-- A signed integer, sign and magnitude (R10, `10_state.md` R23). -/
structure KInt where
  neg : Bool
  mag : U256
deriving DecidableEq, Repr

/-- The faults of a command (R220). A command that raises one ends without a result and leaves a record
(R222); the machine goes on. -/
inductive CmdFault where
  /-- `0x01`: a number outside `[0, prime)` -/
  | rangeError
  /-- `0x02`: operands from different fields -/
  | incompatibleField
  /-- `0x03`: operands from different curves, or a point off secp256k1 -/
  | incompatibleCurve
  /-- `0x04`: coordinates fail the curve equation -/
  | invalidPoint
  /-- `0x05`: allocated, never raised (`42_point.md` R133) -/
  | additionUnsupported
  /-- `0x06`: allocated, never raised by MECC (`49_surrounding_software.md` R204) -/
  | malformedSignature
  /-- `0x07`: square root with `prime mod 4 ≠ 3` -/
  | unsupportedOperation
  /-- `0x08`: negative scalar -/
  | invalidArgument
  /-- `0x10`: the word is no command -/
  | illegalCommand
  /-- `0x11`: an invalid `F` or `Q` source register -/
  | uninit
  /-- `0x12`: a coordinate of the identity was asked for -/
  | identityCoordinate
  /-- `0x13`: a SEC prefix other than `02`, `03`, `04` -/
  | secFormat
  /-- `0x14`: power, division or inverse with `prime = 1` -/
  | badModulus
deriving DecidableEq, Repr

end Sys2Proof.Machine
end

