-- ==== Sys2Proof/Machine/Constants.lean ====
section
/-!
DEFINITION. The constants of the hardware (`10_state.md` R44): the `ID` value, the fault codes, `POW00`, and the
secp256k1 parameters of `43_secp256k1.md` R160.
-/

namespace Sys2Proof.Machine

/-- `ID` (`10_state.md` R33): ASCII "MEC1". -/
def idValue : Word := 0x4D454331#32

/-- The code of a fault, the value placed in `ERRCODE` (`60_exceptions.md` R220). -/
def CmdFault.code : CmdFault → BitVec 8
  | .rangeError => 0x01#8
  | .incompatibleField => 0x02#8
  | .incompatibleCurve => 0x03#8
  | .invalidPoint => 0x04#8
  | .additionUnsupported => 0x05#8
  | .malformedSignature => 0x06#8
  | .unsupportedOperation => 0x07#8
  | .invalidArgument => 0x08#8
  | .illegalCommand => 0x10#8
  | .uninit => 0x11#8
  | .identityCoordinate => 0x12#8
  | .secFormat => 0x13#8
  | .badModulus => 0x14#8

/-- `POW00`, the value of `b^0` for every `b`, `0^0` included (`00_scope.md` R8). Log entry 4. -/
def pow00 : Nat := 1

/-- The secp256k1 field prime, `2^256 − 2^32 − 977` (R160). -/
def secpP : U256 := 0xFFFFFFFFFFFFFFFFFFFFFFFFFFFFFFFFFFFFFFFFFFFFFFFFFFFFFFFEFFFFFC2F#256

/-- The x coordinate of the generator (R160; log entry 9). -/
def secpGx : U256 := 0x79BE667EF9DCBBAC55A06295CE870B07029BFCDB2DCE28D959F2815B16F81798#256

/-- The y coordinate of the generator (R160; log entry 9). -/
def secpGy : U256 := 0x483ADA7726A3C4655DA4FBFC0E1108A8FD17B448A68554199C47D08FFB10D4B8#256

/-- The group order (R160; log entry 9). -/
def secpN : U256 := 0xFFFFFFFFFFFFFFFFFFFFFFFFFFFFFFFEBAAEDCE6AF48A03BBFD25E8CD0364141#256

/-- `A0 = {0, p}` (R160). -/
def secpA0 : FE := ⟨0#256, secpP⟩

/-- `B7 = {7, p}` (R160). -/
def secpB7 : FE := ⟨7#256, secpP⟩

/-- The generator `G` (R160). -/
def secpG : Pt := ⟨.affine secpGx secpGy, 0#256, 7#256, secpP⟩

end Sys2Proof.Machine
end

