-- ==== Sys2Proof/Machine/FieldFn.lean ====
section
/-!
DEFINITION. The pure field functions of `41_field.md` R100 to R110, over exact integers (R122), narrowed to 256 bits
only at the end. Operands and results are plain residues (`90_conflicts.md` C1).
-/

namespace Sys2Proof.Machine

/-- The residue of an integer: `{ x mod prime, prime }` with the floor modulus (`00_scope.md` R7). For `prime ≥ 1`
the residue is below `prime`, so narrowing loses nothing. -/
def residue (x : Int) (prime : U256) : FE := ⟨BitVec.ofNat 256 (x % (prime.toNat : Int)).toNat, prime⟩

/-- Square and multiply: `acc · b^n mod m` for an exponent of at most `fuel` bits. -/
def powLoop (m : Nat) : Nat → Nat → Nat → Nat → Nat
  | 0, _, _, acc => acc
  | fuel + 1, b, n, acc =>
    if n = 0 then acc
    else powLoop m fuel (b * b % m) (n / 2) (if n % 2 = 1 then acc * b % m else acc)

/-- `modexp(b, n, m) = (b^n) mod m`, with `b^0 = POW00` (`00_scope.md` R8). The fuel is the bit length of `n`. -/
def modexp (b : Int) (n m : Nat) : Nat :=
  powLoop m (n.log2 + 1) (b % (m : Int)).toNat n (pow00 % m)

/-- `fe_new(n, p)`: construction from two integers (R100). -/
def feNew (n p : Int) : Except CmdFault FE :=
  if n < 0 ∨ n ≥ p then .error .rangeError
  else .ok ⟨BitVec.ofNat 256 n.toNat, BitVec.ofNat 256 p.toNat⟩

/-- `fe_compat(u, v)` (R101). -/
def feCompat (u v : FE) : Except CmdFault Unit :=
  if u.prime ≠ v.prime then .error .incompatibleField else .ok ()

/-- `fe_add(u, v)` (R102). -/
def feAdd (u v : FE) : Except CmdFault FE := do
  feCompat u v
  return residue ((u.num.toNat : Int) + v.num.toNat) u.prime

/-- `fe_sub(u, v)` (R103). -/
def feSub (u v : FE) : Except CmdFault FE := do
  feCompat u v
  return residue ((u.num.toNat : Int) - v.num.toNat) u.prime

/-- `fe_mul(u, v)` (R104). -/
def feMul (u v : FE) : Except CmdFault FE := do
  feCompat u v
  return residue ((u.num.toNat : Int) * v.num.toNat) u.prime

/-- `fe_scale(c, u)`: it never raises (R105). -/
def feScale (c : Nat) (u : FE) : FE := residue ((c : Int) * u.num.toNat) u.prime

/-- `fe_pow(u, e)`: the exponent is normalised modulo `prime − 1` first, for every base (R106,
`90_conflicts.md` C6). -/
def fePow (u : FE) (e : Int) : Except CmdFault FE :=
  if u.prime = 1#256 then .error .badModulus
  else
    let n := (e % ((u.prime.toNat : Int) - 1)).toNat
    .ok ⟨BitVec.ofNat 256 (modexp u.num.toNat n u.prime.toNat), u.prime⟩

/-- `fe_inv(u)`: the Fermat power `num^(prime−2) mod prime` (R107). -/
def feInv (u : FE) : Except CmdFault FE :=
  if u.prime = 1#256 then .error .badModulus
  else .ok ⟨BitVec.ofNat 256 (modexp u.num.toNat (u.prime.toNat - 2) u.prime.toNat), u.prime⟩

/-- `fe_div(u, v)` (R108). -/
def feDiv (u v : FE) : Except CmdFault FE := do
  feCompat u v
  let w ← feInv v
  return residue ((u.num.toNat : Int) * w.num.toNat) u.prime

/-- `fe_sqrt(u)`: `u^((prime+1)/4)`, unchecked (R109). -/
def feSqrt (u : FE) : Except CmdFault FE :=
  if u.prime.toNat % 4 ≠ 3 then .error .unsupportedOperation
  else fePow u ((u.prime.toNat + 1) / 4 : Nat)

/-- `fe_eq(u, v)`: structural, never raises (R110). -/
def feEq (u v : FE) : Bool := u.num == v.num && u.prime == v.prime

end Sys2Proof.Machine
end

