-- ==== Sys2Proof/Machine/State.lean ====
section
/-!
DEFINITION. The state of MECC (`10_state.md` R20), the host's pending actions, and the state after reset (R43).
-/

namespace Sys2Proof.Machine

/-- The contents of SECBUF (`10_state.md` R40), the only byte storage of the block: (address, byte) pairs in one
canonical form (`Memory.wf`); an address that is not listed reads `Memory.unlisted`. Log entry 7. -/
abbrev Memory := List Host.Cell

/-- What a byte of SECBUF that is not listed reads as: its reset value `0x00` (R43). -/
abbrev Memory.unlisted : Byte := 0#8

/-- SECBUF is `SECN = 65` bytes (`00_scope.md` R5). -/
abbrev secSize : Nat := 65

/-- The canonical form: addresses strictly rising, each below 65, no entry equal to what an unlisted address
reads. -/
abbrev Memory.wf (m : Memory) : Prop :=
  m.Pairwise (fun c d => c.1 < d.1) ∧ ∀ c ∈ m, c.1 < secSize ∧ c.2 ≠ Memory.unlisted

/-- One of the 1024 word locations of the host port, `offset / 4` (`20_memory.md` R50). An access that is not an
aligned 32-bit word cannot be expressed (R57). -/
abbrev PortAddr := Fin 1024

/-- What the host can do to the block: read or write a word of the port (`20_memory.md` R52, R53), read `STATUS` until
`BUSY` is 0 (the loop of ISSUE, `30_encoding.md` R78), drive the reset input (`70_reset_and_hazards.md` R250). -/
inductive Access where
  | read (a : PortAddr)
  | write (a : PortAddr) (v : Word)
  /-- read `STATUS`, and again as long as the word read has bit 0 (`BUSY`) set; while the command runs, at most `n` of
  the further reads come before it completes (R78; log entry 18) -/
  | poll (n : Nat)
  /-- assert `rst` -/
  | rstAssert
  /-- release `rst` -/
  | rstRelease
deriving DecidableEq, Repr

/-- When a host action happens relative to the command that is pending when its turn comes (`40_system.md` R92: the
delay of a command is finite and otherwise unconstrained). Log entry 2. -/
inductive Arrival where
  /-- before the pending command completes -/
  | whileBusy
  /-- after the pending command has completed or faulted -/
  | afterCompletion
deriving DecidableEq, Repr

/-- One pending action of the host. -/
structure HostEvent where
  arrival : Arrival
  access : Access
deriving DecidableEq, Repr

/-- The state: the architectural state of R20, and the model's own fields for the host agent (`rst`, `inbox`,
`replies`, `draws`). -/
structure State where
  /-- `F0`..`F7`; `none` is `v = 0`, "the register holds no value" (R21) -/
  f : Vector (Option FE) 8
  /-- `Q0`..`Q7`; `none` is `v = 0` (R22) -/
  q : Vector (Option Pt) 8
  /-- `K0`..`K7` (R23) -/
  k : Vector KInt 8
  /-- `STATUS` bit 0: a command has been accepted and has not completed (R35) -/
  busy : Bool
  /-- `STATUS` bit 1: a command has completed or faulted (R35) -/
  done : Bool
  /-- `STATUS` bit 2: the last completed command faulted (R35) -/
  errf : Bool
  /-- `STATUS` bit 3: the test flag `T` (R31) -/
  t : Bool
  /-- `STATUS` bit 4: a host write was dropped (R35, `60_exceptions.md` R232) -/
  ovr : Bool
  /-- `STATUS` bits 15:8: the fault code (R35) -/
  errcode : BitVec 8
  /-- the word that raised the recorded fault (R39) -/
  errcmd : Word
  /-- `CTRL` bit 0: interrupt enable (R36) -/
  ie : Bool
  /-- how many bytes SECENC last wrote: 0, 33 or 65 (R38) -/
  seclen : BitVec 7
  /-- the SEC buffer (R40) -/
  secbuf : Memory
  /-- the accepted command word, meaningful while `busy` (R41) -/
  pend : Word
  /-- the level of the reset input (`70_reset_and_hazards.md` R250) -/
  rst : Bool
  /-- the host's pending actions, oldest first (model's own) -/
  inbox : List HostEvent
  /-- the words the port has returned to the host, newest first (model's own) -/
  replies : List Word
  /-- how many unspecified read values have been drawn (model's own, `20_memory.md` R64) -/
  draws : Nat
deriving DecidableEq, Repr

/-- Why the machine would stop with a fault: never. "The core never hangs and has no stuck state" (`40_system.md`
R92); every fault of the spec is a `CmdFault`, after which the machine goes on. Log entry 11. -/
inductive Fault where
deriving DecidableEq, Repr

/-- Why a step would have no meaning. -/
inductive Refusal where
  /-- Raised by a refused arm of `exec` for an instruction without a meaning: there is none. Safe: the machine
  stops. -/
  | notModelled (mnemonic : String)
deriving DecidableEq, Repr

/-- The outcome of a step of this machine. -/
abbrev Result := Host.Outcome State Fault Refusal

/-- The state after reset (`10_state.md` R43, `70_reset_and_hazards.md` R251). `pend` has no meaning while
`busy = false` (log entry 1); `rst`, `inbox`, `replies` and `draws` are the model's own (log entries 2, 3, 5). -/
def State.reset : State where
  f := Vector.replicate 8 none
  q := Vector.replicate 8 none
  k := Vector.replicate 8 ⟨false, 0#256⟩
  busy := false
  done := false
  errf := false
  t := false
  ovr := false
  errcode := 0x00#8
  errcmd := 0x00000000#32
  ie := false
  seclen := 0#7
  secbuf := []
  pend := 0x00000000#32
  rst := false
  inbox := []
  replies := []
  draws := 0

end Sys2Proof.Machine
end

