-- ==== Sys2Proof/Machine/Ops.lean ====
section
/-!
DEFINITION. The named operations on the state: reading and writing SECBUF bytes, writing registers, completing a
command (`40_system.md` R91), recording a fault (`60_exceptions.md` R222) and its acknowledgement (R225).
-/

namespace Sys2Proof.Machine

/-! ### SECBUF -/

/-- Read byte `j`. -/
def Memory.read : Memory → Nat → Byte
  | [], _ => Memory.unlisted
  | (a, b) :: m, j => if a = j then b else Memory.read m j

/-- Put a byte in front, unless it is what an unlisted address reads. -/
def Memory.put (j : Nat) (v : Byte) (m : Memory) : Memory :=
  if v = Memory.unlisted then m else (j, v) :: m

/-- Write byte `j`, keeping the canonical form. -/
def Memory.write : Memory → Nat → Byte → Memory
  | [], j, v => Memory.put j v []
  | (a, b) :: m, j, v =>
    if j < a then Memory.put j v ((a, b) :: m)
    else if j = a then Memory.put j v m
    else (a, b) :: Memory.write m j v

/-- Read `n` bytes from address `j` on, lowest address first. -/
def Memory.readBytes (m : Memory) (j : Nat) : Nat → List Byte
  | 0 => []
  | n + 1 => Memory.read m j :: Memory.readBytes m (j + 1) n

/-- Write bytes from address `j` on, the first at the lowest address. -/
def Memory.writeBytes (m : Memory) (j : Nat) : List Byte → Memory
  | [] => m
  | v :: vs => Memory.writeBytes (Memory.write m j v) (j + 1) vs

/-! ### Registers (`40_system.md` R94: values are written whole; writing an `F` or `Q` register sets its valid bit) -/

/-- `F[i] <- v`. -/
def State.setF (s : State) (i : Reg) (v : FE) : State := { s with f := s.f.set i (some v) }

/-- `Q[i] <- v`. -/
def State.setQ (s : State) (i : Reg) (v : Pt) : State := { s with q := s.q.set i (some v) }

/-- `K[i] <- v`. -/
def State.setK (s : State) (i : Reg) (v : KInt) : State := { s with k := s.k.set i v }

/-- Replace the SEC buffer. -/
def State.setSecbuf (s : State) (m : Memory) : State := { s with secbuf := m }

/-- `SECLEN <- n` (`43_secp256k1.md` R172). -/
def State.setSeclen (s : State) (n : BitVec 7) : State := { s with seclen := n }

/-! ### The end of a command -/

/-- Completion: `BUSY <- 0; DONE <- 1` (`40_system.md` R91). -/
def State.complete (s : State) : State := { s with busy := false, done := true }

/-- Taking a fault (`60_exceptions.md` R222). The faulting command word is the pending one. -/
def State.takeFault (s : State) (e : CmdFault) : State :=
  { s with errf := true, errcode := e.code, errcmd := s.pend, busy := false, done := true }

/-- Acknowledging a fault: `CLR` bit 2 (`60_exceptions.md` R225, `10_state.md` R37). There is no other return from
a fault: nothing was saved. -/
def State.clearFault (s : State) : State := { s with errf := false, errcode := 0x00#8, errcmd := 0x00000000#32 }

/-- The end of the core step for a command run from `s` (`40_system.md` R91): if it raised a fault, nothing it
computed is written and the fault is recorded; else the writes it made are committed and it completes. -/
def finish (s : State) (r : Except CmdFault State) : Result :=
  match r with
  | .error e => .next (s.takeFault e)
  | .ok s' => .next s'.complete

end Sys2Proof.Machine
end

