-- ==== Sys2Proof/Machine/Flags.lean ====
section
/-!
DEFINITION. The one condition flag `T` (`10_state.md` R31), the `STATUS` word (R35), the write-one-to-clear register
`CLR` (R37), the dropped-write flag (`60_exceptions.md` R232) and the interrupt line (R42). There is no carry,
overflow, zero or sign flag (`41_field.md` R122).
-/

namespace Sys2Proof.Machine

/-- `T <- b`. -/
def State.setT (s : State) (b : Bool) : State := { s with t := b }

/-- A flag as a bit of a word. -/
def flagBit (b : Bool) (i : Nat) : Word := if b then 1#32 <<< i else 0#32

/-- The `STATUS` word: `BUSY | DONE<<1 | ERRF<<2 | T<<3 | OVR<<4 | ERRCODE<<8` (`20_memory.md` R52). -/
def State.statusWord (s : State) : Word :=
  flagBit s.busy 0 ||| flagBit s.done 1 ||| flagBit s.errf 2 ||| flagBit s.t 3 ||| flagBit s.ovr 4
    ||| (s.errcode.setWidth 32 <<< 8)

/-- Record a dropped host write: `OVR <- 1` and nothing else (`60_exceptions.md` R232). -/
def State.dropWrite (s : State) : State := { s with ovr := true }

/-- A write of `v` to `CLR` (`10_state.md` R37): bit 1 clears `DONE`, bit 2 the fault record, bit 4 `OVR`. -/
def State.clear (s : State) (v : Word) : State :=
  let s1 := if v.getLsbD 1 then { s with done := false } else s
  let s2 := if v.getLsbD 2 then s1.clearFault else s1
  if v.getLsbD 4 then { s2 with ovr := false } else s2

/-- The interrupt output `irq = DONE and IE` (`10_state.md` R42). Log entry 16. -/
def State.irq (s : State) : Bool := s.done && s.ie

end Sys2Proof.Machine
end

