-- ==== Sys2Proof/Machine/Operands.lean ====
section
/-!
DEFINITION. The operand forms: a field register, a point register, an integer register (`40_system.md` R93). A
command reads its sources in the order `ra`, `rb`, `rc`, `re` before its own pseudocode. There are no immediates
(`30_encoding.md` R74) and no addressing modes.
-/

namespace Sys2Proof.Machine

/-- The value `int(K)` of a signed integer; `neg = 1, mag = 0` is 0 (`00_scope.md` R10). -/
def KInt.toInt (k : KInt) : Int := if k.neg then -(k.mag.toNat : Int) else (k.mag.toNat : Int)

/-- A non-negative integer as a `K` value: `{ neg = 0, mag = v }` (`10_state.md` R23). -/
def KInt.ofMag (v : U256) : KInt := ⟨false, v⟩

/-- `F[i]` as a source: `Uninit` if the register is invalid (R93). -/
def State.readF (s : State) (i : Reg) : Except CmdFault FE :=
  match s.f[i] with
  | some u => .ok u
  | none => .error .uninit

/-- `Q[i]` as a source: `Uninit` if the register is invalid (R93). -/
def State.readQ (s : State) (i : Reg) : Except CmdFault Pt :=
  match s.q[i] with
  | some p => .ok p
  | none => .error .uninit

/-- `int(K[i])`: always readable (R93). -/
def State.readK (s : State) (i : Reg) : Int := s.k[i].toInt

/-! The coordinates and coefficients of a point register as field elements (`10_state.md` R22). -/

/-- The curve coefficient `a = {a, prime}`. -/
def Pt.aFE (p : Pt) : FE := ⟨p.a, p.prime⟩

/-- The curve coefficient `b = {b, prime}`. -/
def Pt.bFE (p : Pt) : FE := ⟨p.b, p.prime⟩

/-- A coordinate of the point, `{v, prime}`. -/
def Pt.coordFE (p : Pt) (v : U256) : FE := ⟨v, p.prime⟩

end Sys2Proof.Machine
end

