-- ==== Sys2Proof/Machine/Field.lean ====
section
/-!
DEFINITION. The field commands (`41_field.md` R111 to R121). Each reads its sources (an invalid one raises
`Uninit`, `40_system.md` R93), computes, and writes its destination or `T`; `finish` commits or records the fault.
-/

namespace Sys2Proof.Machine

/-- FNEW (R111): `F[d] <- fe_new(int(K[a]), int(K[b]))`. -/
def execFnew (rd ra rb : Reg) (s : State) : Result :=
  finish s do
    let u ← feNew (s.readK ra) (s.readK rb)
    return s.setF rd u

/-- FADD (R112): `F[d] <- fe_add(F[a], F[b])`. -/
def execFadd (rd ra rb : Reg) (s : State) : Result :=
  finish s do
    let u ← s.readF ra
    let v ← s.readF rb
    let w ← feAdd u v
    return s.setF rd w

/-- FSUB (R113): `F[d] <- fe_sub(F[a], F[b])`. -/
def execFsub (rd ra rb : Reg) (s : State) : Result :=
  finish s do
    let u ← s.readF ra
    let v ← s.readF rb
    let w ← feSub u v
    return s.setF rd w

/-- FMUL (R114): `F[d] <- fe_mul(F[a], F[b])`. -/
def execFmul (rd ra rb : Reg) (s : State) : Result :=
  finish s do
    let u ← s.readF ra
    let v ← s.readF rb
    let w ← feMul u v
    return s.setF rd w

/-- FDIV (R115): `F[d] <- fe_div(F[a], F[b])`. -/
def execFdiv (rd ra rb : Reg) (s : State) : Result :=
  finish s do
    let u ← s.readF ra
    let v ← s.readF rb
    let w ← feDiv u v
    return s.setF rd w

/-- FINV (R116): `F[d] <- fe_inv(F[a])`. -/
def execFinv (rd ra : Reg) (s : State) : Result :=
  finish s do
    let u ← s.readF ra
    let w ← feInv u
    return s.setF rd w

/-- FPOW (R117): `F[d] <- fe_pow(F[a], int(K[b]))`. -/
def execFpow (rd ra rb : Reg) (s : State) : Result :=
  finish s do
    let u ← s.readF ra
    let w ← fePow u (s.readK rb)
    return s.setF rd w

/-- FSQRT (R118): `F[d] <- fe_sqrt(F[a])`. -/
def execFsqrt (rd ra : Reg) (s : State) : Result :=
  finish s do
    let u ← s.readF ra
    let w ← feSqrt u
    return s.setF rd w

/-- FEQ (R119): `T <- fe_eq(F[a], F[b])`. -/
def execFeq (ra rb : Reg) (s : State) : Result :=
  finish s do
    let u ← s.readF ra
    let v ← s.readF rb
    return s.setT (feEq u v)

/-- FGET (R120): `K[d] <- { neg = 0, mag = F[a].num }`. -/
def execFget (rd ra : Reg) (s : State) : Result :=
  finish s do
    let u ← s.readF ra
    return s.setK rd (KInt.ofMag u.num)

/-- FGETP (R121): `K[d] <- { neg = 0, mag = F[a].prime }`. -/
def execFgetp (rd ra : Reg) (s : State) : Result :=
  finish s do
    let u ← s.readF ra
    return s.setK rd (KInt.ofMag u.prime)

end Sys2Proof.Machine
end

