-- ==== Sys2Proof/Machine/PointFn.lean ====
section
/-!
DEFINITION. The pure point functions of `42_point.md` R130 to R136: construction with validation, the group law in
its exact case order, doubling, bit-serial double-and-add, equality.
-/

namespace Sys2Proof.Machine

/-- `pt_new(x, y, a, b)`: compatibility first, then the curve equation (R130). -/
def ptNew (x y a b : FE) : Except CmdFault Pt := do
  feCompat x y
  feCompat x a
  feCompat x b
  let lhs ← feMul y y
  let xx ← feMul x x
  let xxx ← feMul xx x
  let ax ← feMul a x
  let sum ← feAdd xxx ax
  let rhs ← feAdd sum b
  if feEq lhs rhs then return ⟨.affine x.num y.num, a.num, b.num, x.prime⟩
  else throw .invalidPoint

/-- `pt_inf(a, b)`: the identity of a curve (R131). -/
def ptInf (a b : FE) : Except CmdFault Pt := do
  feCompat a b
  return ⟨.identity, a.num, b.num, a.prime⟩

/-- The identity of a point's curve, `{ Identity, a, b }`. -/
def ptIdentityOf (p : Pt) : Pt := ⟨.identity, p.a, p.b, p.prime⟩

/-- Step 4 of the group law: the chord through two points with `x1 ≠ x2` (R132). -/
def ptChord (x1 y1 x2 y2 a b : FE) : Except CmdFault Pt := do
  let dy ← feSub y2 y1
  let dx ← feSub x2 x1
  let m ← feDiv dy dx
  let mm ← feMul m m
  let d1 ← feSub mm x1
  let x3 ← feSub d1 x2
  let dx3 ← feSub x1 x3
  let md ← feMul m dx3
  let y3 ← feSub md y1
  ptNew x3 y3 a b

/-- Step 6 of the group law: the tangent at a point with `y1 ≠ 0` (R132). -/
def ptTangent (x1 y1 a b : FE) : Except CmdFault Pt := do
  let xx ← feMul x1 x1
  let num ← feAdd (feScale 3 xx) a
  let m ← feDiv num (feScale 2 y1)
  let mm ← feMul m m
  let x3 ← feSub mm (feScale 2 x1)
  let dx3 ← feSub x1 x3
  let md ← feMul m dx3
  let y3 ← feSub md y1
  ptNew x3 y3 a b

/-- `pt_add(P1, P2)`: the group law, steps 1 to 6 in order (R132). Its case 7 is unreachable (R133). -/
def ptAdd (p1 p2 : Pt) : Except CmdFault Pt :=
  if !(feEq p1.aFE p2.aFE && feEq p1.bFE p2.bFE) then .error .incompatibleCurve
  else
    match p1.coords, p2.coords with
    | .identity, _ => .ok p2
    | .affine _ _, .identity => .ok p1
    | .affine x1 y1, .affine x2 y2 =>
      let X1 := p1.coordFE x1
      let Y1 := p1.coordFE y1
      let X2 := p2.coordFE x2
      let Y2 := p2.coordFE y2
      if feEq X1 X2 && !feEq Y1 Y2 then .ok (ptIdentityOf p1)
      else if !feEq X1 X2 then ptChord X1 Y1 X2 Y2 p1.aFE p1.bFE
      else if y1 = 0#256 then .ok (ptIdentityOf p1)
      else ptTangent X1 Y1 p1.aFE p1.bFE

/-- `pt_dbl(P) = pt_add(P, P)` (R134). -/
def ptDbl (p : Pt) : Except CmdFault Pt := ptAdd p p

/-- `if k mod 2 = 1: result <- pt_add(result, current)` (R135). -/
def ptMulBit (result current : Pt) (k : Nat) : Except CmdFault Pt :=
  if k % 2 = 1 then ptAdd result current else .ok result

/-- The loop of `pt_mul`, least significant bit first, for a scalar of at most `fuel` bits (R135). -/
def ptMulLoop : Nat → Pt → Pt → Nat → Except CmdFault Pt
  | 0, result, _, _ => .ok result
  | fuel + 1, result, current, k =>
    if k = 0 then .ok result
    else do
      let result' ← ptMulBit result current k
      let current' ← ptAdd current current
      ptMulLoop fuel result' current' (k / 2)

/-- `pt_mul(P, k)`: negative scalars are refused, `k = 1` returns `P`, else double-and-add (R135). The fuel is the
bit length of `k`: the loop body runs once per bit (`40_system.md` R92). -/
def ptMul (p : Pt) (k : Int) : Except CmdFault Pt :=
  if k < 0 then .error .invalidArgument
  else if k = 1 then .ok p
  else ptMulLoop (k.toNat.log2 + 1) (ptIdentityOf p) p k.toNat

/-- `pt_eq(P1, P2)`: structural, never raises (R136). -/
def ptEq (p1 p2 : Pt) : Bool :=
  feEq p1.aFE p2.aFE && feEq p1.bFE p2.bFE &&
    match p1.coords, p2.coords with
    | .identity, .identity => true
    | .affine x1 y1, .affine x2 y2 =>
      feEq (p1.coordFE x1) (p2.coordFE x2) && feEq (p1.coordFE y1) (p2.coordFE y2)
    | .identity, .affine _ _ => false
    | .affine _ _, .identity => false

/-- `P.coords = Identity`. -/
def Pt.isIdentity (p : Pt) : Bool :=
  match p.coords with
  | .identity => true
  | .affine _ _ => false

/-- The affine coordinates of a point; the identity has none (`IdentityCoordinate`, R144, R145). -/
def Pt.affineCoords (p : Pt) : Except CmdFault (FE × FE) :=
  match p.coords with
  | .identity => .error .identityCoordinate
  | .affine x y => .ok (p.coordFE x, p.coordFE y)

end Sys2Proof.Machine
end

