-- ==== Sys2Proof/Machine/Point.lean ====
section
/-!
DEFINITION. The generic curve-point commands (`42_point.md` R137 to R147).
-/

namespace Sys2Proof.Machine

/-- PNEW (R137): `Q[d] <- pt_new(F[ra], F[rb], F[rc], F[re])`. -/
def execPnew (rd ra rb rc re : Reg) (s : State) : Result :=
  finish s do
    let x ← s.readF ra
    let y ← s.readF rb
    let a ← s.readF rc
    let b ← s.readF re
    let p ← ptNew x y a b
    return s.setQ rd p

/-- PINF (R138): `Q[d] <- pt_inf(F[rc], F[re])`. -/
def execPinf (rd rc re : Reg) (s : State) : Result :=
  finish s do
    let a ← s.readF rc
    let b ← s.readF re
    let p ← ptInf a b
    return s.setQ rd p

/-- PADD (R139): `Q[d] <- pt_add(Q[a], Q[b])`. -/
def execPadd (rd ra rb : Reg) (s : State) : Result :=
  finish s do
    let p ← s.readQ ra
    let q ← s.readQ rb
    let r ← ptAdd p q
    return s.setQ rd r

/-- PDBL (R140): `Q[d] <- pt_dbl(Q[a])`. -/
def execPdbl (rd ra : Reg) (s : State) : Result :=
  finish s do
    let p ← s.readQ ra
    let r ← ptDbl p
    return s.setQ rd r

/-- PMUL (R141): `Q[d] <- pt_mul(Q[a], int(K[b]))`, with no reduction of the scalar. -/
def execPmul (rd ra rb : Reg) (s : State) : Result :=
  finish s do
    let p ← s.readQ ra
    let r ← ptMul p (s.readK rb)
    return s.setQ rd r

/-- PEQ (R142): `T <- pt_eq(Q[a], Q[b])`. -/
def execPeq (ra rb : Reg) (s : State) : Result :=
  finish s do
    let p ← s.readQ ra
    let q ← s.readQ rb
    return s.setT (ptEq p q)

/-- PISINF (R143): `T <- (Q[a].coords = Identity)`. -/
def execPisinf (ra : Reg) (s : State) : Result :=
  finish s do
    let p ← s.readQ ra
    return s.setT p.isIdentity

/-- PGETX (R144): `F[d] <- Q[a].x`, or `IdentityCoordinate`. -/
def execPgetx (rd ra : Reg) (s : State) : Result :=
  finish s do
    let p ← s.readQ ra
    let xy ← p.affineCoords
    return s.setF rd xy.1

/-- PGETY (R145): `F[d] <- Q[a].y`, or `IdentityCoordinate`. -/
def execPgety (rd ra : Reg) (s : State) : Result :=
  finish s do
    let p ← s.readQ ra
    let xy ← p.affineCoords
    return s.setF rd xy.2

/-- PGETA (R146): `F[d] <- Q[a].a`, for the identity too. -/
def execPgeta (rd ra : Reg) (s : State) : Result :=
  finish s do
    let p ← s.readQ ra
    return s.setF rd p.aFE

/-- PGETB (R147): `F[d] <- Q[a].b`, for the identity too. -/
def execPgetb (rd ra : Reg) (s : State) : Result :=
  finish s do
    let p ← s.readQ ra
    return s.setF rd p.bFE

end Sys2Proof.Machine
end

