-- ==== Sys2Proof/Machine/SecpFn.lean ====
section
/-!
DEFINITION. The pure secp256k1 functions of `43_secp256k1.md` R161 to R166 and the byte strings of `00_scope.md` R9.
-/

namespace Sys2Proof.Machine

/-! ### Byte strings -/

/-- The `n` low bytes of a number, most significant first. -/
def beBytes : Nat → Nat → List Byte
  | 0, _ => []
  | n + 1, v => beBytes n (v / 256) ++ [BitVec.ofNat 8 v]

/-- `BE32(v)`: the 32-byte big-endian string of a 256-bit number (R9). -/
def be32 (v : U256) : List Byte := beBytes 32 v.toNat

/-- `int_be(s)`: the unsigned integer whose big-endian bytes are `s` (R9). -/
def intBE (s : List Byte) : Nat := s.foldl (fun acc b => acc * 256 + b.toNat) 0

/-! ### secp256k1 -/

/-- `is_secp(P)`: the curve is `(0, 7)` over `p` (R161). -/
def isSecp (p : Pt) : Bool := feEq p.aFE secpA0 && feEq p.bFE secpB7

/-- `if not is_secp(P): raise IncompatibleCurve` (R161). -/
def requireSecp (p : Pt) : Except CmdFault Unit :=
  if isSecp p then .ok () else .error .incompatibleCurve

/-- `secp_new(x, y)`: `x` is range-checked first (R162). -/
def secpNew (x y : Int) : Except CmdFault Pt := do
  let X ← feNew x secpP.toNat
  let Y ← feNew y secpP.toNat
  ptNew X Y secpA0 secpB7

/-- `secp_mul(P, k)`: the scalar is reduced modulo `N` first, with the floor modulus (R163). -/
def secpMul (p : Pt) (k : Int) : Except CmdFault Pt := ptMul p (k % (secpN.toNat : Int))

/-- `sec_encode(P, C)`: the bytes of the SEC encoding (R164). -/
def secEncode (p : Pt) (c : Bool) : Except CmdFault (List Byte) := do
  requireSecp p
  let xy ← p.affineCoords
  if c then return (if xy.2.num.toNat % 2 = 0 then 0x02#8 else 0x03#8) :: be32 xy.1.num
  else return 0x04#8 :: (be32 xy.1.num ++ be32 xy.2.num)

/-- The root with the requested parity: `beta`, or `p − beta` (R165). -/
def secPickRoot (beta : FE) (wantOdd : Bool) : Except CmdFault FE :=
  if (beta.num.toNat % 2 == 1) = wantOdd then .ok beta
  else feNew ((secpP.toNat : Int) - beta.num.toNat) secpP.toNat

/-- The compressed path of `sec_decode`: the root of `x³ + 7` with the requested parity (R165). -/
def secDecompress (x : Int) (wantOdd : Bool) : Except CmdFault Pt := do
  let X ← feNew x secpP.toNat
  let xx ← feMul X X
  let xxx ← feMul xx X
  let alpha ← feAdd xxx secpB7
  let beta ← feSqrt alpha
  let y ← secPickRoot beta wantOdd
  ptNew X y secpA0 secpB7

/-- `sec_decode(S)`: the path is chosen by the prefix byte alone (R165). -/
def secDecode (m : Memory) : Except CmdFault Pt :=
  let pre := m.read 0
  if pre = 0x04#8 then secpNew (intBE (m.readBytes 1 32)) (intBE (m.readBytes 33 32))
  else if pre = 0x02#8 ∨ pre = 0x03#8 then secDecompress (intBE (m.readBytes 1 32)) (pre == 0x03#8)
  else .error .secFormat

/-- The point `R = u·G + v·P` of `secp_verify` (R166). -/
def secpVerifyPoint (p : Pt) (z r s : Int) : Except CmdFault Pt := do
  let n : Int := secpN.toNat
  let sInv : Int := modexp s (secpN.toNat - 2) secpN.toNat
  let uG ← secpMul secpG ((z * sInv) % n)
  let vP ← secpMul p ((r * sInv) % n)
  ptAdd uG vP

/-- `secp_verify(P, z, r, s)`: the comparison is between integers, with no reduction (R166). -/
def secpVerify (p : Pt) (z r s : Int) : Except CmdFault Bool := do
  requireSecp p
  let R ← secpVerifyPoint p z r s
  let xy ← R.affineCoords
  return (xy.1.num.toNat : Int) == r

end Sys2Proof.Machine
end

