-- ==== Sys2Proof/Machine/Secp.lean ====
section
/-!
DEFINITION. The secp256k1 commands (`43_secp256k1.md` R167 to R174).
-/

namespace Sys2Proof.Machine

/-- SLDG (R167): `Q[d] <- G`. -/
def execSldg (rd : Reg) (s : State) : Result := finish s (.ok (s.setQ rd secpG))

/-- SLDN (R168): `K[d] <- { neg = 0, mag = N }`. -/
def execSldn (rd : Reg) (s : State) : Result := finish s (.ok (s.setK rd (KInt.ofMag secpN)))

/-- SLDP (R169): `K[d] <- { neg = 0, mag = p }`. -/
def execSldp (rd : Reg) (s : State) : Result := finish s (.ok (s.setK rd (KInt.ofMag secpP)))

/-- SNEW (R170): `Q[d] <- secp_new(int(K[a]), int(K[b]))`. -/
def execSnew (rd ra rb : Reg) (s : State) : Result :=
  finish s do
    let p ← secpNew (s.readK ra) (s.readK rb)
    return s.setQ rd p

/-- SMUL (R171): `Q[d] <- secp_mul(Q[a], int(K[b]))` for a secp256k1 point. -/
def execSmul (rd ra rb : Reg) (s : State) : Result :=
  finish s do
    let p ← s.readQ ra
    requireSecp p
    let r ← secpMul p (s.readK rb)
    return s.setQ rd r

/-- SECENC (R172): the encoding into SECBUF from byte 0 on, and `SECLEN`. -/
def execSecenc (ra : Reg) (c : Bool) (s : State) : Result :=
  finish s do
    let p ← s.readQ ra
    let bytes ← secEncode p c
    return (s.setSecbuf (Memory.writeBytes s.secbuf 0 bytes)).setSeclen (BitVec.ofNat 7 bytes.length)

/-- SECDEC (R173): `Q[d] <- sec_decode(SEC[0..64])`; `SECLEN` is neither read nor written. -/
def execSecdec (rd : Reg) (s : State) : Result :=
  finish s do
    let p ← secDecode s.secbuf
    return s.setQ rd p

/-- SVERIFY (R174): `T <- secp_verify(Q[ra], int(K[rb]), int(K[rc]), int(K[re]))`. -/
def execSverify (ra rb rc re : Reg) (s : State) : Result :=
  finish s do
    let p ← s.readQ ra
    let ok ← secpVerify p (s.readK rb) (s.readK rc) (s.readK re)
    return s.setT ok

end Sys2Proof.Machine
end

