-- ==== Sys2Proof/Machine/System.lean ====
section
/-!
DEFINITION. The system command NOP (`40_system.md` R95).
-/

namespace Sys2Proof.Machine

/-- NOP (R95): nothing; it completes as every command does. -/
def execNop (s : State) : Result := finish s (.ok s)

end Sys2Proof.Machine
end

