-- ==== Sys2Proof/Syntax.lean ====
section
/-!
DEFINITION. The 31 commands of `30_encoding.md` R73, one constructor each, with the fields each one uses. Which
register file a field selects is fixed by the command and given in its docstring.
-/

namespace Sys2Proof

/-- A legal MECC command (`30_encoding.md` R73). An operand is a 3-bit index (R79: `rd = w[22:20]`, …), so an index
of 8 or more cannot be written here; the words that carry one are illegal (R71, R75). -/
inductive Instr where
  /-- `NOP` (R95). -/
  | nop
  /-- `FNEW Fd, Ka, Kb`: number `Ka`, prime `Kb` (R111). -/
  | fnew (rd ra rb : Reg)
  /-- `FADD Fd, Fa, Fb` (R112). -/
  | fadd (rd ra rb : Reg)
  /-- `FSUB Fd, Fa, Fb` (R113). -/
  | fsub (rd ra rb : Reg)
  /-- `FMUL Fd, Fa, Fb` (R114). -/
  | fmul (rd ra rb : Reg)
  /-- `FDIV Fd, Fa, Fb` (R115). -/
  | fdiv (rd ra rb : Reg)
  /-- `FINV Fd, Fa` (R116). -/
  | finv (rd ra : Reg)
  /-- `FPOW Fd, Fa, Kb`: exponent `Kb` (R117). -/
  | fpow (rd ra rb : Reg)
  /-- `FSQRT Fd, Fa` (R118). -/
  | fsqrt (rd ra : Reg)
  /-- `FEQ Fa, Fb` (R119). -/
  | feq (ra rb : Reg)
  /-- `FGET Kd, Fa` (R120). -/
  | fget (rd ra : Reg)
  /-- `FGETP Kd, Fa` (R121). -/
  | fgetp (rd ra : Reg)
  /-- `PNEW Qd, Fa, Fb, Fc, Fe`: `x`, `y`, `a`, `b` (R137). -/
  | pnew (rd ra rb rc re : Reg)
  /-- `PINF Qd, Fc, Fe`: `a`, `b` (R138). -/
  | pinf (rd rc re : Reg)
  /-- `PADD Qd, Qa, Qb` (R139). -/
  | padd (rd ra rb : Reg)
  /-- `PDBL Qd, Qa` (R140). -/
  | pdbl (rd ra : Reg)
  /-- `PMUL Qd, Qa, Kb`: scalar `Kb` (R141). -/
  | pmul (rd ra rb : Reg)
  /-- `PEQ Qa, Qb` (R142). -/
  | peq (ra rb : Reg)
  /-- `PISINF Qa` (R143). -/
  | pisinf (ra : Reg)
  /-- `PGETX Fd, Qa` (R144). -/
  | pgetx (rd ra : Reg)
  /-- `PGETY Fd, Qa` (R145). -/
  | pgety (rd ra : Reg)
  /-- `PGETA Fd, Qa` (R146). -/
  | pgeta (rd ra : Reg)
  /-- `PGETB Fd, Qa` (R147). -/
  | pgetb (rd ra : Reg)
  /-- `SLDG Qd` (R167). -/
  | sldg (rd : Reg)
  /-- `SLDN Kd` (R168). -/
  | sldn (rd : Reg)
  /-- `SLDP Kd` (R169). -/
  | sldp (rd : Reg)
  /-- `SNEW Qd, Ka, Kb`: `x`, `y` (R170). -/
  | snew (rd ra rb : Reg)
  /-- `SMUL Qd, Qa, Kb`: scalar `Kb` (R171). -/
  | smul (rd ra rb : Reg)
  /-- `SECENC Qa, C|U`: `c` is `fl[0]`, true for compressed (R172). -/
  | secenc (ra : Reg) (c : Bool)
  /-- `SECDEC Qd` (R173). -/
  | secdec (rd : Reg)
  /-- `SVERIFY Qa, Kb, Kc, Ke`: public key, `z`, `r`, `s` (R174). -/
  | sverify (ra rb rc re : Reg)
deriving DecidableEq, Repr

end Sys2Proof
end

