-- ==== Sys2Proof/Machine/Dispatch.lean ====
section
/-!
DEFINITION. One arm per command of `30_encoding.md` R73, each one direct call of its meaning.
-/

namespace Sys2Proof.Machine

/-- Execute a command in a state (`40_system.md` R91). -/
def exec (i : Instr) (s : State) : Host.Outcome State Fault Refusal :=
  match i with
  -- system
  | .nop => Sys2Proof.Machine.execNop s
  -- field
  | .fnew rd ra rb => Sys2Proof.Machine.execFnew rd ra rb s
  | .fadd rd ra rb => Sys2Proof.Machine.execFadd rd ra rb s
  | .fsub rd ra rb => Sys2Proof.Machine.execFsub rd ra rb s
  | .fmul rd ra rb => Sys2Proof.Machine.execFmul rd ra rb s
  | .fdiv rd ra rb => Sys2Proof.Machine.execFdiv rd ra rb s
  | .finv rd ra => Sys2Proof.Machine.execFinv rd ra s
  | .fpow rd ra rb => Sys2Proof.Machine.execFpow rd ra rb s
  | .fsqrt rd ra => Sys2Proof.Machine.execFsqrt rd ra s
  | .feq ra rb => Sys2Proof.Machine.execFeq ra rb s
  | .fget rd ra => Sys2Proof.Machine.execFget rd ra s
  | .fgetp rd ra => Sys2Proof.Machine.execFgetp rd ra s
  -- point
  | .pnew rd ra rb rc re => Sys2Proof.Machine.execPnew rd ra rb rc re s
  | .pinf rd rc re => Sys2Proof.Machine.execPinf rd rc re s
  | .padd rd ra rb => Sys2Proof.Machine.execPadd rd ra rb s
  | .pdbl rd ra => Sys2Proof.Machine.execPdbl rd ra s
  | .pmul rd ra rb => Sys2Proof.Machine.execPmul rd ra rb s
  | .peq ra rb => Sys2Proof.Machine.execPeq ra rb s
  | .pisinf ra => Sys2Proof.Machine.execPisinf ra s
  | .pgetx rd ra => Sys2Proof.Machine.execPgetx rd ra s
  | .pgety rd ra => Sys2Proof.Machine.execPgety rd ra s
  | .pgeta rd ra => Sys2Proof.Machine.execPgeta rd ra s
  | .pgetb rd ra => Sys2Proof.Machine.execPgetb rd ra s
  -- secp256k1
  | .sldg rd => Sys2Proof.Machine.execSldg rd s
  | .sldn rd => Sys2Proof.Machine.execSldn rd s
  | .sldp rd => Sys2Proof.Machine.execSldp rd s
  | .snew rd ra rb => Sys2Proof.Machine.execSnew rd ra rb s
  | .smul rd ra rb => Sys2Proof.Machine.execSmul rd ra rb s
  | .secenc ra c => Sys2Proof.Machine.execSecenc ra c s
  | .secdec rd => Sys2Proof.Machine.execSecdec rd s
  | .sverify ra rb rc re => Sys2Proof.Machine.execSverify ra rb rc re s

end Sys2Proof.Machine
end

