-- ==== Sys2Proof/WellFormed.lean ====
section
/-!
DEFINITION. The shape of a command word: its seven fields (`30_encoding.md` R70), the ten operand shapes (R72), and
the checks of R71 that make a word's fields fit a shape. The fields and the shape of each command are given here;
`Instr.wellFormed` says that a command's fields fit its shape.
-/

namespace Sys2Proof

/-- The seven fields of a command word, most significant first (R70). -/
structure Fields where
  /-- bits 31:24, the opcode -/
  op : BitVec 8
  /-- bits 23:20, destination register index -/
  rd : BitVec 4
  /-- bits 19:16, first source register index -/
  ra : BitVec 4
  /-- bits 15:12, second source register index -/
  rb : BitVec 4
  /-- bits 11:8, third source register index -/
  rc : BitVec 4
  /-- bits 7:4, fourth source register index -/
  re : BitVec 4
  /-- bits 3:0, flags -/
  fl : BitVec 4
deriving DecidableEq, Repr

/-- The ten operand shapes, named as in R72. -/
inductive Format where
  | z | d | a | af | da | ab | dab | dce | dabce | abce
deriving DecidableEq, Repr

/-- The bits of a 4-bit register field that must be zero: bit 3 of a used field, all four of an unused one (R71,
R72). -/
def fieldMask (used : Bool) : BitVec 4 := if used then 0x8#4 else 0xF#4

/-- Does the shape use field `rd`? (R72) -/
def Format.usesRd : Format → Bool
  | .d | .da | .dab | .dce | .dabce => true
  | .z | .a | .af | .ab | .abce => false

/-- Does the shape use field `ra`? (R72) -/
def Format.usesRa : Format → Bool
  | .a | .af | .da | .ab | .dab | .dabce | .abce => true
  | .z | .d | .dce => false

/-- Does the shape use field `rb`? (R72) -/
def Format.usesRb : Format → Bool
  | .ab | .dab | .dabce | .abce => true
  | .z | .d | .a | .af | .da | .dce => false

/-- Does the shape use fields `rc` and `re`? (R72: every shape uses both or neither.) -/
def Format.usesRcRe : Format → Bool
  | .dce | .dabce | .abce => true
  | .z | .d | .a | .af | .da | .ab | .dab => false

/-- The bits of `fl` that must be zero: `fl[3:1]` in shape `AF`, all four elsewhere (R71). -/
def Format.flMask : Format → BitVec 4
  | .af => 0xE#4
  | .z | .d | .a | .da | .ab | .dab | .dce | .dabce | .abce => 0xF#4

/-- The mask of a shape: a 1 in every bit that must match (R72). -/
def Format.mask (f : Format) : Word :=
  0xFF#8 ++ fieldMask f.usesRd ++ fieldMask f.usesRa ++ fieldMask f.usesRb ++ fieldMask f.usesRcRe
    ++ fieldMask f.usesRcRe ++ f.flMask

/-- The checks of R71 on the register fields and the flags of a word: in a used field bit 3 is 0, an unused field is
0, and the flags are 0 but for `fl[0]` of shape `AF`. -/
def Fields.fits (w : Fields) (f : Format) : Bool :=
  (w.rd &&& fieldMask f.usesRd == 0#4) && (w.ra &&& fieldMask f.usesRa == 0#4)
    && (w.rb &&& fieldMask f.usesRb == 0#4) && (w.rc &&& fieldMask f.usesRcRe == 0#4)
    && (w.re &&& fieldMask f.usesRcRe == 0#4) && (w.fl &&& f.flMask == 0#4)

/-- The shape of each command (R73). -/
def Instr.format : Instr → Format
  | .nop => .z
  | .fnew .. => .dab
  | .fadd .. => .dab
  | .fsub .. => .dab
  | .fmul .. => .dab
  | .fdiv .. => .dab
  | .finv .. => .da
  | .fpow .. => .dab
  | .fsqrt .. => .da
  | .feq .. => .ab
  | .fget .. => .da
  | .fgetp .. => .da
  | .pnew .. => .dabce
  | .pinf .. => .dce
  | .padd .. => .dab
  | .pdbl .. => .da
  | .pmul .. => .dab
  | .peq .. => .ab
  | .pisinf .. => .a
  | .pgetx .. => .da
  | .pgety .. => .da
  | .pgeta .. => .da
  | .pgetb .. => .da
  | .sldg .. => .d
  | .sldn .. => .d
  | .sldp .. => .d
  | .snew .. => .dab
  | .smul .. => .dab
  | .secenc .. => .af
  | .secdec .. => .d
  | .sverify .. => .abce

/-- The opcode of each command (R73). -/
def Instr.opcode : Instr → BitVec 8
  | .nop => 0x00#8
  | .fnew .. => 0x10#8
  | .fadd .. => 0x11#8
  | .fsub .. => 0x12#8
  | .fmul .. => 0x13#8
  | .fdiv .. => 0x14#8
  | .finv .. => 0x15#8
  | .fpow .. => 0x16#8
  | .fsqrt .. => 0x17#8
  | .feq .. => 0x18#8
  | .fget .. => 0x19#8
  | .fgetp .. => 0x1A#8
  | .pnew .. => 0x20#8
  | .pinf .. => 0x21#8
  | .padd .. => 0x22#8
  | .pdbl .. => 0x23#8
  | .pmul .. => 0x24#8
  | .peq .. => 0x25#8
  | .pisinf .. => 0x26#8
  | .pgetx .. => 0x27#8
  | .pgety .. => 0x28#8
  | .pgeta .. => 0x29#8
  | .pgetb .. => 0x2A#8
  | .sldg .. => 0x30#8
  | .sldn .. => 0x31#8
  | .sldp .. => 0x32#8
  | .snew .. => 0x33#8
  | .smul .. => 0x34#8
  | .secenc .. => 0x35#8
  | .secdec .. => 0x36#8
  | .sverify .. => 0x37#8

/-- A register index as a 4-bit field (R71: bit 3 is 0). -/
def regField (r : Reg) : BitVec 4 := BitVec.ofNat 4 r.val

/-- Build the fields of a command: unused fields are 0 (R71). -/
def mkFields (op : BitVec 8) (rd ra rb rc re fl : BitVec 4 := 0#4) : Fields := ⟨op, rd, ra, rb, rc, re, fl⟩

/-- The fields of a command's word, "`op<<24 | rd<<20 | ra<<16 | rb<<12 | rc<<8 | re<<4 | fl`" (R77). -/
def Instr.fields (i : Instr) : Fields :=
  match i with
  | .nop => mkFields i.opcode
  | .fnew rd ra rb | .fadd rd ra rb | .fsub rd ra rb | .fmul rd ra rb | .fdiv rd ra rb | .fpow rd ra rb
  | .padd rd ra rb | .pmul rd ra rb | .snew rd ra rb | .smul rd ra rb =>
    mkFields i.opcode (rd := regField rd) (ra := regField ra) (rb := regField rb)
  | .finv rd ra | .fsqrt rd ra | .fget rd ra | .fgetp rd ra | .pdbl rd ra | .pgetx rd ra | .pgety rd ra
  | .pgeta rd ra | .pgetb rd ra =>
    mkFields i.opcode (rd := regField rd) (ra := regField ra)
  | .feq ra rb | .peq ra rb => mkFields i.opcode (ra := regField ra) (rb := regField rb)
  | .pisinf ra => mkFields i.opcode (ra := regField ra)
  | .pnew rd ra rb rc re =>
    mkFields i.opcode (rd := regField rd) (ra := regField ra) (rb := regField rb) (rc := regField rc)
      (re := regField re)
  | .pinf rd rc re => mkFields i.opcode (rd := regField rd) (rc := regField rc) (re := regField re)
  | .sldg rd | .sldn rd | .sldp rd | .secdec rd => mkFields i.opcode (rd := regField rd)
  | .secenc ra c => mkFields i.opcode (ra := regField ra) (fl := if c then 1#4 else 0#4)
  | .sverify ra rb rc re =>
    mkFields i.opcode (ra := regField ra) (rb := regField rb) (rc := regField rc) (re := regField re)

/-- A command is well formed when its fields fit its shape (R71). Every `Instr` is: its operands are 3-bit indices
and its unused fields are 0; the checks refuse ill-formed FIELDS (`Fields.fits`). -/
def Instr.wellFormed (i : Instr) : Bool := i.fields.fits i.format

end Sys2Proof
end

