-- ==== Sys2Proof/Decode.lean ====
section
/-!
DEFINITION. Decoding (`30_encoding.md` R79), total on 32-bit words, over the 31 rows of R73, each with its opcode
and its shape's mask; then the encoder, written from the field layout of R70 and R77.
-/

namespace Sys2Proof

/-- The answer of the decoder: "`command | illegal`" (R79). -/
inductive Decoded where
  /-- the word is this command -/
  | command (i : Instr)
  /-- the word matches no row (R75); executing it faults with `IllegalCommand` -/
  | illegal
deriving DecidableEq, Repr

/-- The operands R79 reads from a word: 3-bit register indices and the flag `C`. -/
structure Operands where
  /-- `rd = w[22:20]` -/
  rd : Reg
  /-- `ra = w[18:16]` -/
  ra : Reg
  /-- `rb = w[14:12]` -/
  rb : Reg
  /-- `rc = w[10:8]` -/
  rc : Reg
  /-- `re = w[6:4]` -/
  re : Reg
  /-- `C = w[0]` -/
  c : Bool
deriving DecidableEq, Repr

/-- The operands of a word (R79). -/
def operandsOf (w : Word) : Operands where
  rd := (w.extractLsb' 20 3).toFin
  ra := (w.extractLsb' 16 3).toFin
  rb := (w.extractLsb' 12 3).toFin
  rc := (w.extractLsb' 8 3).toFin
  re := (w.extractLsb' 4 3).toFin
  c := w.getLsbD 0

/-- One row of the opcode map (R73). -/
structure Row where
  /-- the opcode, bits 31:24 -/
  op : BitVec 8
  /-- the operand shape, which gives the mask (R72) -/
  fmt : Format
  /-- the command, from the operands -/
  build : Operands → Instr

/-- `match(X) = op(X) << 24` (R72). -/
def Row.pattern (r : Row) : Word := r.op ++ 0#24

/-- The opcode map, in the order of R73. -/
def opcodeMap : List Row :=
  [ ⟨0x00#8, .z, fun _ => .nop⟩,
    ⟨0x10#8, .dab, fun o => .fnew o.rd o.ra o.rb⟩,
    ⟨0x11#8, .dab, fun o => .fadd o.rd o.ra o.rb⟩,
    ⟨0x12#8, .dab, fun o => .fsub o.rd o.ra o.rb⟩,
    ⟨0x13#8, .dab, fun o => .fmul o.rd o.ra o.rb⟩,
    ⟨0x14#8, .dab, fun o => .fdiv o.rd o.ra o.rb⟩,
    ⟨0x15#8, .da, fun o => .finv o.rd o.ra⟩,
    ⟨0x16#8, .dab, fun o => .fpow o.rd o.ra o.rb⟩,
    ⟨0x17#8, .da, fun o => .fsqrt o.rd o.ra⟩,
    ⟨0x18#8, .ab, fun o => .feq o.ra o.rb⟩,
    ⟨0x19#8, .da, fun o => .fget o.rd o.ra⟩,
    ⟨0x1A#8, .da, fun o => .fgetp o.rd o.ra⟩ ] ++
  [ ⟨0x20#8, .dabce, fun o => .pnew o.rd o.ra o.rb o.rc o.re⟩,
    ⟨0x21#8, .dce, fun o => .pinf o.rd o.rc o.re⟩,
    ⟨0x22#8, .dab, fun o => .padd o.rd o.ra o.rb⟩,
    ⟨0x23#8, .da, fun o => .pdbl o.rd o.ra⟩,
    ⟨0x24#8, .dab, fun o => .pmul o.rd o.ra o.rb⟩,
    ⟨0x25#8, .ab, fun o => .peq o.ra o.rb⟩,
    ⟨0x26#8, .a, fun o => .pisinf o.ra⟩,
    ⟨0x27#8, .da, fun o => .pgetx o.rd o.ra⟩,
    ⟨0x28#8, .da, fun o => .pgety o.rd o.ra⟩,
    ⟨0x29#8, .da, fun o => .pgeta o.rd o.ra⟩,
    ⟨0x2A#8, .da, fun o => .pgetb o.rd o.ra⟩ ] ++
  [ ⟨0x30#8, .d, fun o => .sldg o.rd⟩,
    ⟨0x31#8, .d, fun o => .sldn o.rd⟩,
    ⟨0x32#8, .d, fun o => .sldp o.rd⟩,
    ⟨0x33#8, .dab, fun o => .snew o.rd o.ra o.rb⟩,
    ⟨0x34#8, .dab, fun o => .smul o.rd o.ra o.rb⟩,
    ⟨0x35#8, .af, fun o => .secenc o.ra o.c⟩,
    ⟨0x36#8, .d, fun o => .secdec o.rd⟩,
    ⟨0x37#8, .abce, fun o => .sverify o.ra o.rb o.rc o.re⟩ ]

/-- A word is a row's command exactly when `w and mask(X) = match(X)` (R72). -/
def Row.isMatch (r : Row) (w : Word) : Bool := w &&& r.fmt.mask == r.pattern

/-- The decoder of R79: the row that matches, with the operands of the word; `illegal` if there is none (R75). -/
def decode (w : Word) : Decoded :=
  match opcodeMap.find? (fun r => r.isMatch w) with
  | some r => .command (r.build (operandsOf w))
  | none => .illegal

/-- The word of seven fields (R70). -/
def Fields.word (f : Fields) : Word := f.op ++ f.rd ++ f.ra ++ f.rb ++ f.rc ++ f.re ++ f.fl

/-- The encoder: the word of a command (R70, R77). -/
def encode (i : Instr) : Word := i.fields.word

/-- What the decoder reads from an instruction whose `nbits` bits are `w`. A command is one 32-bit word (R70): bits
above `nbits` are 0, and a number of more than 32 bits is no command. -/
def decodeTableWord (nbits w : Nat) : Option Instr :=
  if nbits ≤ 32 then
    match decode (BitVec.ofNat 32 (w % 2 ^ nbits)) with
    | .command i => some i
    | .illegal => none
  else none

end Sys2Proof
end

