-- ==== Sys2Proof/Machine/Fetch.lean ====
section
/-!
DEFINITION. What the core executes: the decoding of the pending word (`40_system.md` R91). There is no program
counter and no fetch from memory (`10_state.md` R30, `20_memory.md` R63).
-/

namespace Sys2Proof.Machine

/-- `X <- decode(PEND)` (R91). -/
def State.command (s : State) : Decoded := decode s.pend

/-- The core step for an illegal word (R91, `30_encoding.md` R75). -/
def State.illegalStep (s : State) : Result := finish s (.error .illegalCommand)

/-- The state in which the word `w` has just been accepted (R90) and no host action is pending: the next step is the
core's and executes it. -/
def State.accepted (s : State) (w : Word) : State :=
  { s with pend := w, busy := true, done := false, inbox := [] }

end Sys2Proof.Machine
end

