-- ==== Sys2Proof/Config.lean ====
section
/-!
DEFINITION. What is fixed for the machine and what the spec leaves open. Constants that a test could show wrong
(the `ID` value, the secp256k1 parameters, `POW00`) stand in `Machine/Constants.lean`.
-/

namespace Sys2Proof

/-- The value the port returns for a host read of `KnW`, `KnS` or `SECW` while `BUSY = 1`: "a model treats each
such read as a free draw under no law" (`20_memory.md` R64). It has no body: nothing can be proved of it. It is
applied to a counter of draws, so that it is "fresh for every read" (`93_implementation_defined.md` U32). Log
entry 3. -/
opaque Config.busyRead : Nat → Word

end Sys2Proof
end

