-- ==== Sys2Proof/Machine/Port.lean ====
section
/-!
DEFINITION. The host port: its map (`20_memory.md` R51), HostRead (R52), HostWrite (R53), the word and byte order of
its two windows (R54, R55), the acceptance of a command (`40_system.md` R90), and the reset input
(`70_reset_and_hazards.md` R250 to R252).
-/

namespace Sys2Proof.Machine

/-- A location of the port map (R51). -/
inductive Loc where
  | id | cmd | status | ctrl | clr | seclen | errcmd
  /-- `KnW[i]`: word `i` of the magnitude of `K[n]` -/
  | kw (n : Reg) (i : Fin 8)
  /-- `KnS`: the sign word of `K[n]` -/
  | ks (n : Reg)
  /-- `SECW[j]` -/
  | secw (j : Fin 17)
  /-- every offset that R51 does not name (R59) -/
  | reserved
deriving DecidableEq, Repr

/-- The byte offset of a word location. -/
def portOffset (a : PortAddr) : Nat := 4 * a.val

/-- The word location of a byte offset: only multiples of 4 below `0x1000` have one (R57). -/
def portAddr (off : Nat) : Option PortAddr :=
  if h : off % 4 = 0 ∧ off / 4 < 1024 then some ⟨off / 4, h.2⟩ else none

/-- The location inside a `K` window of 16 words: 8 magnitude words, the sign word, reserved (R51). -/
def kWindowLoc (n : Reg) (i : Nat) : Loc :=
  if h : i < 8 then .kw n ⟨i, h⟩ else if i = 8 then .ks n else .reserved

/-- The port map (R51), by word location: `0x000`..`0x018` are words 0 to 6, the `K` windows start at word
`0x40` (offset `0x100`), 16 words each, the SECBUF window at word `0x100` (offset `0x400`), 17 words. -/
def locOf (a : PortAddr) : Loc :=
  let w := a.val
  if w = 0 then .id
  else if w = 1 then .cmd
  else if w = 2 then .status
  else if w = 3 then .ctrl
  else if w = 4 then .clr
  else if w = 5 then .seclen
  else if w = 6 then .errcmd
  else if 0x40 ≤ w ∧ w < 0xC0 then kWindowLoc (Fin.ofNat 8 ((w - 0x40) / 16)) ((w - 0x40) % 16)
  else if h : 0x100 ≤ w ∧ w < 0x111 then .secw ⟨w - 0x100, by omega⟩
  else .reserved

/-- Word `i` of a magnitude, word 0 least significant (R54). -/
def magWord (m : U256) (i : Fin 8) : Word := m.extractLsb' (32 * i.val) 32

/-- The magnitude with word `i` replaced: the other 224 bits keep their value (R53). -/
def setMagWord (m : U256) (i : Fin 8) (v : Word) : U256 :=
  (m &&& ~~~(0xFFFFFFFF#256 <<< (32 * i.val))) ||| (v.setWidth 256 <<< (32 * i.val))

/-- How many bytes of SECBUF are in word `SECW[j]`: four, but `SECW[16]` holds only `SEC[64]` (R55). -/
def secWordLen (j : Fin 17) : Nat := if j.val = 16 then 1 else 4

/-- The `n` low bytes of a word, least significant first (R55). -/
def wordBytes (v : Word) : Nat → List Byte
  | 0 => []
  | n + 1 => v.setWidth 8 :: wordBytes (v >>> 8) n

/-- The word of a byte list, the first byte in bits 7:0 (R55). -/
def bytesWord : List Byte → Word
  | [] => 0#32
  | b :: bs => b.setWidth 32 ||| (bytesWord bs <<< 8)

/-- The word at `SECW[j]`. -/
def Memory.secWord (m : Memory) (j : Fin 17) : Word := bytesWord (m.readBytes (4 * j.val) (secWordLen j))

/-- SECBUF after a write of `v` to `SECW[j]`. -/
def Memory.setSecWord (m : Memory) (j : Fin 17) (v : Word) : Memory :=
  m.writeBytes (4 * j.val) (wordBytes v (secWordLen j))

/-- Are reads of this location unspecified, and writes dropped, while `BUSY = 1`? (R64) -/
def Loc.isOperand : Loc → Bool
  | .kw _ _ => true
  | .ks _ => true
  | .secw _ => true
  | .id => false
  | .cmd => false
  | .status => false
  | .ctrl => false
  | .clr => false
  | .seclen => false
  | .errcmd => false
  | .reserved => false

/-- The value of a location (R52, with `BUSY = 0` for the operand windows). -/
def State.portValue (s : State) : Loc → Word
  | .id => idValue
  | .cmd => 0#32
  | .status => s.statusWord
  | .ctrl => flagBit s.ie 0
  | .clr => 0#32
  | .seclen => s.seclen.setWidth 32
  | .errcmd => s.errcmd
  | .kw n i => magWord s.k[n].mag i
  | .ks n => flagBit s.k[n].neg 0
  | .secw j => s.secbuf.secWord j
  | .reserved => 0#32

/-- HostRead (R52): the word returned, and the state, in which only the count of draws can differ. An operand word
read while `BUSY = 1` is any value (R64). -/
def State.hostRead (s : State) (a : PortAddr) : Word × State :=
  if (locOf a).isOperand && s.busy then (Config.busyRead s.draws, { s with draws := s.draws + 1 })
  else (s.portValue (locOf a), s)

/-- Offering a word as a command (`40_system.md` R90): dropped while `BUSY` or `ERRF`, else accepted whatever it
is. -/
def State.offer (s : State) (w : Word) : State :=
  if s.busy || s.errf then s.dropWrite else { s with pend := w, busy := true, done := false }

/-- A write to an operand window: dropped while `BUSY = 1` (R53). -/
def State.operandWrite (s : State) (s' : State) : State := if s.busy then s.dropWrite else s'

/-- HostWrite (R53). -/
def State.hostWrite (s : State) (a : PortAddr) (v : Word) : State :=
  match locOf a with
  | .id => s
  | .cmd => s.offer v
  | .status => s
  | .ctrl => { s with ie := v.getLsbD 0 }
  | .clr => s.clear v
  | .seclen => s
  | .errcmd => s
  | .kw n i => s.operandWrite (s.setK n { s.k[n] with mag := setMagWord s.k[n].mag i v })
  | .ks n => s.operandWrite (s.setK n { s.k[n] with neg := v.getLsbD 0 })
  | .secw j => s.operandWrite (s.setSecbuf (s.secbuf.setSecWord j v))
  | .reserved => s

/-- Asserting the reset input (`70_reset_and_hazards.md` R251, R252): the whole architectural state takes its reset
value, and a pending command is abandoned. The host's own fields stay. Log entry 5. -/
def State.assertReset (s : State) : State :=
  { State.reset with rst := true, inbox := s.inbox, replies := s.replies, draws := s.draws }

/-- Record the word a read returned to the host. -/
def State.reply (s : State) (v : Word) : State := { s with replies := v :: s.replies }

/-- A read made by the host: HostRead, but 0 while `rst` is asserted (R252). -/
def State.portRead (s : State) (a : PortAddr) : Word × State := if s.rst then (0#32, s) else s.hostRead a

/-- A read made by the host, its word recorded. -/
def State.readReply (s : State) (a : PortAddr) : State := (s.portRead a).2.reply (s.portRead a).1

/-- The host's loop on `STATUS` as a pending action: `n` reads may come before the pending command completes, the next
one comes after it (`30_encoding.md` R78). Log entry 18. -/
def pollEvent : Nat → HostEvent
  | 0 => ⟨.afterCompletion, .poll 0⟩
  | n + 1 => ⟨.whileBusy, .poll n⟩

/-- The word location of `STATUS`, offset `0x008` (R51). -/
def statusAddr : PortAddr := 2

/-- One pass of the loop `RD 0x008` until bit 0 is 0 (`30_encoding.md` R78): the host looks at the word it has just
read, and is to read again if `BUSY` was 1. -/
def State.pollStatus (s : State) (n : Nat) : State :=
  if (s.portRead statusAddr).1.getLsbD 0 then
    { s.readReply statusAddr with inbox := pollEvent n :: s.inbox }
  else s.readReply statusAddr

/-- One host action. While `rst` is asserted writes are ignored and reads return 0 (R252). -/
def State.hostAct (s : State) (x : Access) : State :=
  match x with
  | .read a => s.readReply a
  | .write a v => if s.rst then s else s.hostWrite a v
  | .poll n => s.pollStatus n
  | .rstAssert => s.assertReset
  | .rstRelease => { s with rst := false }

/-- Whose turn it is. -/
inductive Turn where
  /-- the host acts, with the rest of its actions still pending -/
  | host (x : Access) (rest : List HostEvent)
  /-- the core executes the pending command (`40_system.md` R91) -/
  | core
  /-- nobody has anything to do: the core is idle and keeps all state (`60_exceptions.md` R233) -/
  | idle
deriving DecidableEq, Repr

/-- The next agent to move: the core's step is enabled exactly when `BUSY = 1` (`40_system.md` R91), and the host's
next action comes before it or after it as its tag says. Log entry 2. -/
def State.turn (s : State) : Turn :=
  match s.inbox with
  | [] => if s.busy then .core else .idle
  | ev :: rest =>
    if s.busy && ev.arrival == .afterCompletion then .core else .host ev.access rest

/-- The host's next action is taken from its pending list and performed. -/
def State.hostTurn (s : State) (x : Access) (rest : List HostEvent) : State :=
  ({ s with inbox := rest }).hostAct x

end Sys2Proof.Machine
end

