-- ==== Sys2Proof/Machine/Step.lean ====
section
/-!
DEFINITION. One step of the machine of two agents (`40_system.md` R90, R91): the host's next action, the core step,
or nothing.
-/

namespace Sys2Proof.Machine

/-- One step: the agent whose turn it is moves. The core step decodes the pending word and executes it (R91); an
idle machine keeps its state (`60_exceptions.md` R233). -/
def step (s : State) : Host.Outcome State Fault Refusal :=
  match s.turn with
  | .host x rest => .next (s.hostTurn x rest)
  | .core =>
    match s.command with
    | .command i => exec i s
    | .illegal => s.illegalStep
  | .idle => .next s

/-- The state in which the very next step executes the instruction whose `nbits` bits are `w`: MECC fetches
nothing, so the word is placed where an accepted command is held (`10_state.md` R41), as acceptance leaves it
(`40_system.md` R90), with no host action pending before the core step. Log entry 2. -/
def State.withFetchWord (s : State) (nbits w : Nat) : State := s.accepted (BitVec.ofNat 32 (w % 2 ^ nbits))

end Sys2Proof.Machine
end

