-- ==== Sys2Proof/Machine/HostProgram.lean ====
section
/-!
DEFINITION. The host statements of `30_encoding.md` R78 as lists of host actions, and the assembler text of R77. They
are the host's side: nothing here is state or behaviour of the block. A host program is an `inbox`; the value of a
statement is computed from the last words the port has returned.
-/

namespace Sys2Proof.Machine

/-- An access at a byte offset. Each statement takes the tag of its accesses: `afterCompletion` unless the program makes
it while a command runs. An offset that is no word location cannot be expressed on the port (`20_memory.md` R57): no
access is made. -/
def hostAt (t : Arrival) (off : Nat) (mk : PortAddr → Access) : List HostEvent :=
  match portAddr off with
  | some a => [⟨t, mk a⟩]
  | none => []

/-- `WR off, v` (R78). -/
def hostWR (off : Nat) (v : Word) (t : Arrival := .afterCompletion) : List HostEvent :=
  hostAt t off (fun a => .write a v)

/-- `RD off` (R78). -/
def hostRD (off : Nat) (t : Arrival := .afterCompletion) : List HostEvent := hostAt t off (fun a => .read a)

/-- The port offset of word `i` of `K[n]` (R51); `i = 8` is the sign word. -/
def kOffset (n : Reg) (i : Nat) : Nat := 0x100 + 0x40 * n.val + 4 * i

/-- `KLOAD Kn, value` (R78): nine writes. -/
def hostKLOAD (n : Reg) (v : Int) (t : Arrival := .afterCompletion) : List HostEvent :=
  (List.range 8).flatMap (fun i => hostWR (kOffset n i) (BitVec.ofNat 32 (v.natAbs >>> (32 * i))) t)
    ++ hostWR (kOffset n 8) (if v < 0 then 1#32 else 0#32) t

/-- `KREAD Kn` (R78): nine reads. -/
def hostKREAD (n : Reg) (t : Arrival := .afterCompletion) : List HostEvent :=
  (List.range 9).flatMap (fun i => hostRD (kOffset n i) t)

/-- The writes of `SECLOAD` from word `j` on, four bytes a word, missing bytes taken as 0. -/
def hostSECLOADfrom (t : Arrival) : Nat → Nat → List Byte → List HostEvent
  | 0, _, _ => []
  | n + 1, j, bytes =>
    hostWR (0x400 + 4 * j) (bytesWord (bytes.take 4)) t ++ hostSECLOADfrom t n (j + 1) (bytes.drop 4)

/-- How many words hold `n` bytes: `ceil(n/4)` (R78). -/
def secWords (n : Nat) : Nat := (n + 3) / 4

/-- `SECLOAD bytes` (R78): `ceil(len/4)` writes. -/
def hostSECLOAD (bytes : List Byte) (t : Arrival := .afterCompletion) : List HostEvent :=
  hostSECLOADfrom t (secWords bytes.length) 0 bytes

/-- `SECREAD n` (R78): `ceil(n/4)` reads. -/
def hostSECREAD (n : Nat) (t : Arrival := .afterCompletion) : List HostEvent :=
  (List.range (secWords n)).flatMap (fun j => hostRD (0x400 + 4 * j) t)

/-- `ISSUE word` (R78): write `CMD`, then read `STATUS` until `BUSY` is 0. `delay` is how many of the reads still come
before the command completes, if it was accepted: the delay of the command, which the spec leaves open
(`40_system.md` R92; log entry 18). If the word was dropped the first read finds `BUSY = 0` and is the last. -/
def hostISSUEword (w : Word) (delay : Nat := 0) (t : Arrival := .afterCompletion) : List HostEvent :=
  hostWR 0x004 w t ++ [pollEvent delay]

/-- `ISSUE <command>` (R78). -/
def hostISSUE (i : Instr) (delay : Nat := 0) (t : Arrival := .afterCompletion) : List HostEvent :=
  hostISSUEword (encode i) delay t

/-- `CLEAR v` (R78). -/
def hostCLEAR (v : Word) (t : Arrival := .afterCompletion) : List HostEvent := hostWR 0x010 v t

/-! ### The values of the reading statements (R78) -/

/-- The last `n` words the port returned, in the order of the reads. -/
def State.lastReplies (s : State) (n : Nat) : List Word := (s.replies.take n).reverse

/-- `Σ word_i · 2^(32i)`. -/
def wordsValue : List Word → Nat
  | [] => 0
  | w :: ws => w.toNat + 2 ^ 32 * wordsValue ws

/-- The value of `KREAD` from its nine words: `(−1)^neg · Σ word_i · 2^(32i)` (R78); `neg` is bit 0 of the ninth
(`20_memory.md` R54). -/
def kreadValue (words : List Word) : Int :=
  if (words.getD 8 0#32).getLsbD 0 then -(wordsValue (words.take 8) : Int) else wordsValue (words.take 8)

/-- The bytes of `SECREAD n` from its words, unpacked little-endian (R78, `20_memory.md` R55). -/
def secreadBytes (n : Nat) (words : List Word) : List Byte := (words.flatMap (fun w => wordBytes w 4)).take n

/-- The value of `RD`, right after it: the word read. -/
def State.rdResult (s : State) : Option Word := s.replies.head?

/-- The value of `KREAD`, right after its nine reads. -/
def State.kreadResult (s : State) : Int := kreadValue (s.lastReplies 9)

/-- The bytes `SECREAD n` gives, right after its reads. -/
def State.secreadResult (s : State) (n : Nat) : List Byte := secreadBytes n (s.lastReplies (secWords n))

/-- The result of `ISSUE`, right after it: "the value of that last read" of `STATUS` (R78). -/
def State.issueResult (s : State) : Option Word := s.rdResult

/-! ### Assembler text (R77) -/

/-- A register name: the file's letter and the index. -/
def regText (file : String) (r : Reg) : String := file ++ toString r.val

/-- A mnemonic and its operands, separated by commas. -/
def asmText (mnemonic : String) (operands : List String) : String :=
  match operands with
  | [] => mnemonic
  | _ :: _ => mnemonic ++ " " ++ String.intercalate ", " operands

/-- The text of a command: "its mnemonic followed by its operands in the order of the 'Operands' column of R73"
(R77). -/
def asm : Instr → String
  | .nop => asmText "NOP" []
  | .fnew d a b => asmText "FNEW" [regText "F" d, regText "K" a, regText "K" b]
  | .fadd d a b => asmText "FADD" [regText "F" d, regText "F" a, regText "F" b]
  | .fsub d a b => asmText "FSUB" [regText "F" d, regText "F" a, regText "F" b]
  | .fmul d a b => asmText "FMUL" [regText "F" d, regText "F" a, regText "F" b]
  | .fdiv d a b => asmText "FDIV" [regText "F" d, regText "F" a, regText "F" b]
  | .finv d a => asmText "FINV" [regText "F" d, regText "F" a]
  | .fpow d a b => asmText "FPOW" [regText "F" d, regText "F" a, regText "K" b]
  | .fsqrt d a => asmText "FSQRT" [regText "F" d, regText "F" a]
  | .feq a b => asmText "FEQ" [regText "F" a, regText "F" b]
  | .fget d a => asmText "FGET" [regText "K" d, regText "F" a]
  | .fgetp d a => asmText "FGETP" [regText "K" d, regText "F" a]
  | .pnew d a b c e => asmText "PNEW" [regText "Q" d, regText "F" a, regText "F" b, regText "F" c, regText "F" e]
  | .pinf d c e => asmText "PINF" [regText "Q" d, regText "F" c, regText "F" e]
  | .padd d a b => asmText "PADD" [regText "Q" d, regText "Q" a, regText "Q" b]
  | .pdbl d a => asmText "PDBL" [regText "Q" d, regText "Q" a]
  | .pmul d a b => asmText "PMUL" [regText "Q" d, regText "Q" a, regText "K" b]
  | .peq a b => asmText "PEQ" [regText "Q" a, regText "Q" b]
  | .pisinf a => asmText "PISINF" [regText "Q" a]
  | .pgetx d a => asmText "PGETX" [regText "F" d, regText "Q" a]
  | .pgety d a => asmText "PGETY" [regText "F" d, regText "Q" a]
  | .pgeta d a => asmText "PGETA" [regText "F" d, regText "Q" a]
  | .pgetb d a => asmText "PGETB" [regText "F" d, regText "Q" a]
  | .sldg d => asmText "SLDG" [regText "Q" d]
  | .sldn d => asmText "SLDN" [regText "K" d]
  | .sldp d => asmText "SLDP" [regText "K" d]
  | .snew d a b => asmText "SNEW" [regText "Q" d, regText "K" a, regText "K" b]
  | .smul d a b => asmText "SMUL" [regText "Q" d, regText "Q" a, regText "K" b]
  | .secenc a c => asmText "SECENC" [regText "Q" a, if c then "C" else "U"]
  | .secdec d => asmText "SECDEC" [regText "Q" d]
  | .sverify a b c e => asmText "SVERIFY" [regText "Q" a, regText "K" b, regText "K" c, regText "K" e]

end Sys2Proof.Machine
end

