-- ==== Sys2Proof/Safety.lean ====
section
/-!
DEFINITION. What counts as a valid value, a legal state and a good end of a run: the invariants of `10_state.md` R21,
R22, R35, R38, R39 and `42_point.md` R149, the end of a run of `40_system.md` R97, and the table of which command may
raise which fault (`60_exceptions.md` R221).
-/

namespace Sys2Proof.Machine

/-- The invariant of a field element: `0 ≤ num < prime` (`10_state.md` R21). -/
abbrev FE.Valid (u : FE) : Prop := u.num.toNat < u.prime.toNat

/-- The curve equation over the integers modulo `p`: `y² ≡ x³ + a·x + b (mod p)` (`10_state.md` R22). -/
abbrev OnCurve (x y a b p : Nat) : Prop := (y * y) % p = (x * x * x + a * x + b) % p

/-- The invariant of a point register: all fields below `prime`, and the curve equation if affine (`10_state.md` R22,
`42_point.md` R149). -/
abbrev Pt.Valid (P : Pt) : Prop :=
  P.a.toNat < P.prime.toNat ∧ P.b.toNat < P.prime.toNat ∧
    match P.coords with
    | .identity => True
    | .affine x y => x.toNat < P.prime.toNat ∧ y.toNat < P.prime.toNat ∧
        OnCurve x.toNat y.toNat P.a.toNat P.b.toNat P.prime.toNat

/-- Every valid `F` register holds a valid value (R21). -/
abbrev State.FieldsValid (s : State) : Prop := ∀ i : Reg, ∀ u, s.f[i] = some u → u.Valid

/-- Every valid `Q` register holds a valid value (R22, R149). -/
abbrev State.PointsValid (s : State) : Prop := ∀ i : Reg, ∀ p, s.q[i] = some p → p.Valid

/-- The relations between the status bits (`10_state.md` R35, R39): `BUSY` and `DONE` are never both 1; `ERRF`
implies `BUSY = 0` and a non-zero code; without `ERRF` the code and the recorded word are 0. -/
abbrev State.StatusLegal (s : State) : Prop :=
  ¬(s.busy = true ∧ s.done = true) ∧ (s.errf = true → s.busy = false ∧ s.errcode ≠ 0x00#8) ∧
    (s.errf = false → s.errcode = 0x00#8 ∧ s.errcmd = 0x00000000#32)

/-- The values `SECLEN` can have (`10_state.md` R20, R38). -/
abbrev State.SeclenLegal (s : State) : Prop := s.seclen = 0#7 ∨ s.seclen = 33#7 ∨ s.seclen = 65#7

/-- While the reset input is asserted the architectural state is the reset state (`70_reset_and_hazards.md` R251). -/
abbrev State.ResetHeld (s : State) : Prop := s.rst = true → s = s.assertReset

/-- The invariant of the machine: it holds at reset and every step keeps it. -/
abbrev State.Inv (s : State) : Prop :=
  s.FieldsValid ∧ s.PointsValid ∧ s.StatusLegal ∧ s.SeclenLegal ∧ s.secbuf.wf ∧ s.ResetHeld

/-- A run is over when the host has performed its last access and `BUSY = 0` (`40_system.md` R97). -/
abbrev State.Final (s : State) : Prop := s.inbox = [] ∧ s.busy = false

/-- A final state with a recorded fault counts as "gone wrong" (R97). -/
abbrev State.GoneWrong (s : State) : Prop := s.errf = true

/-- A good end: the run is over, no fault is recorded and no host write was dropped (R97, `60_exceptions.md` R232). -/
abbrev State.GoodEnd (s : State) : Prop := s.Final ∧ ¬s.GoneWrong ∧ s.ovr = false

/-- Which command may raise which fault (`60_exceptions.md` R221; `IllegalCommand` is raised by no legal command). -/
def mayRaise : Instr → List CmdFault
  | .nop => []
  | .fnew .. => [.rangeError]
  | .fadd .. => [.uninit, .incompatibleField]
  | .fsub .. => [.uninit, .incompatibleField]
  | .fmul .. => [.uninit, .incompatibleField]
  | .fdiv .. => [.uninit, .incompatibleField, .badModulus]
  | .finv .. => [.uninit, .badModulus]
  | .fpow .. => [.uninit, .badModulus]
  | .fsqrt .. => [.uninit, .unsupportedOperation]
  | .feq .. => [.uninit]
  | .fget .. => [.uninit]
  | .fgetp .. => [.uninit]
  | .pnew .. => [.uninit, .incompatibleField, .invalidPoint]
  | .pinf .. => [.uninit, .incompatibleField]
  | .padd .. => [.uninit, .incompatibleCurve, .invalidPoint]
  | .pdbl .. => [.uninit, .invalidPoint]
  | .pmul .. => [.uninit, .invalidArgument, .invalidPoint]
  | .peq .. => [.uninit]
  | .pisinf .. => [.uninit]
  | .pgetx .. => [.uninit, .identityCoordinate]
  | .pgety .. => [.uninit, .identityCoordinate]
  | .pgeta .. => [.uninit]
  | .pgetb .. => [.uninit]
  | .sldg .. => []
  | .sldn .. => []
  | .sldp .. => []
  | .snew .. => [.rangeError, .invalidPoint]
  | .smul .. => [.uninit, .incompatibleCurve]
  | .secenc .. => [.uninit, .incompatibleCurve, .identityCoordinate]
  | .secdec .. => [.secFormat, .rangeError, .invalidPoint]
  | .sverify .. => [.uninit, .incompatibleCurve, .identityCoordinate]

/-! ### Who reads and writes which file (`10_state.md` R24, R31) -/

/-- The `F` register a command writes (R24, row `F`). -/
def writesF : Instr → Option Reg
  | .fnew rd _ _ | .fadd rd _ _ | .fsub rd _ _ | .fmul rd _ _ | .fdiv rd _ _ | .finv rd _ | .fpow rd _ _
  | .fsqrt rd _ | .pgetx rd _ | .pgety rd _ | .pgeta rd _ | .pgetb rd _ => some rd
  | .nop | .feq .. | .fget .. | .fgetp .. | .pnew .. | .pinf .. | .padd .. | .pdbl .. | .pmul .. | .peq ..
  | .pisinf .. | .sldg .. | .sldn .. | .sldp .. | .snew .. | .smul .. | .secenc .. | .secdec .. | .sverify .. => none

/-- The `Q` register a command writes (R24, row `Q`). -/
def writesQ : Instr → Option Reg
  | .pnew rd _ _ _ _ | .pinf rd _ _ | .padd rd _ _ | .pdbl rd _ | .pmul rd _ _ | .sldg rd | .snew rd _ _
  | .smul rd _ _ | .secdec rd => some rd
  | .nop | .fnew .. | .fadd .. | .fsub .. | .fmul .. | .fdiv .. | .finv .. | .fpow .. | .fsqrt .. | .feq .. | .fget ..
  | .fgetp .. | .peq .. | .pisinf .. | .pgetx .. | .pgety .. | .pgeta .. | .pgetb .. | .sldn .. | .sldp .. | .secenc ..
  | .sverify .. => none

/-- The `K` register a command writes (R24, row `K`). -/
def writesK : Instr → Option Reg
  | .fget rd _ | .fgetp rd _ | .sldn rd | .sldp rd => some rd
  | .nop | .fnew .. | .fadd .. | .fsub .. | .fmul .. | .fdiv .. | .finv .. | .fpow .. | .fsqrt .. | .feq .. | .pnew ..
  | .pinf .. | .padd .. | .pdbl .. | .pmul .. | .peq .. | .pisinf .. | .pgetx .. | .pgety .. | .pgeta .. | .pgetb ..
  | .sldg .. | .snew .. | .smul .. | .secenc .. | .secdec .. | .sverify .. => none

/-- The four test commands, which write `T` (R31). -/
def writesT : Instr → Bool
  | .feq .. | .peq .. | .pisinf .. | .sverify .. => true
  | .nop | .fnew .. | .fadd .. | .fsub .. | .fmul .. | .fdiv .. | .finv .. | .fpow .. | .fsqrt .. | .fget ..
  | .fgetp .. | .pnew .. | .pinf .. | .padd .. | .pdbl .. | .pmul .. | .pgetx .. | .pgety .. | .pgeta .. | .pgetb ..
  | .sldg .. | .sldn .. | .sldp .. | .snew .. | .smul .. | .secenc .. | .secdec .. => false

/-- How many bytes of SECBUF, from byte 0 on, a command writes: only SECENC writes any (`10_state.md` R38, R40). -/
def writesSec : Instr → Nat
  | .secenc _ c => if c then 33 else 65
  | .nop | .fnew .. | .fadd .. | .fsub .. | .fmul .. | .fdiv .. | .finv .. | .fpow .. | .fsqrt .. | .feq .. | .fget ..
  | .fgetp .. | .pnew .. | .pinf .. | .padd .. | .pdbl .. | .pmul .. | .peq .. | .pisinf .. | .pgetx .. | .pgety ..
  | .pgeta .. | .pgetb .. | .sldg .. | .sldn .. | .sldp .. | .snew .. | .smul .. | .secdec .. | .sverify .. => 0

/-- The `F` source registers of a command, in the order of the check (`40_system.md` R93). -/
def sourcesF : Instr → List Reg
  | .fadd _ ra rb | .fsub _ ra rb | .fmul _ ra rb | .fdiv _ ra rb | .feq ra rb => [ra, rb]
  | .finv _ ra | .fpow _ ra _ | .fsqrt _ ra | .fget _ ra | .fgetp _ ra => [ra]
  | .pnew _ ra rb rc re => [ra, rb, rc, re]
  | .pinf _ rc re => [rc, re]
  | .nop | .fnew .. | .padd .. | .pdbl .. | .pmul .. | .peq .. | .pisinf .. | .pgetx .. | .pgety .. | .pgeta ..
  | .pgetb .. | .sldg .. | .sldn .. | .sldp .. | .snew .. | .smul .. | .secenc .. | .secdec .. | .sverify .. => []

/-- The `Q` source registers of a command (R93). -/
def sourcesQ : Instr → List Reg
  | .padd _ ra rb | .peq ra rb => [ra, rb]
  | .pdbl _ ra | .pmul _ ra _ | .pisinf ra | .pgetx _ ra | .pgety _ ra | .pgeta _ ra | .pgetb _ ra | .smul _ ra _
  | .secenc ra _ | .sverify ra _ _ _ => [ra]
  | .nop | .fnew .. | .fadd .. | .fsub .. | .fmul .. | .fdiv .. | .finv .. | .fpow .. | .fsqrt .. | .feq .. | .fget ..
  | .fgetp .. | .pnew .. | .pinf .. | .sldg .. | .sldn .. | .sldp .. | .snew .. | .secdec .. => []

/-- No action of the host comes before the pending command: it has none, or its next one waits for the completion
(`40_system.md` R90, R92; log entry 2). -/
abbrev State.HostWaits (s : State) : Prop := ∀ ev ∈ s.inbox.head?, ev.arrival = .afterCompletion

/-- How many turns the host can take at most while the pending command waits: one for each action, and for its loop on
`STATUS` the reads that may come before the completion (log entries 2, 18). -/
def hostWork (inbox : List HostEvent) : Nat :=
  (inbox.map (fun ev => match ev.access with
    | .poll n => n + 1
    | .read _ => 1
    | .write _ _ => 1
    | .rstAssert => 1
    | .rstRelease => 1)).sum

/-! ### The end of a command, as the rules write it -/

/-- The record of a fault with this code (`60_exceptions.md` R222). -/
def State.faulted (s : State) (code : BitVec 8) : State :=
  { s with errf := true, errcode := code, errcmd := s.pend, busy := false, done := true }

/-- Completion with a field result: `F[rd] <- [num, prime]` (`40_system.md` R91, R94). -/
def State.endF (s : State) (rd : Reg) (num : Int) (prime : U256) : State :=
  { s with f := s.f.set rd (some ⟨BitVec.ofInt 256 num, prime⟩), busy := false, done := true }

/-- Completion with a point result (R91, R94). -/
def State.endQ (s : State) (rd : Reg) (p : Pt) : State :=
  { s with q := s.q.set rd (some p), busy := false, done := true }

/-- Completion with an integer result, `neg = 0` (R91, R94; `10_state.md` R23). -/
def State.endK (s : State) (rd : Reg) (mag : U256) : State :=
  { s with k := s.k.set rd ⟨false, mag⟩, busy := false, done := true }

/-- Completion of a test command (R91; `10_state.md` R31). -/
def State.endT (s : State) (b : Bool) : State := { s with t := b, busy := false, done := true }

/-- The end of a command that computes a point or raises the fault with a code. -/
def State.endPoint (s : State) (rd : Reg) (r : Except (BitVec 8) Pt) : State :=
  match r with
  | .ok p => s.endQ rd p
  | .error c => s.faulted c

/-! ### The group law in integers (`42_point.md` R132, R135) -/

/-- The point of slope `m` from `(x1, y1)` and a second `x2`: `x3 = m² − x1 − x2`, `y3 = m·(x1 − x3) − y1`, through the
validating constructor (`InvalidPoint`, code `0x04`). -/
def thirdPoint (P : Pt) (x1 y1 x2 m : Int) : Except (BitVec 8) Pt :=
  let p : Int := P.prime.toNat
  let x3 := (m * m - x1 - x2) % p
  let y3 := (m * (x1 - x3) - y1) % p
  if (y3 * y3) % p = (x3 * x3 * x3 + P.a.toNat * x3 + P.b.toNat) % p then
    .ok ⟨.affine (BitVec.ofInt 256 x3) (BitVec.ofInt 256 y3), P.a, P.b, P.prime⟩
  else .error 0x04#8

/-- The quotient `u / v` of the document: `u · v^(p−2) mod p` (`41_field.md` R107, R108). -/
def fermatQuotient (u v : Int) (p : Nat) : Int := (u * v ^ (p - 2)) % p

/-- The group law in integers, in the case order of R132. -/
def groupLaw (P R : Pt) : Except (BitVec 8) Pt :=
  if ¬(P.a = R.a ∧ P.b = R.b ∧ P.prime = R.prime) then .error 0x03#8
  else
    match P.coords, R.coords with
    | .identity, _ => .ok R
    | .affine _ _, .identity => .ok P
    | .affine X1 Y1, .affine X2 Y2 =>
      let p := P.prime.toNat
      let x1 : Int := X1.toNat
      let y1 : Int := Y1.toNat
      let x2 : Int := X2.toNat
      let y2 : Int := Y2.toNat
      if x1 = x2 ∧ y1 ≠ y2 then .ok ⟨.identity, P.a, P.b, P.prime⟩
      else if x1 ≠ x2 then thirdPoint P x1 y1 x2 (fermatQuotient (y2 - y1) (x2 - x1) p)
      else if y1 = 0 then .ok ⟨.identity, P.a, P.b, P.prime⟩
      else thirdPoint P x1 y1 x1 (fermatQuotient (3 * (x1 * x1) + P.a.toNat) (2 * y1) p)

/-- One pass of double-and-add: `(result, current)` after a bit of the scalar (R135). -/
def doubleAndAddBit (rc : Pt × Pt) (bit : Bool) : Except (BitVec 8) (Pt × Pt) := do
  let r ← if bit then groupLaw rc.1 rc.2 else .ok rc.1
  let c ← groupLaw rc.2 rc.2
  return (r, c)

/-- Scalar multiplication over the bits of the scalar, least significant first (R135): code `0x08` for a negative
scalar, the point itself for 1. -/
def scalarMultiple (P : Pt) (k : Int) : Except (BitVec 8) Pt :=
  if k < 0 then .error 0x08#8
  else if k = 1 then .ok P
  else do
    let rc ← k.toNat.bits.foldlM doubleAndAddBit (⟨.identity, P.a, P.b, P.prime⟩, P)
    return rc.1

/-! ### The curve as Mathlib has it -/

/-- The curve `y² = x³ + a·x + b` over the integers modulo `p`. -/
abbrev curve (p a b : U256) : WeierstrassCurve.Affine (ZMod p.toNat) := ⟨0, 0, 0, (a.toNat : ZMod p.toNat), b.toNat⟩

/-- These coordinates are this point of the curve's group: the identity is the neutral element, and affine coordinates
are the residues of the point's. -/
abbrev Represents (p a b : U256) (c : Coords) (X : (curve p a b).Point) : Prop :=
  (c = .identity ∧ X = .zero) ∨
    ∃ x y h, c = .affine x y ∧ X = .some (x.toNat : ZMod p.toNat) (y.toNat : ZMod p.toNat) h

/-! ### SEC data (`00_scope.md` R9, `43_secp256k1.md` R164, R165) -/

/-- Byte `j` of `BE32(v)`: `v[255 − 8j : 248 − 8j]` (R9). -/
def be32Byte (v : U256) (j : Nat) : Byte := v.extractLsb' (248 - 8 * j) 8

/-- Byte `j` of the SEC encoding of an affine point (R164). -/
def secByte (x y : U256) (compressed : Bool) (j : Nat) : Byte :=
  if j = 0 then (if compressed then (if y.toNat % 2 = 0 then 0x02#8 else 0x03#8) else 0x04#8)
  else if j ≤ 32 then be32Byte x (j - 1)
  else be32Byte y (j - 33)

/-- The unsigned integer in bytes `start` to `start + n − 1` of SECBUF, most significant first (R9). -/
def secInteger (m : Memory) (start : Nat) : Nat → Nat
  | 0 => 0
  | n + 1 => secInteger m start n * 256 + (m.read (start + n)).toNat

/-! ### The port, by byte offset (`20_memory.md` R50) -/

/-- The word location of a byte offset that is a multiple of 4 below `0x1000`. -/
def atOffset (off : Nat) : PortAddr := Fin.ofNat 1024 (off / 4)

/-- The offset of `KnW[i]` (`20_memory.md` R51). -/
def offsetKW (n : Reg) (i : Fin 8) : Nat := 0x100 + 0x40 * n.val + 4 * i.val

/-- The offset of `KnS` (R51). -/
def offsetKS (n : Reg) : Nat := 0x100 + 0x40 * n.val + 0x20

/-- The offset of `SECW[j]` (R51). -/
def offsetSECW (j : Fin 17) : Nat := 0x400 + 4 * j.val

/-- Is the offset one that R51 names? -/
def namedOffset (off : Nat) : Bool :=
  off ≤ 0x018 || (0x100 ≤ off && off < 0x300 && (off - 0x100) % 0x40 ≤ 0x20) || (0x400 ≤ off && off ≤ 0x440)

/-- Is the offset in the `K` window or the SECBUF window, whose reads are open while `BUSY = 1` (`20_memory.md` R64)? -/
def operandOffset (off : Nat) : Bool := 0x100 ≤ off && namedOffset off

/-! ### The opcode map, as R73 prints it -/

/-- One row of R73: `match`, `mask`, and the command with the operands R79 reads from the word. -/
structure TableRow where
  pattern : Word
  mask : Word
  command : Word → Instr

/-- A register field of a word: its three low bits, from bit `lo` on (R79). -/
def wordReg (w : Word) (lo : Nat) : Reg := Fin.ofNat 8 (w.toNat / 2 ^ lo)

/-- The 31 rows of R73, with `rd = w[22:20]`, `ra = w[18:16]`, `rb = w[14:12]`, `rc = w[10:8]`, `re = w[6:4]`, `C = w[0]`. -/
def commandTable : List TableRow :=
  let d (w : Word) := wordReg w 20
  let a (w : Word) := wordReg w 16
  let b (w : Word) := wordReg w 12
  let c (w : Word) := wordReg w 8
  let e (w : Word) := wordReg w 4
  [ ⟨0x00000000#32, 0xFFFFFFFF#32, fun _ => .nop⟩,
    ⟨0x10000000#32, 0xFF888FFF#32, fun w => .fnew (d w) (a w) (b w)⟩,
    ⟨0x11000000#32, 0xFF888FFF#32, fun w => .fadd (d w) (a w) (b w)⟩,
    ⟨0x12000000#32, 0xFF888FFF#32, fun w => .fsub (d w) (a w) (b w)⟩,
    ⟨0x13000000#32, 0xFF888FFF#32, fun w => .fmul (d w) (a w) (b w)⟩,
    ⟨0x14000000#32, 0xFF888FFF#32, fun w => .fdiv (d w) (a w) (b w)⟩,
    ⟨0x15000000#32, 0xFF88FFFF#32, fun w => .finv (d w) (a w)⟩,
    ⟨0x16000000#32, 0xFF888FFF#32, fun w => .fpow (d w) (a w) (b w)⟩,
    ⟨0x17000000#32, 0xFF88FFFF#32, fun w => .fsqrt (d w) (a w)⟩,
    ⟨0x18000000#32, 0xFFF88FFF#32, fun w => .feq (a w) (b w)⟩,
    ⟨0x19000000#32, 0xFF88FFFF#32, fun w => .fget (d w) (a w)⟩,
    ⟨0x1A000000#32, 0xFF88FFFF#32, fun w => .fgetp (d w) (a w)⟩ ] ++
  [ ⟨0x20000000#32, 0xFF88888F#32, fun w => .pnew (d w) (a w) (b w) (c w) (e w)⟩,
    ⟨0x21000000#32, 0xFF8FF88F#32, fun w => .pinf (d w) (c w) (e w)⟩,
    ⟨0x22000000#32, 0xFF888FFF#32, fun w => .padd (d w) (a w) (b w)⟩,
    ⟨0x23000000#32, 0xFF88FFFF#32, fun w => .pdbl (d w) (a w)⟩,
    ⟨0x24000000#32, 0xFF888FFF#32, fun w => .pmul (d w) (a w) (b w)⟩,
    ⟨0x25000000#32, 0xFFF88FFF#32, fun w => .peq (a w) (b w)⟩,
    ⟨0x26000000#32, 0xFFF8FFFF#32, fun w => .pisinf (a w)⟩,
    ⟨0x27000000#32, 0xFF88FFFF#32, fun w => .pgetx (d w) (a w)⟩,
    ⟨0x28000000#32, 0xFF88FFFF#32, fun w => .pgety (d w) (a w)⟩,
    ⟨0x29000000#32, 0xFF88FFFF#32, fun w => .pgeta (d w) (a w)⟩,
    ⟨0x2A000000#32, 0xFF88FFFF#32, fun w => .pgetb (d w) (a w)⟩ ] ++
  [ ⟨0x30000000#32, 0xFF8FFFFF#32, fun w => .sldg (d w)⟩,
    ⟨0x31000000#32, 0xFF8FFFFF#32, fun w => .sldn (d w)⟩,
    ⟨0x32000000#32, 0xFF8FFFFF#32, fun w => .sldp (d w)⟩,
    ⟨0x33000000#32, 0xFF888FFF#32, fun w => .snew (d w) (a w) (b w)⟩,
    ⟨0x34000000#32, 0xFF888FFF#32, fun w => .smul (d w) (a w) (b w)⟩,
    ⟨0x35000000#32, 0xFFF8FFFE#32, fun w => .secenc (a w) (w.getLsbD 0)⟩,
    ⟨0x36000000#32, 0xFF8FFFFF#32, fun w => .secdec (d w)⟩,
    ⟨0x37000000#32, 0xFFF8888F#32, fun w => .sverify (a w) (b w) (c w) (e w)⟩ ]

/-- The word is this row's command: `w and mask = match` (R72). -/
abbrev TableRow.Matches (r : TableRow) (w : Word) : Prop := w &&& r.mask = r.pattern

end Sys2Proof.Machine
end

