-- ==== Sys2Proof/Certificates/Slice0/Obligations.lean ====
section
/-!
DEFINITION. The statements for the provers, each from the rules of spec/ that its docstring names. `faulted`, `endF`,
`endQ`, `endK`, `endT`, `groupLaw`, `scalarMultiple`, `commandTable` and the tables of who reads and writes what are in
`Safety.lean`. An equation `exec i s = .next (s.end…)` is the result, the completion and the whole frame at once: every
field of the state that the right side does not name is as before.
-/

open Sys2Proof Sys2Proof.Machine

/-! ### Encoding (30_encoding.md) -/

/-- The words the manual writes out decode to the commands it writes beside them (R77, and the examples of R111, R120,
R138, R144, R167, R168, R170). -/
def Obligations.ManualExampleWordsDecode : Prop :=
  decode 0x11201000#32 = .command (.fadd 2 0 1) ∧ decode 0x20023010#32 = .command (.pnew 0 2 3 0 1) ∧
  decode 0x35010001#32 = .command (.secenc 1 true) ∧ decode 0x37002340#32 = .command (.sverify 0 2 3 4) ∧
  decode 0x10001000#32 = .command (.fnew 0 0 1) ∧ decode 0x19330000#32 = .command (.fget 3 3) ∧
  decode 0x21100010#32 = .command (.pinf 1 0 1) ∧ decode 0x27420000#32 = .command (.pgetx 4 2) ∧
  decode 0x30000000#32 = .command (.sldg 0) ∧ decode 0x31700000#32 = .command (.sldn 7) ∧
  decode 0x33001000#32 = .command (.snew 0 0 1) ∧ decode 0x00000000#32 = .command .nop

/-- Decoding a command's word gives the command back, for every command and every operand (R77, R79). -/
def Obligations.DecodeInvertsEncode : Prop := ∀ i : Instr, decode (encode i) = .command i

/-- A word that decodes is the word of its command: one word per command, no bit ignored (R71, R79). -/
def Obligations.EncodeInvertsDecode : Prop := ∀ (w : Word) (i : Instr), decode w = .command i → encode i = w

/-- R79 over the table R73 prints: a word that matches a row is that row's command with the operands at the bits R79
names, at most one row matches, and a word that matches none is illegal. -/
def Obligations.DecodeFollowsPrintedTable : Prop :=
  (∀ w : Word, ∀ r ∈ commandTable, r.Matches w → decode w = .command (r.command w)) ∧
  (∀ w : Word, ∀ r ∈ commandTable, ∀ r' ∈ commandTable, r.Matches w → r'.Matches w → r.pattern = r'.pattern) ∧
  (∀ w : Word, (∀ r ∈ commandTable, ¬r.Matches w) → decode w = .illegal)

/-- R75: a word of no row, offered while the core can accept a command, is accepted, and the core's step on it records
`IllegalCommand` (`0x10`) with the word and changes nothing else. -/
def Obligations.IllegalWordIsAcceptedAndFaults : Prop :=
  ∀ (s : State) (w : Word), (∀ r ∈ commandTable, ¬r.Matches w) → s.busy = false → s.errf = false → s.HostWaits →
    s.hostWrite (atOffset 0x004) w = { s with pend := w, busy := true, done := false } ∧
    step (s.hostWrite (atOffset 0x004) w) =
      .next { s with pend := w, errf := true, errcode := 0x10#8, errcmd := w, busy := false, done := true }

/-! ### The step and the life of a command (40_system.md) -/

/-- R91: when a command is pending and it is the core's turn, the step is the execution of the decoded command. The host
acts before it only with an action tagged so (log entry 2). -/
def Obligations.StepExecutesPendingCommand : Prop :=
  ∀ (s : State) (i : Instr), s.busy = true → s.HostWaits → decode s.pend = .command i → step s = exec i s

/-- R90, R52, R53, R60, R233: a host action takes effect whole, one at a time, in the host's order: a write is
HostWrite, a read is HostRead with its word returned, a pass of the loop on `STATUS` (R78) is a read that is repeated
while it finds `BUSY = 1`; with no action and no command the machine keeps its state. The tags, the pending list, the
list of replies and the loop as an action are the model's (log entries 2, 3, 18). -/
def Obligations.StepTakesHostActionsInOrder : Prop :=
  (∀ (s : State) (ev : HostEvent) (rest : List HostEvent), s.inbox = ev :: rest →
    (s.busy = false ∨ ev.arrival = .whileBusy) → step s = .next (({ s with inbox := rest }).hostAct ev.access)) ∧
  (∀ (s : State) (a : PortAddr) (v : Word), s.rst = false → s.hostAct (.write a v) = s.hostWrite a v ∧
    s.hostAct (.read a) = { (s.hostRead a).2 with replies := (s.hostRead a).1 :: s.replies }) ∧
  (∀ (s : State) (n : Nat), s.rst = false → s.hostAct (.poll n) =
    { s with
      replies := (s.hostRead (atOffset 0x008)).1 :: s.replies
      inbox := if s.busy then pollEvent n :: s.inbox else s.inbox }) ∧
  (∀ s : State, s.inbox = [] → s.busy = false → step s = .next s)

/-- R90: a write to `CMD` is dropped with `OVR <- 1` while `BUSY` or `ERRF`; otherwise the word, whatever it is, is
accepted. -/
def Obligations.CommandWriteIsAcceptedOrDropped : Prop :=
  ∀ (s : State) (w : Word), s.hostWrite (atOffset 0x004) w =
    if s.busy = true ∨ s.errf = true then { s with ovr := true }
    else { s with pend := w, busy := true, done := false }

/-- R91: every command ends in one step with `BUSY = 0` and `DONE = 1`; it leaves `OVR`, `IE`, `PEND` and the host's
side alone; it either records a fault and changes nothing else, or leaves the fault record as it was. -/
def Obligations.EveryCommandEndsInOneStep : Prop :=
  ∀ (i : Instr) (s : State), ∃ t, exec i s = .next t ∧ t.busy = false ∧ t.done = true ∧ t.ovr = s.ovr ∧ t.ie = s.ie ∧
    t.pend = s.pend ∧ t.rst = s.rst ∧ t.inbox = s.inbox ∧ t.replies = s.replies ∧ t.draws = s.draws ∧
    ((∃ e : CmdFault, t = s.faulted e.code) ∨ (t.errf = s.errf ∧ t.errcode = s.errcode ∧ t.errcmd = s.errcmd))

/-- R222: a fault is entered with `ERRF`, the code of R220, the faulting word, `BUSY <- 0` and `DONE <- 1`, and nothing
else changes; so `irq` rises if `IE = 1`. -/
def Obligations.FaultLeavesOnlyItsRecord : Prop :=
  ∀ s t : State, s.busy = true → s.HostWaits → s.errf = false → step s = .next t → t.errf = true →
    (∃ code ∈ [0x01#8, 0x02#8, 0x03#8, 0x04#8, 0x05#8, 0x06#8, 0x07#8, 0x08#8, 0x10#8, 0x11#8, 0x12#8, 0x13#8, 0x14#8],
      t = { s with errf := true, errcode := code, errcmd := s.pend, busy := false, done := true }) ∧
    t.irq = s.ie

/-- R221, first sentence and the columns 'Fault' and 'Raised by': with valid registers a command records only the faults
of its rows. -/
def Obligations.FaultsStayInTheCommandsRows : Prop :=
  ∀ (i : Instr) (s t : State), s.FieldsValid → s.PointsValid → s.errf = false → exec i s = .next t → t.errf = true →
    ∃ e ∈ mayRaise i, t.errcode = e.code

/-- R31: only the four test commands write `T`; a faulting command, a host access and the acknowledgement leave it. -/
def Obligations.OnlyTestCommandsWriteT : Prop :=
  (∀ (i : Instr) (s t : State), writesT i = false → exec i s = .next t → t.t = s.t) ∧
  (∀ (i : Instr) (s t : State), s.errf = false → exec i s = .next t → t.errf = true → t.t = s.t) ∧
  (∀ (s : State) (a : PortAddr) (v : Word), (s.hostWrite a v).t = s.t ∧ (s.hostRead a).2.t = s.t) ∧
  State.reset.t = false

/-- R31: "No command takes `T` as an input": changing `T` before a command changes nothing after it but, where the
command writes no `T`, the kept `T`; a test command that completes writes the same `T`. -/
def Obligations.NoCommandReadsT : Prop :=
  ∀ (i : Instr) (s t : State) (b : Bool), exec i s = .next t →
    ∃ t', exec i { s with t := b } = .next t' ∧ { t' with t := t.t } = t ∧
      (writesT i = true → s.errf = false → t.errf = false → t' = t) ∧ (writesT i = false → t'.t = b) ∧
      (s.errf = false → t.errf = true → t'.t = b)

/-- R24, R31, R38, R40, R94: the frame of every command. It writes at most the register of its row, `T` if it is a test
command, and the SECBUF bytes and `SECLEN` if it is SECENC; every other register, flag and byte is as before; a `K`
register it writes has `neg = 0`. -/
def Obligations.FrameOfEveryCommand : Prop :=
  ∀ (i : Instr) (s t : State), s.secbuf.wf → exec i s = .next t →
    (∀ r : Reg, writesF i ≠ some r → t.f[r] = s.f[r]) ∧
    (∀ r : Reg, writesQ i ≠ some r → t.q[r] = s.q[r]) ∧
    (∀ r : Reg, writesK i ≠ some r → t.k[r] = s.k[r]) ∧
    (∀ r : Reg, t.k[r] ≠ s.k[r] → t.k[r].neg = false) ∧
    (writesT i = false → t.t = s.t) ∧
    (∀ j : Nat, writesSec i ≤ j → t.secbuf.read j = s.secbuf.read j) ∧
    (writesSec i = 0 → t.secbuf = s.secbuf ∧ t.seclen = s.seclen)

/-- R24: "No command clears a valid bit; only reset does". -/
def Obligations.ValidBitsClearedOnlyByReset : Prop :=
  ∀ (s t : State) (r : Reg), step s = .next t →
    (∀ ev ∈ s.inbox.head?, ev.access ≠ .rstAssert) →
    (s.f[r].isSome = true → t.f[r].isSome = true) ∧ (s.q[r].isSome = true → t.q[r].isSome = true)

/-- R93: a command with an invalid `F` or `Q` source records `Uninit` (`0x11`), whatever else is wrong with it. -/
def Obligations.InvalidSourceRaisesUninit : Prop :=
  ∀ (i : Instr) (s : State), ((∃ r ∈ sourcesF i, s.f[r] = none) ∨ (∃ r ∈ sourcesQ i, s.q[r] = none)) →
    exec i s = .next (s.faulted 0x11#8)

/-- R92, R91: progress. While `BUSY = 1`, after at most as many turns as the host can take before it, the next step
executes the accepted word on the registers it was accepted with, or is the assertion of the reset input. That the
host's turns are finite is the model's (log entries 2, 18). -/
def Obligations.PendingCommandIsExecuted : Prop :=
  ∀ s : State, s.busy = true → ∃ n, n ≤ hostWork s.inbox ∧ ∃ t, Host.Core.run Sys2Proof.core n s = .next t ∧
    t.busy = true ∧ t.pend = s.pend ∧ t.f = s.f ∧ t.q = s.q ∧ t.k = s.k ∧ t.secbuf = s.secbuf ∧
    ((t.HostWaits ∧ (∀ i, decode s.pend = .command i → step t = exec i t) ∧
        (decode s.pend = .illegal → step t = .next (t.faulted 0x10#8))) ∨
      (∃ ev rest, t.inbox = ev :: rest ∧ ev.access = .rstAssert ∧
        step t = .next (({ t with inbox := rest }).hostAct .rstAssert)))

/-- R95: NOP completes and does nothing else. -/
def Obligations.NopOnlyCompletes : Prop :=
  ∀ s : State, exec .nop s = .next { s with busy := false, done := true }

/-! ### Field commands (41_field.md) -/

/-- R100, R111: FNEW constructs `[n, p]` when `0 ≤ n < p`, and records `RangeError` otherwise. -/
def Obligations.FnewConstructsOrRangeError : Prop :=
  ∀ (s : State) (rd ra rb : Reg),
    (0 ≤ s.k[ra].toInt → s.k[ra].toInt < s.k[rb].toInt →
      exec (.fnew rd ra rb) s = .next (s.endF rd s.k[ra].toInt (BitVec.ofInt 256 s.k[rb].toInt))) ∧
    ((s.k[ra].toInt < 0 ∨ s.k[rb].toInt ≤ s.k[ra].toInt) → exec (.fnew rd ra rb) s = .next (s.faulted 0x01#8))

/-- R102, R103, R104: sum, difference and product modulo the common prime; `IncompatibleField` (`0x02`) when the primes
differ. -/
def Obligations.FieldSumDifferenceProduct : Prop :=
  ∀ (s : State) (rd ra rb : Reg) (u v : FE), s.f[ra] = some u → s.f[rb] = some v → u.Valid → v.Valid →
    (u.prime = v.prime →
      exec (.fadd rd ra rb) s = .next (s.endF rd (((u.num.toNat : Int) + v.num.toNat) % u.prime.toNat) u.prime) ∧
      exec (.fsub rd ra rb) s = .next (s.endF rd (((u.num.toNat : Int) - v.num.toNat) % u.prime.toNat) u.prime) ∧
      exec (.fmul rd ra rb) s = .next (s.endF rd (((u.num.toNat : Int) * v.num.toNat) % u.prime.toNat) u.prime)) ∧
    (u.prime ≠ v.prime → exec (.fadd rd ra rb) s = .next (s.faulted 0x02#8) ∧
      exec (.fsub rd ra rb) s = .next (s.faulted 0x02#8) ∧ exec (.fmul rd ra rb) s = .next (s.faulted 0x02#8))

/-- R108, R115: division multiplies by the Fermat power; the compatibility check comes before `BadModulus`; dividing by
zero answers zero for `prime ≥ 3`, and the dividend for `prime = 2`. -/
def Obligations.FdivMultipliesByFermatPower : Prop :=
  ∀ (s : State) (rd ra rb : Reg) (u v : FE), s.f[ra] = some u → s.f[rb] = some v → u.Valid → v.Valid →
    (u.prime = v.prime → u.prime ≠ 1#256 → exec (.fdiv rd ra rb) s = .next (s.endF rd
      (((u.num.toNat : Int) * ((v.num.toNat : Int) ^ (u.prime.toNat - 2) % u.prime.toNat)) % u.prime.toNat) u.prime)) ∧
    (u.prime = v.prime → u.prime = 1#256 → exec (.fdiv rd ra rb) s = .next (s.faulted 0x14#8)) ∧
    (u.prime ≠ v.prime → exec (.fdiv rd ra rb) s = .next (s.faulted 0x02#8)) ∧
    (u.prime = v.prime → v.num = 0#256 → 3 ≤ u.prime.toNat → exec (.fdiv rd ra rb) s = .next (s.endF rd 0 u.prime)) ∧
    (u.prime = v.prime → v.num = 0#256 → u.prime.toNat = 2 →
      exec (.fdiv rd ra rb) s = .next (s.endF rd u.num.toNat u.prime))

/-- R107, R116: the Fermat inverse: its formula, `BadModulus` (`0x14`) over `prime = 1`, its value at zero (derived there
from the formula), and that it is an inverse over a prime (from general knowledge there). -/
def Obligations.FinvIsFermatInverse : Prop :=
  ∀ (s : State) (rd ra : Reg) (u : FE), s.f[ra] = some u → u.Valid →
    (u.prime = 1#256 → exec (.finv rd ra) s = .next (s.faulted 0x14#8)) ∧
    (u.prime ≠ 1#256 → exec (.finv rd ra) s = .next
      (s.endF rd ((u.num.toNat : Int) ^ (u.prime.toNat - 2) % u.prime.toNat) u.prime)) ∧
    (u.num = 0#256 → 3 ≤ u.prime.toNat → exec (.finv rd ra) s = .next (s.endF rd 0 u.prime)) ∧
    (u.num = 0#256 → u.prime.toNat = 2 → exec (.finv rd ra) s = .next (s.endF rd 1 u.prime)) ∧
    (u.prime.toNat.Prime → u.num ≠ 0#256 → ∃ w : Nat, exec (.finv rd ra) s = .next (s.endF rd w u.prime) ∧
      w < u.prime.toNat ∧ u.num.toNat * w % u.prime.toNat = 1)

/-- R106, R117: the exponent is normalised modulo `prime − 1`, for every base and every sign; `BadModulus` over
`prime = 1`. -/
def Obligations.FpowNormalisesExponent : Prop :=
  ∀ (s : State) (rd ra rb : Reg) (u : FE), s.f[ra] = some u → u.Valid →
    (u.prime = 1#256 → exec (.fpow rd ra rb) s = .next (s.faulted 0x14#8)) ∧
    (u.prime ≠ 1#256 → ∃ n : Nat, (n : Int) = s.k[rb].toInt % ((u.prime.toNat : Int) - 1) ∧
      exec (.fpow rd ra rb) s = .next (s.endF rd ((u.num.toNat : Int) ^ n % u.prime.toNat) u.prime))

/-- R109, R118: the square root is the power `(prime + 1) / 4`, unchecked, and is refused unless `prime mod 4 = 3`. -/
def Obligations.FsqrtIsUncheckedPower : Prop :=
  ∀ (s : State) (rd ra : Reg) (u : FE), s.f[ra] = some u → u.Valid →
    (u.prime.toNat % 4 ≠ 3 → exec (.fsqrt rd ra) s = .next (s.faulted 0x07#8)) ∧
    (u.prime.toNat % 4 = 3 → exec (.fsqrt rd ra) s = .next
      (s.endF rd ((u.num.toNat : Int) ^ ((u.prime.toNat + 1) / 4) % u.prime.toNat) u.prime))

/-- R109, from general knowledge there: over a prime the root squares to the operand if that is a square, else to its
negative. -/
def Obligations.FsqrtSquaresToPlusOrMinus : Prop :=
  ∀ (s : State) (rd ra : Reg) (u : FE), s.f[ra] = some u → u.Valid → u.prime.toNat.Prime → u.prime.toNat % 4 = 3 →
    ∃ r : Nat, r < u.prime.toNat ∧ exec (.fsqrt rd ra) s = .next (s.endF rd r u.prime) ∧
      ((∃ y : Nat, y * y % u.prime.toNat = u.num.toNat) → r * r % u.prime.toNat = u.num.toNat) ∧
      ((¬∃ y : Nat, y * y % u.prime.toNat = u.num.toNat) → (r * r + u.num.toNat) % u.prime.toNat = 0)

/-- R110, R119, R120, R121: the field equality test, and the two moves to an integer register. -/
def Obligations.FeqFgetFgetpResults : Prop :=
  ∀ (s : State) (rd ra rb : Reg) (u v : FE), s.f[ra] = some u → s.f[rb] = some v →
    exec (.feq ra rb) s = .next (s.endT (decide (u.num = v.num ∧ u.prime = v.prime))) ∧
    exec (.fget rd ra) s = .next (s.endK rd u.num) ∧
    exec (.fgetp rd ra) s = .next (s.endK rd u.prime)

/-- R123: `(a·b)/b = a` for `b ≠ 0` over a prime, in command form, and the Fermat check `a^(prime−1) = 1` for `a ≠ 0`. -/
def Obligations.ProductDividedGivesBack : Prop :=
  ∀ (s : State) (u v : FE), s.f[(0 : Reg)] = some u → s.f[(1 : Reg)] = some v → u.Valid → v.Valid → u.prime = v.prime →
    u.prime.toNat.Prime → v.num ≠ 0#256 →
    (∃ t1 t2 t3, exec (.fmul 2 0 1) s = .next t1 ∧ exec (.fdiv 3 2 1) t1 = .next t2 ∧ exec (.feq 3 0) t2 = .next t3 ∧
      t3.t = true) ∧
    v.num.toNat ^ (v.prime.toNat - 1) % v.prime.toNat = 1 ∧
    (∀ rd rb : Reg, s.k[rb].toInt = (v.prime.toNat : Int) - 1 →
      exec (.fpow rd 1 rb) s = .next (s.endF rd 1 v.prime))

/-! ### Point commands (42_point.md) -/

/-- R130, R137: PNEW checks the primes, then the curve equation. -/
def Obligations.PnewValidatesPoint : Prop :=
  ∀ (s : State) (rd ra rb rc re : Reg) (x y a b : FE), s.f[ra] = some x → s.f[rb] = some y → s.f[rc] = some a →
    s.f[re] = some b → x.Valid →
    (¬(x.prime = y.prime ∧ x.prime = a.prime ∧ x.prime = b.prime) →
      exec (.pnew rd ra rb rc re) s = .next (s.faulted 0x02#8)) ∧
    (x.prime = y.prime → x.prime = a.prime → x.prime = b.prime →
      exec (.pnew rd ra rb rc re) s = .next
        (if (y.num.toNat * y.num.toNat) % x.prime.toNat =
            (x.num.toNat * x.num.toNat * x.num.toNat + a.num.toNat * x.num.toNat + b.num.toNat) % x.prime.toNat
         then s.endQ rd ⟨.affine x.num y.num, a.num, b.num, x.prime⟩ else s.faulted 0x04#8))

/-- R130, R137: over one prime PNEW completes exactly on the points of the curve. -/
def Obligations.PnewCompletesOnCurve : Prop :=
  ∀ (s : State) (rd ra rb rc re : Reg) (x y a b p : U256), s.f[ra] = some ⟨x, p⟩ → s.f[rb] = some ⟨y, p⟩ →
    s.f[rc] = some ⟨a, p⟩ → s.f[re] = some ⟨b, p⟩ → 0 < p.toNat →
    (y.toNat * y.toNat) % p.toNat = (x.toNat * x.toNat * x.toNat + a.toNat * x.toNat + b.toNat) % p.toNat →
    exec (.pnew rd ra rb rc re) s = .next (s.endQ rd ⟨.affine x y, a, b, p⟩)

/-- R131, R138: PINF makes the identity of a curve whose coefficients have one prime. -/
def Obligations.PinfMakesIdentity : Prop :=
  ∀ (s : State) (rd rc re : Reg) (a b : FE), s.f[rc] = some a → s.f[re] = some b →
    (a.prime = b.prime → exec (.pinf rd rc re) s = .next (s.endQ rd ⟨.identity, a.num, b.num, a.prime⟩)) ∧
    (a.prime ≠ b.prime → exec (.pinf rd rc re) s = .next (s.faulted 0x02#8))

/-- R132, R139: PADD is the group law in the integers, in its case order, over any modulus. -/
def Obligations.PaddFollowsGroupLaw : Prop :=
  ∀ (s : State) (rd ra rb : Reg) (P R : Pt), s.q[ra] = some P → s.q[rb] = some R → P.Valid → R.Valid →
    exec (.padd rd ra rb) s = .next (s.endPoint rd (groupLaw P R))

/-- R132, R134, R140: doubling is the group law with equal operands; the identity and a point with `y = 0` double to
the identity (derived in R134 from R132). -/
def Obligations.PdblAddsPointToItself : Prop :=
  ∀ (s : State) (rd ra : Reg) (P : Pt), s.q[ra] = some P → P.Valid →
    exec (.pdbl rd ra) s = .next (s.endPoint rd (groupLaw P P)) ∧
    (P.coords = .identity → exec (.pdbl rd ra) s = .next (s.endQ rd P)) ∧
    (∀ x : U256, P.coords = .affine x 0#256 →
      exec (.pdbl rd ra) s = .next (s.endQ rd ⟨.identity, P.a, P.b, P.prime⟩))

/-- R135, R141: PMUL is double-and-add over the bits of the scalar, least significant first; a negative scalar is
refused; 0 and 1 need no sum. -/
def Obligations.PmulIsDoubleAndAdd : Prop :=
  ∀ (s : State) (rd ra rb : Reg) (P : Pt), s.q[ra] = some P → P.Valid →
    exec (.pmul rd ra rb) s = .next (s.endPoint rd (scalarMultiple P s.k[rb].toInt)) ∧
    (s.k[rb].toInt < 0 → exec (.pmul rd ra rb) s = .next (s.faulted 0x08#8)) ∧
    (s.k[rb].toInt = 0 → exec (.pmul rd ra rb) s = .next (s.endQ rd ⟨.identity, P.a, P.b, P.prime⟩)) ∧
    (s.k[rb].toInt = 1 → exec (.pmul rd ra rb) s = .next (s.endQ rd P))

/-- R132, R135, R139 to R141: over an odd prime PADD of points of one curve, PDBL, and PMUL by a scalar that is not
negative complete, with a valid point of that curve. -/
def Obligations.PointArithmeticCompletesOverOddPrimes : Prop :=
  ∀ (s : State) (rd ra rb : Reg) (P R : Pt), s.q[ra] = some P → P.Valid → P.prime.toNat.Prime → P.prime.toNat ≠ 2 →
    (s.q[rb] = some R → R.Valid → P.a = R.a → P.b = R.b → P.prime = R.prime →
      ∃ S, exec (.padd rd ra rb) s = .next (s.endQ rd S) ∧ S.Valid ∧ S.a = P.a ∧ S.b = P.b ∧ S.prime = P.prime) ∧
    (∃ S, exec (.pdbl rd ra) s = .next (s.endQ rd S) ∧ S.Valid ∧ S.a = P.a ∧ S.b = P.b ∧ S.prime = P.prime) ∧
    (0 ≤ s.k[rb].toInt →
      ∃ S, exec (.pmul rd ra rb) s = .next (s.endQ rd S) ∧ S.Valid ∧ S.a = P.a ∧ S.b = P.b ∧ S.prime = P.prime)

/-- R132, R221 as printed ("possible only when `prime` is composite"): over a prime a doubling never records
`InvalidPoint`. Expected to fail at prime 2 (log entry 14). -/
def Obligations.DoublingNeverInvalidOverAnyPrime : Prop :=
  ∀ (s : State) (rd ra : Reg) (P : Pt), s.q[ra] = some P → P.Valid → P.prime.toNat.Prime →
    exec (.pdbl rd ra) s ≠ .next (s.faulted 0x04#8)

/-- R132: over an odd prime PADD of two nonsingular points of one curve is addition in the curve's group as Mathlib
defines it. -/
def Obligations.PaddIsGroupAddition : Prop :=
  ∀ (p a b : U256) [Fact p.toNat.Prime] (c d : Coords) (X Y : (curve p a b).Point) (s : State) (rd ra rb : Reg),
    p.toNat ≠ 2 → (⟨c, a, b, p⟩ : Pt).Valid → (⟨d, a, b, p⟩ : Pt).Valid → Represents p a b c X → Represents p a b d Y →
    s.q[ra] = some ⟨c, a, b, p⟩ → s.q[rb] = some ⟨d, a, b, p⟩ →
    ∃ e, exec (.padd rd ra rb) s = .next (s.endQ rd ⟨e, a, b, p⟩) ∧ Represents p a b e (X + Y)

/-- R135: over an odd prime PMUL of a nonsingular point by `k ≥ 0` is `k` times the point in the curve's group. -/
def Obligations.PmulIsGroupMultiple : Prop :=
  ∀ (p a b : U256) [Fact p.toNat.Prime] (c : Coords) (X : (curve p a b).Point) (s : State) (rd ra rb : Reg) (k : Nat),
    p.toNat ≠ 2 → (⟨c, a, b, p⟩ : Pt).Valid → Represents p a b c X → s.q[ra] = some ⟨c, a, b, p⟩ →
    s.k[rb].toInt = k → ∃ e, exec (.pmul rd ra rb) s = .next (s.endQ rd ⟨e, a, b, p⟩) ∧ Represents p a b e (k • X)

/-- R148: `P + Identity = P` and `P + (negated y) = Identity`, for odd moduli. -/
def Obligations.IdentityAndNegatedPoint : Prop :=
  ∀ (s : State) (rd ra rb : Reg) (P R : Pt), s.q[ra] = some P → s.q[rb] = some R → P.Valid → R.Valid →
    R.a = P.a → R.b = P.b → R.prime = P.prime →
    (R.coords = .identity → exec (.padd rd ra rb) s = .next (s.endQ rd P)) ∧
    (∀ x y y' : U256, P.prime.toNat % 2 = 1 → P.coords = .affine x y → R.coords = .affine x y' →
      (y'.toNat : Int) = -(y.toNat : Int) % P.prime.toNat →
      exec (.padd rd ra rb) s = .next (s.endQ rd ⟨.identity, P.a, P.b, P.prime⟩))

/-- R136, R142, R143: the point equality test is structural and never faults on valid registers; the identity test. -/
def Obligations.PeqPisinfResults : Prop :=
  ∀ (s : State) (ra rb : Reg) (P R : Pt), s.q[ra] = some P → s.q[rb] = some R →
    exec (.peq ra rb) s = .next (s.endT (decide (P = R))) ∧
    exec (.pisinf ra) s = .next (s.endT (decide (P.coords = .identity)))

/-- R144 to R147: the parts of a point as field elements; the identity has no coordinates (`0x12`) but has coefficients. -/
def Obligations.PointPartsReadOut : Prop :=
  ∀ (s : State) (rd ra : Reg) (P : Pt), s.q[ra] = some P →
    exec (.pgeta rd ra) s = .next { s with f := s.f.set rd (some ⟨P.a, P.prime⟩), busy := false, done := true } ∧
    exec (.pgetb rd ra) s = .next { s with f := s.f.set rd (some ⟨P.b, P.prime⟩), busy := false, done := true } ∧
    (∀ x y : U256, P.coords = .affine x y →
      exec (.pgetx rd ra) s = .next { s with f := s.f.set rd (some ⟨x, P.prime⟩), busy := false, done := true } ∧
      exec (.pgety rd ra) s = .next { s with f := s.f.set rd (some ⟨y, P.prime⟩), busy := false, done := true }) ∧
    (P.coords = .identity → exec (.pgetx rd ra) s = .next (s.faulted 0x12#8) ∧
      exec (.pgety rd ra) s = .next (s.faulted 0x12#8))

/-! ### secp256k1 commands (43_secp256k1.md) -/

/-- R160, R167, R168, R169: the constants SLDG, SLDN and SLDP load; `p = 2^256 − 2^32 − 977` and `p mod 4 = 3`; the
generator is on the curve `(0, 7)`. `Gx`, `Gy` and `N` are the spec's, from general knowledge there (log entry 9). -/
def Obligations.SecpConstantsLoad : Prop :=
  (∀ (s : State) (rd : Reg), exec (.sldg rd) s = .next (s.endQ rd
      ⟨.affine 0x79BE667EF9DCBBAC55A06295CE870B07029BFCDB2DCE28D959F2815B16F81798#256
        0x483ADA7726A3C4655DA4FBFC0E1108A8FD17B448A68554199C47D08FFB10D4B8#256, 0#256, 7#256, secpP⟩) ∧
    exec (.sldn rd) s = .next (s.endK rd 0xFFFFFFFFFFFFFFFFFFFFFFFFFFFFFFFEBAAEDCE6AF48A03BBFD25E8CD0364141#256) ∧
    exec (.sldp rd) s = .next (s.endK rd secpP)) ∧
  secpP.toNat = 2 ^ 256 - 2 ^ 32 - 977 ∧ secpP.toNat % 4 = 3 ∧ secpG.Valid

/-- R100, R130, R162, R170: SNEW range-checks both coordinates, then checks `y² ≡ x³ + 7 (mod p)` (derived in R162 from
R100 and R130). -/
def Obligations.SnewConstructsPoint : Prop :=
  ∀ (s : State) (rd ra rb : Reg) (x y : Int), s.k[ra].toInt = x → s.k[rb].toInt = y →
    (¬(0 ≤ x ∧ x < secpP.toNat ∧ 0 ≤ y ∧ y < secpP.toNat) → exec (.snew rd ra rb) s = .next (s.faulted 0x01#8)) ∧
    (0 ≤ x → x < secpP.toNat → 0 ≤ y → y < secpP.toNat → y * y % secpP.toNat ≠ (x * x * x + 7) % secpP.toNat →
      exec (.snew rd ra rb) s = .next (s.faulted 0x04#8)) ∧
    (0 ≤ x → x < secpP.toNat → 0 ≤ y → y < secpP.toNat → y * y % secpP.toNat = (x * x * x + 7) % secpP.toNat →
      exec (.snew rd ra rb) s = .next
        (s.endQ rd ⟨.affine (BitVec.ofInt 256 x) (BitVec.ofInt 256 y), 0#256, 7#256, secpP⟩))

/-- R132, R149, R161, R163, R171: SMUL of a secp256k1 point always completes, with the multiple by the scalar reduced
modulo `N`, a valid secp256k1 point; a point of another curve records `IncompatibleCurve`. That no sum on the way faults
is the fault list of R171, resting on the closure of the group law (from general knowledge in R132); that the result is
a valid secp256k1 point is derived in R149 and R161. -/
def Obligations.SmulReducesScalarAndCompletes : Prop :=
  ∀ (s : State) (rd ra rb : Reg) (P : Pt), s.q[ra] = some P → P.Valid →
    (¬(P.a = 0#256 ∧ P.b = 7#256 ∧ P.prime = secpP) → exec (.smul rd ra rb) s = .next (s.faulted 0x03#8)) ∧
    (P.a = 0#256 → P.b = 7#256 → P.prime = secpP → ∃ S,
      exec (.smul rd ra rb) s = .next (s.endQ rd S) ∧ scalarMultiple P (s.k[rb].toInt % secpN.toNat) = .ok S ∧
      S.Valid ∧ S.a = 0#256 ∧ S.b = 7#256 ∧ S.prime = secpP)

/-- R175: the group order check, `N·G = Identity`, by SMUL and by PMUL. -/
def Obligations.GroupOrderGivesIdentity : Prop :=
  ∀ (s : State) (rd ra rb : Reg), s.q[ra] = some secpG → s.k[rb] = ⟨false, secpN⟩ →
    exec (.smul rd ra rb) s = .next (s.endQ rd ⟨.identity, 0#256, 7#256, secpP⟩) ∧
    exec (.pmul rd ra rb) s = .next (s.endQ rd ⟨.identity, 0#256, 7#256, secpP⟩)

/-- R164, R172: SECENC writes the SEC bytes from byte 0 on and `SECLEN`, and keeps every other byte; the checks come in
the order of R164 and write nothing. -/
def Obligations.SecencWritesSecBytes : Prop :=
  ∀ (s : State) (ra : Reg) (c : Bool) (P : Pt), s.q[ra] = some P → s.secbuf.wf →
    (¬(P.a = 0#256 ∧ P.b = 7#256 ∧ P.prime = secpP) → exec (.secenc ra c) s = .next (s.faulted 0x03#8)) ∧
    (P.a = 0#256 → P.b = 7#256 → P.prime = secpP → P.coords = .identity →
      exec (.secenc ra c) s = .next (s.faulted 0x12#8)) ∧
    (∀ x y : U256, P.a = 0#256 → P.b = 7#256 → P.prime = secpP → P.coords = .affine x y →
      ∃ m : Memory, exec (.secenc ra c) s = .next
          { s with secbuf := m, seclen := if c then 33#7 else 65#7, busy := false, done := true } ∧
        m.wf ∧ (∀ j, j < (if c then 33 else 65) → m.read j = secByte x y c j) ∧
        (∀ j, (if c then 33 else 65) ≤ j → m.read j = s.secbuf.read j))

/-- R165, R173: SECDEC by its prefix byte: uncompressed coordinates in range and on the curve, or an `x` and the parity
of its root; `RangeError`, `InvalidPoint` and `SecFormat` otherwise. `SECLEN` is neither read nor written. -/
def Obligations.SecdecDecodesByPrefix : Prop :=
  ∀ (s : State) (rd : Reg) (X Y : Nat), secInteger s.secbuf 1 32 = X → secInteger s.secbuf 33 32 = Y →
    (s.secbuf.read 0 = 0x04#8 → (secpP.toNat ≤ X ∨ secpP.toNat ≤ Y) →
      exec (.secdec rd) s = .next (s.faulted 0x01#8)) ∧
    (s.secbuf.read 0 = 0x04#8 → X < secpP.toNat → Y < secpP.toNat → exec (.secdec rd) s = .next
      (if Y * Y % secpP.toNat = (X * X * X + 7) % secpP.toNat
        then s.endQ rd ⟨.affine (BitVec.ofNat 256 X) (BitVec.ofNat 256 Y), 0#256, 7#256, secpP⟩
        else s.faulted 0x04#8)) ∧
    ((s.secbuf.read 0 = 0x02#8 ∨ s.secbuf.read 0 = 0x03#8) → secpP.toNat ≤ X →
      exec (.secdec rd) s = .next (s.faulted 0x01#8)) ∧
    (∀ y : Nat, X < secpP.toNat → y < secpP.toNat → y * y % secpP.toNat = (X * X * X + 7) % secpP.toNat →
      s.secbuf.read 0 = (if y % 2 = 0 then 0x02#8 else 0x03#8) → exec (.secdec rd) s = .next
        (s.endQ rd ⟨.affine (BitVec.ofNat 256 X) (BitVec.ofNat 256 y), 0#256, 7#256, secpP⟩)) ∧
    ((s.secbuf.read 0 = 0x02#8 ∨ s.secbuf.read 0 = 0x03#8) → X < secpP.toNat →
      (∀ y : Nat, y < secpP.toNat → y * y % secpP.toNat ≠ (X * X * X + 7) % secpP.toNat) →
      exec (.secdec rd) s = .next (s.faulted 0x04#8)) ∧
    (s.secbuf.read 0 ≠ 0x02#8 → s.secbuf.read 0 ≠ 0x03#8 → s.secbuf.read 0 ≠ 0x04#8 →
      exec (.secdec rd) s = .next (s.faulted 0x13#8))

/-- R175: `decode(encode(P)) = P` for both SEC forms and every affine secp256k1 point: SECENC, SECDEC, PEQ gives `T = 1`. -/
def Obligations.SecRoundTripGivesPointBack : Prop :=
  ∀ (s : State) (c : Bool) (x y : U256) (P : Pt), P = ⟨.affine x y, 0#256, 7#256, secpP⟩ → P.Valid → s.secbuf.wf →
    s.q[(1 : Reg)] = some P →
    ∃ t1 t2 t3, exec (.secenc 1 c) s = .next t1 ∧ exec (.secdec 2) t1 = .next t2 ∧ t2.q[(2 : Reg)] = some P ∧
      exec (.peq 1 2) t2 = .next t3 ∧ t3.t = true

/-- R163, R166, R174: SVERIFY of a public key on secp256k1: with `sInv = s^(N−2) mod N`, `u = z·sInv mod N`,
`v = r·sInv mod N` and `R = u·G + v·P` by double-and-add and the group law, it completes with `T` the comparison of the
integers `R.x` and `r`, unless `R` is the identity (`0x12`); a key of another curve records `IncompatibleCurve`. -/
def Obligations.SverifyComparesXCoordinate : Prop :=
  ∀ (st : State) (ra rb rc re : Reg) (P : Pt) (z r s sInv : Int), st.q[ra] = some P → P.Valid →
    st.k[rb].toInt = z → st.k[rc].toInt = r → st.k[re].toInt = s → sInv = s ^ (secpN.toNat - 2) % secpN.toNat →
    (¬(P.a = 0#256 ∧ P.b = 7#256 ∧ P.prime = secpP) → exec (.sverify ra rb rc re) st = .next (st.faulted 0x03#8)) ∧
    (P.a = 0#256 → P.b = 7#256 → P.prime = secpP →
      ∃ A B R, scalarMultiple secpG (z * sInv % secpN.toNat) = .ok A ∧
        scalarMultiple P (r * sInv % secpN.toNat) = .ok B ∧ groupLaw A B = .ok R ∧
        (R.coords = .identity → exec (.sverify ra rb rc re) st = .next (st.faulted 0x12#8)) ∧
        (∀ x y : U256, R.coords = .affine x y →
          exec (.sverify ra rb rc re) st = .next (st.endT (decide ((x.toNat : Int) = r)))))

/-- R166, R174: SVERIFY is ECDSA verification in the curve's group as Mathlib defines it: with `w = s^(N−2) mod N`,
`u = z·w mod N`, `v = r·w mod N`, it compares the x coordinate of `u·G + v·P` with `r`, and faults at the identity. -/
def Obligations.SverifyIsEcdsaVerification : Prop :=
  ∀ [Fact secpP.toNat.Prime] (st : State) (ra rb rc re : Reg) (c : Coords) (X G : (curve secpP 0#256 7#256).Point)
    (z r s : Int) (w u v : Nat), Represents secpP 0#256 7#256 c X → Represents secpP 0#256 7#256 secpG.coords G →
    (⟨c, 0#256, 7#256, secpP⟩ : Pt).Valid → st.q[ra] = some ⟨c, 0#256, 7#256, secpP⟩ →
    st.k[rb].toInt = z → st.k[rc].toInt = r → st.k[re].toInt = s →
    (w : Int) = s ^ (secpN.toNat - 2) % secpN.toNat → (u : Int) = z * w % secpN.toNat →
    (v : Int) = r * w % secpN.toNat →
    (u • G + v • X = 0 → exec (.sverify ra rb rc re) st = .next (st.faulted 0x12#8)) ∧
    (∀ (x y : U256) (h : (curve secpP 0#256 7#256).Nonsingular (x.toNat : ZMod secpP.toNat) (y.toNat : ZMod secpP.toNat)),
      x.toNat < secpP.toNat → y.toNat < secpP.toNat → u • G + v • X = .some _ _ h →
      exec (.sverify ra rb rc re) st = .next (st.endT (decide ((x.toNat : Int) = r))))

/-! ### Reset and the host port (10_state.md, 20_memory.md, 70_reset_and_hazards.md) -/

/-- R43: the reset state: every `F` and `Q` register invalid, every `K` register `+0`, all status bits, `ERRCODE`,
`ERRCMD`, `IE` and `SECLEN` 0, every SECBUF byte 0, `irq = 0`. -/
def Obligations.ResetStateIsTheManuals : Prop :=
  (∀ r : Reg, State.reset.f[r] = none ∧ State.reset.q[r] = none ∧ State.reset.k[r] = ⟨false, 0#256⟩) ∧
  State.reset.busy = false ∧ State.reset.done = false ∧ State.reset.errf = false ∧ State.reset.t = false ∧
  State.reset.ovr = false ∧ State.reset.errcode = 0x00#8 ∧ State.reset.errcmd = 0x00000000#32 ∧
  State.reset.ie = false ∧ State.reset.seclen = 0#7 ∧ (∀ j : Nat, State.reset.secbuf.read j = 0x00#8) ∧
  State.reset.irq = false ∧ (State.reset.hostRead (atOffset 0x000)).1 = 0x4D454331#32

/-- R250, R251, R252: asserting `rst` puts the whole architectural state at its reset value, whatever was pending; while
it is asserted writes are ignored and reads return 0, and releasing it changes nothing else. That `rst` is a level with
two host actions is the model's (log entry 5). `PEND`, whose reset value the spec calls not meaningful, is left open. -/
def Obligations.ResetOverridesEverything : Prop :=
  (∀ s : State, ∃ w : Word, s.hostAct .rstAssert =
    { State.reset with pend := w, rst := true, inbox := s.inbox, replies := s.replies, draws := s.draws }) ∧
  (∀ (s : State) (a : PortAddr) (v : Word) (n : Nat), s.rst = true → s.hostAct (.write a v) = s ∧
    s.hostAct (.read a) = { s with replies := 0#32 :: s.replies } ∧
    s.hostAct (.poll n) = { s with replies := 0#32 :: s.replies }) ∧
  (∀ s : State, s.hostAct .rstRelease = { s with rst := false })

/-- R52, R59: what a read of each offset returns, outside the operand windows at any time and in them while `BUSY = 0`;
it changes nothing. -/
def Obligations.HostReadReturnsMappedValue : Prop :=
  ∀ s : State,
    (s.hostRead (atOffset 0x000)).1 = 0x4D454331#32 ∧ (s.hostRead (atOffset 0x004)).1 = 0#32 ∧
    (s.hostRead (atOffset 0x010)).1 = 0#32 ∧
    ((s.hostRead (atOffset 0x008)).1.toNat = s.busy.toNat + 2 * s.done.toNat + 4 * s.errf.toNat + 8 * s.t.toNat +
      16 * s.ovr.toNat + 256 * s.errcode.toNat) ∧
    (s.hostRead (atOffset 0x00C)).1.toNat = s.ie.toNat ∧ (s.hostRead (atOffset 0x014)).1.toNat = s.seclen.toNat ∧
    (s.hostRead (atOffset 0x018)).1 = s.errcmd ∧
    (s.busy = false →
      (∀ (n : Reg) (i : Fin 8), (s.hostRead (atOffset (offsetKW n i))).1.toNat =
        s.k[n].mag.toNat / 2 ^ (32 * i.val) % 2 ^ 32) ∧
      (∀ n : Reg, (s.hostRead (atOffset (offsetKS n))).1.toNat = s.k[n].neg.toNat) ∧
      (∀ j : Fin 17, j.val < 16 → (s.hostRead (atOffset (offsetSECW j))).1.toNat =
        (s.secbuf.read (4 * j.val)).toNat + 2 ^ 8 * (s.secbuf.read (4 * j.val + 1)).toNat +
        2 ^ 16 * (s.secbuf.read (4 * j.val + 2)).toNat + 2 ^ 24 * (s.secbuf.read (4 * j.val + 3)).toNat) ∧
      (s.hostRead (atOffset (offsetSECW 16))).1.toNat = (s.secbuf.read 64).toNat) ∧
    (∀ off : Nat, off < 0x1000 → off % 4 = 0 → namedOffset off = false → (s.hostRead (atOffset off)).1 = 0#32)

/-- R52, R64: a read has no side effect: no architectural state changes. Only the model's count of draws moves, by one,
and only on an operand word read while `BUSY = 1`, which answers the free value of that count (log entry 3). -/
def Obligations.HostReadChangesNothing : Prop :=
  ∀ (s : State) (a : PortAddr),
    ((s.busy = false ∨ operandOffset (4 * a.val) = false) → (s.hostRead a).2 = s) ∧
    (s.busy = true → operandOffset (4 * a.val) = true →
      s.hostRead a = (Config.busyRead s.draws, { s with draws := s.draws + 1 }))

/-- R53, R55, R59: what a write of each offset does. -/
def Obligations.HostWriteStoresByMap : Prop :=
  ∀ (s : State) (v : Word),
    s.hostWrite (atOffset 0x00C) v = { s with ie := v.getLsbD 0 } ∧
    (∀ (n : Reg) (i : Fin 8), s.busy = false → ∃ m : U256,
      s.hostWrite (atOffset (offsetKW n i)) v = { s with k := s.k.set n ⟨s.k[n].neg, m⟩ } ∧
      ∀ b, b < 256 → m.getLsbD b =
        if 32 * i.val ≤ b ∧ b < 32 * i.val + 32 then v.getLsbD (b - 32 * i.val) else s.k[n].mag.getLsbD b) ∧
    (∀ n : Reg, s.busy = false →
      s.hostWrite (atOffset (offsetKS n)) v = { s with k := s.k.set n ⟨v.getLsbD 0, s.k[n].mag⟩ }) ∧
    (∀ j : Fin 17, s.busy = false → s.secbuf.wf → ∃ m : Memory,
      s.hostWrite (atOffset (offsetSECW j)) v = { s with secbuf := m } ∧
      ∀ a, m.read a = if a / 4 = j.val ∧ a < 65 then v.extractLsb' (8 * (a % 4)) 8 else s.secbuf.read a) ∧
    (∀ (n : Reg) (i : Fin 8) (j : Fin 17), s.busy = true →
      s.hostWrite (atOffset (offsetKW n i)) v = { s with ovr := true } ∧
      s.hostWrite (atOffset (offsetKS n)) v = { s with ovr := true } ∧
      s.hostWrite (atOffset (offsetSECW j)) v = { s with ovr := true }) ∧
    (∀ off : Nat, off < 0x1000 → off % 4 = 0 → (namedOffset off = false ∨ off = 0x000 ∨ off = 0x008 ∨ off = 0x014 ∨
      off = 0x018) → s.hostWrite (atOffset off) v = s)

/-- R37, R225: a write to `CLR` clears exactly what its bits 1, 2 and 4 name, at any time; a read returns 0. -/
def Obligations.ClrClearsNamedBits : Prop :=
  ∀ (s : State) (v : Word), s.hostWrite (atOffset 0x010) v =
    { s with
      done := s.done && !v.getLsbD 1
      errf := s.errf && !v.getLsbD 2
      errcode := if v.getLsbD 2 then 0x00#8 else s.errcode
      errcmd := if v.getLsbD 2 then 0x00000000#32 else s.errcmd
      ovr := s.ovr && !v.getLsbD 4 } ∧
    (s.hostRead (atOffset 0x010)).1 = 0#32

/-- R42, R228: `irq = STATUS.DONE and CTRL.IE`, as the host reads them. -/
def Obligations.IrqIsDoneAndEnabled : Prop :=
  ∀ s : State, s.irq = ((s.hostRead (atOffset 0x008)).1.getLsbD 1 && (s.hostRead (atOffset 0x00C)).1.getLsbD 0)

/-! ### The host's statements (30_encoding.md R78) -/

/-- R78: ISSUE of an accepted word writes `CMD` and reads `STATUS` until `BUSY` is 0: with a delay of `n` reads, `n` words
with `BUSY = 1`, then the core's step, then one word, which is the result. ISSUE of a word that is dropped reads once.
The delay as a number is the model's (log entry 18). -/
def Obligations.IssueReadsStatusUntilNotBusy : Prop :=
  ∀ (s : State) (w : Word) (n : Nat) (rest : List HostEvent), s.busy = false → s.rst = false →
    (s.errf = false → ∃ t u, t = { s with
          pend := w, busy := true, done := false, inbox := pollEvent 0 :: rest
          replies := List.replicate n ({ s with busy := true, done := false } : State).statusWord ++ s.replies } ∧
        Host.Core.run Sys2Proof.core (n + 1) { s with inbox := hostISSUEword w n ++ rest } = .next t ∧
        step t = .next u ∧ u.busy = false ∧
        Host.Core.run Sys2Proof.core (n + 3) { s with inbox := hostISSUEword w n ++ rest } =
          .next { u with inbox := rest, replies := (u.hostRead (atOffset 0x008)).1 :: u.replies }) ∧
    (s.errf = true → ∃ t, Host.Core.run Sys2Proof.core 2 { s with inbox := hostISSUEword w n ++ rest } = .next t ∧
      t = { s with ovr := true, inbox := rest, replies := ({ s with ovr := true } : State).statusWord :: s.replies } ∧
      t.issueResult = some ({ s with ovr := true } : State).statusWord)

/-- R78, R54, R55: while no command runs, KLOAD and then KREAD gives every integer of at most 256 bits back, and SECLOAD
and then SECREAD every byte string of at most 65 bytes. -/
def Obligations.HostStatementsReadBack : Prop :=
  ∀ s : State, s.busy = false → s.rst = false → s.secbuf.wf →
    (∀ (n : Reg) (v : Int), v.natAbs < 2 ^ 256 → ∃ t,
      Host.Core.run Sys2Proof.core 18 { s with inbox := hostKLOAD n v ++ hostKREAD n } = .next t ∧
      t.inbox = [] ∧ t.kreadResult = v ∧ t.k[n].toInt = v) ∧
    (∀ bytes : List Byte, bytes.length ≤ 65 → ∃ t,
      Host.Core.run Sys2Proof.core (2 * secWords bytes.length)
        { s with inbox := hostSECLOAD bytes ++ hostSECREAD bytes.length } = .next t ∧
      t.inbox = [] ∧ t.secreadResult bytes.length = bytes ∧ t.secbuf.readBytes 0 bytes.length = bytes)

/-! ### Invariants -/

/-- R21, R22, R35, R38, R251: the invariant holds at reset. -/
def Obligations.InvariantAtReset : Prop := State.reset.Inv

/-- R21, R22, R35, R38, R39, R149, R251: every step keeps the invariant: registers hold valid values, the status bits
stay related, `SECLEN` is 0, 33 or 65, SECBUF keeps its canonical form, and under reset the state is the reset state
(the level `rst` and `PEND` at reset are the model's: log entries 5 and 1). -/
def Obligations.EveryStepKeepsInvariant : Prop := ∀ s t : State, s.Inv → step s = .next t → t.Inv
end

