-- ==== Sys2Proof/Laws/Field.lean ====
section
/-!
SUPPORT. One lemma for each field function: when it answers and what, in plain integer arithmetic.
-/

namespace Sys2Proof.Machine

/-! ### modexp -/

/-- Square and multiply computes the power, once the fuel covers the exponent. -/
theorem powLoop_eq (m fuel b n acc : Nat) (hn : n < 2 ^ fuel) (hacc : acc = acc % m) :
    powLoop m fuel b n acc = acc * b ^ n % m := by
  induction fuel generalizing b n acc with
  | zero =>
    have : n = 0 := by simpa using hn
    subst this
    simpa [powLoop] using hacc
  | succ fuel ih =>
    simp only [powLoop]
    split
    · next h => subst h; simpa using hacc
    · next h =>
      have hn2 : n / 2 < 2 ^ fuel := by rw [pow_succ] at hn; omega
      have hsq : (b * b % m) ^ (n / 2) % m = b ^ (2 * (n / 2)) % m := by
        rw [← Nat.pow_mod, pow_mul, pow_two]
      split
      · next hodd =>
        rw [ih _ _ _ hn2 (Nat.mod_mod _ _).symm]
        have hn' : n = 2 * (n / 2) + 1 := by omega
        rw [Nat.mul_mod, Nat.mod_mod, hsq]
        conv_rhs => rw [hn', pow_succ]
        rw [← Nat.mul_mod]
        congr 1; ring
      · next heven =>
        rw [ih _ _ _ hn2 hacc, Nat.mul_mod, hsq, ← Nat.mul_mod]
        have hn' : n = 2 * (n / 2) := by omega
        rw [← hn']

/-- `modexp` is `(b^n) mod m` (`00_scope.md` R8) for a base already reduced or not. -/
theorem modexp_eq (b n m : Nat) : modexp (b : Int) n m = b ^ n % m := by
  unfold modexp
  rw [powLoop_eq _ _ _ _ _ Nat.lt_log2_self (by simp [pow00])]
  have : ((b : Int) % (m : Int)).toNat = b % m := by
    rw [← Int.natCast_emod, Int.toNat_natCast]
  rw [this, pow00, Nat.mul_mod, Nat.mod_mod, ← Nat.pow_mod, ← Nat.mul_mod, one_mul]

/-- `modexp` of any integer base is the floor residue of the integer power. -/
theorem modexp_int (b : Int) (n m : Nat) (hm : 0 < m) : (modexp b n m : Int) = b ^ n % (m : Int) := by
  have h0 : 0 ≤ b % (m : Int) := Int.emod_nonneg _ (by omega)
  obtain ⟨c, hc⟩ := Int.eq_ofNat_of_zero_le h0
  have h1 : modexp b n m = modexp (c : Int) n m := by
    unfold modexp
    rw [← hc, Int.emod_emod_of_dvd _ (dvd_refl _)]
  rw [h1, modexp_eq, Int.natCast_emod, Nat.cast_pow, ← hc]
  exact (Int.mod_modEq b m).pow n

theorem modexp_lt (b : Int) (n m : Nat) (hm : 0 < m) : modexp b n m < m := by
  have := modexp_int b n m hm
  have h2 := Int.emod_lt_of_pos (b ^ n) (by omega : (0 : Int) < m)
  omega

/-! ### residue -/

@[simp] theorem residue_prime (x : Int) (p : U256) : (residue x p).prime = p := rfl

/-- The number of a residue, for a modulus of at least 1: narrowing to 256 bits loses nothing. -/
theorem residue_num (x : Int) {p : U256} (hp : 0 < p.toNat) :
    ((residue x p).num.toNat : Int) = x % (p.toNat : Int) := by
  have h0 : 0 ≤ x % (p.toNat : Int) := Int.emod_nonneg _ (by omega)
  have h1 : x % (p.toNat : Int) < p.toNat := Int.emod_lt_of_pos _ (by omega)
  have h2 := p.isLt
  simp only [residue, BitVec.toNat_ofNat]
  rw [Nat.mod_eq_of_lt (by omega)]
  omega

theorem residue_valid (x : Int) {p : U256} (hp : 0 < p.toNat) : (residue x p).Valid := by
  have h := residue_num x hp
  have h1 : x % (p.toNat : Int) < p.toNat := Int.emod_lt_of_pos _ (by omega)
  simp only [FE.Valid, residue_prime]
  omega

/-- A valid element has a positive prime. -/
theorem FE.Valid.pos {u : FE} (h : u.Valid) : 0 < u.prime.toNat := Nat.lt_of_le_of_lt (Nat.zero_le _) h

/-- A residue of a number already in range is that number. -/
theorem residue_self {n p : U256} (h : n.toNat < p.toNat) : residue (n.toNat : Int) p = ⟨n, p⟩ := by
  have h1 := residue_num (n.toNat : Int) (p := p) (by omega)
  rw [Int.emod_eq_of_lt (by omega) (by omega)] at h1
  have : (residue (n.toNat : Int) p).num = n := BitVec.eq_of_toNat_eq (by omega)
  calc residue (n.toNat : Int) p = ⟨(residue (n.toNat : Int) p).num, p⟩ := rfl
    _ = ⟨n, p⟩ := by rw [this]

/-- Two residues are equal exactly when the integers are congruent. -/
theorem residue_eq_iff {x y : Int} {p : U256} (hp : 0 < p.toNat) :
    residue x p = residue y p ↔ x % (p.toNat : Int) = y % (p.toNat : Int) := by
  constructor
  · intro h
    rw [← residue_num x hp, ← residue_num y hp, h]
  · intro h
    simp only [residue, h]

/-! ### the functions -/

/-- `fe_new` answers exactly on numbers in `[0, p)` (R100). -/
theorem feNew_ok_iff {n p : Int} {u : FE} : feNew n p = .ok u ↔
    (0 ≤ n ∧ n < p) ∧ u = ⟨BitVec.ofNat 256 n.toNat, BitVec.ofNat 256 p.toNat⟩ := by
  unfold feNew
  split
  · next h => simp only [reduceCtorEq, false_iff]; rintro ⟨h', -⟩; omega
  · next h => simp only [Except.ok.injEq]; constructor
              · rintro rfl; exact ⟨by omega, rfl⟩
              · rintro ⟨-, rfl⟩; rfl

theorem feNew_error_iff {n p : Int} {e : CmdFault} : feNew n p = .error e ↔ e = .rangeError ∧ ¬(0 ≤ n ∧ n < p) := by
  unfold feNew
  split
  · next h => simp only [Except.error.injEq]; constructor
              · rintro rfl; exact ⟨rfl, by omega⟩
              · rintro ⟨rfl, -⟩; rfl
  · next h => simp only [reduceCtorEq, false_iff]; rintro ⟨-, h'⟩; omega

theorem feCompat_ok {u v : FE} (h : u.prime = v.prime) : feCompat u v = .ok () := by simp [feCompat, h]

theorem feCompat_error {u v : FE} (h : u.prime ≠ v.prime) : feCompat u v = .error .incompatibleField := by
  simp [feCompat, h]

theorem feAdd_ok {u v : FE} (h : u.prime = v.prime) :
    feAdd u v = .ok (residue ((u.num.toNat : Int) + v.num.toNat) u.prime) := by
  simp [feAdd, feCompat_ok h, bind, Except.bind, pure, Except.pure]

theorem feSub_ok {u v : FE} (h : u.prime = v.prime) :
    feSub u v = .ok (residue ((u.num.toNat : Int) - v.num.toNat) u.prime) := by
  simp [feSub, feCompat_ok h, bind, Except.bind, pure, Except.pure]

theorem feMul_ok {u v : FE} (h : u.prime = v.prime) :
    feMul u v = .ok (residue ((u.num.toNat : Int) * v.num.toNat) u.prime) := by
  simp [feMul, feCompat_ok h, bind, Except.bind, pure, Except.pure]

theorem feAdd_error {u v : FE} (h : u.prime ≠ v.prime) : feAdd u v = .error .incompatibleField := by
  simp [feAdd, feCompat_error h, bind, Except.bind]

theorem feSub_error {u v : FE} (h : u.prime ≠ v.prime) : feSub u v = .error .incompatibleField := by
  simp [feSub, feCompat_error h, bind, Except.bind]

theorem feMul_error {u v : FE} (h : u.prime ≠ v.prime) : feMul u v = .error .incompatibleField := by
  simp [feMul, feCompat_error h, bind, Except.bind]

theorem feInv_ok {u : FE} (h : u.prime ≠ 1#256) :
    feInv u = .ok ⟨BitVec.ofNat 256 (u.num.toNat ^ (u.prime.toNat - 2) % u.prime.toNat), u.prime⟩ := by
  simp only [feInv, if_neg h, modexp_eq]

theorem feInv_error {u : FE} (h : u.prime = 1#256) : feInv u = .error .badModulus := by simp [feInv, h]

theorem fePow_ok {u : FE} (e : Int) (h : u.prime ≠ 1#256) : fePow u e = .ok
    ⟨BitVec.ofNat 256 (u.num.toNat ^ (e % ((u.prime.toNat : Int) - 1)).toNat % u.prime.toNat), u.prime⟩ := by
  simp only [fePow, if_neg h, modexp_eq]

theorem fePow_error {u : FE} (e : Int) (h : u.prime = 1#256) : fePow u e = .error .badModulus := by simp [fePow, h]

/-- `fe_div` is multiplication by the Fermat power (R108). -/
theorem feDiv_ok {u v : FE} (hc : u.prime = v.prime) (h : u.prime ≠ 1#256) :
    ∃ w, feInv v = .ok w ∧ w.prime = v.prime ∧
      feDiv u v = .ok (residue ((u.num.toNat : Int) * w.num.toNat) u.prime) := by
  refine ⟨_, feInv_ok (hc ▸ h), rfl, ?_⟩
  simp [feDiv, feCompat_ok hc, feInv_ok (hc ▸ h : v.prime ≠ 1#256), bind, Except.bind, pure, Except.pure]

theorem feDiv_error_compat {u v : FE} (hc : u.prime ≠ v.prime) : feDiv u v = .error .incompatibleField := by
  simp [feDiv, feCompat_error hc, bind, Except.bind]

theorem feDiv_error_modulus {u v : FE} (hc : u.prime = v.prime) (h : v.prime = 1#256) :
    feDiv u v = .error .badModulus := by
  simp [feDiv, feCompat_ok hc, feInv_error h, bind, Except.bind]

/-- In `fe_sqrt` the normalisation of `fe_pow` leaves the exponent unchanged (R109). -/
theorem feSqrt_ok {u : FE} (h : u.prime.toNat % 4 = 3) : feSqrt u = .ok
    ⟨BitVec.ofNat 256 (u.num.toNat ^ ((u.prime.toNat + 1) / 4) % u.prime.toNat), u.prime⟩ := by
  have h1 : u.prime ≠ 1#256 := by
    intro hp; rw [hp] at h; simp at h
  have h3 : 3 ≤ u.prime.toNat := by omega
  have he : ((((u.prime.toNat + 1) / 4 : Nat) : Int) % ((u.prime.toNat : Int) - 1)).toNat = (u.prime.toNat + 1) / 4 := by
    rw [Int.emod_eq_of_lt (by omega) (by omega), Int.toNat_natCast]
  simp only [feSqrt, h, ne_eq, not_true_eq_false, if_false, fePow_ok _ h1, he]

theorem feSqrt_error {u : FE} (h : u.prime.toNat % 4 ≠ 3) : feSqrt u = .error .unsupportedOperation := by
  simp [feSqrt, h]

@[simp] theorem feEq_iff {u v : FE} : feEq u v = true ↔ u = v := by
  cases u; cases v; simp [feEq]

theorem feEq_eq_decide (u v : FE) : feEq u v = decide (u = v) := by
  cases h : feEq u v
  · symm; rw [decide_eq_false_iff_not, ← feEq_iff, h]; simp
  · symm; rw [decide_eq_true_iff]; exact feEq_iff.mp h

/-! ### every result is valid -/

theorem ofNat_mod_valid {n : Nat} {p : U256} (hp : 0 < p.toNat) : (⟨BitVec.ofNat 256 (n % p.toNat), p⟩ : FE).Valid := by
  have h1 := Nat.mod_lt n hp
  have h2 := p.isLt
  simp only [FE.Valid, BitVec.toNat_ofNat]
  rw [Nat.mod_eq_of_lt (by omega)]
  exact h1

theorem feNew_valid {n p : Int} {u : FE} (hp : p < 2 ^ 256) (h : feNew n p = .ok u) : u.Valid := by
  obtain ⟨⟨h0, h1⟩, rfl⟩ := feNew_ok_iff.mp h
  simp only [FE.Valid, BitVec.toNat_ofNat]
  rw [Nat.mod_eq_of_lt (by omega), Nat.mod_eq_of_lt (by omega)]
  omega

theorem feAdd_valid {u v w : FE} (hu : u.Valid) (h : feAdd u v = .ok w) : w.Valid ∧ w.prime = u.prime := by
  by_cases hc : u.prime = v.prime
  · rw [feAdd_ok hc] at h; cases h; exact ⟨residue_valid _ hu.pos, rfl⟩
  · rw [feAdd_error hc] at h; cases h

theorem feSub_valid {u v w : FE} (hu : u.Valid) (h : feSub u v = .ok w) : w.Valid ∧ w.prime = u.prime := by
  by_cases hc : u.prime = v.prime
  · rw [feSub_ok hc] at h; cases h; exact ⟨residue_valid _ hu.pos, rfl⟩
  · rw [feSub_error hc] at h; cases h

theorem feMul_valid {u v w : FE} (hu : u.Valid) (h : feMul u v = .ok w) : w.Valid ∧ w.prime = u.prime := by
  by_cases hc : u.prime = v.prime
  · rw [feMul_ok hc] at h; cases h; exact ⟨residue_valid _ hu.pos, rfl⟩
  · rw [feMul_error hc] at h; cases h

theorem feInv_valid {u w : FE} (hu : u.Valid) (h : feInv u = .ok w) : w.Valid ∧ w.prime = u.prime := by
  by_cases hp : u.prime = 1#256
  · rw [feInv_error hp] at h; cases h
  · rw [feInv_ok hp] at h; cases h; exact ⟨ofNat_mod_valid hu.pos, rfl⟩

theorem fePow_valid {u w : FE} {e : Int} (hu : u.Valid) (h : fePow u e = .ok w) : w.Valid ∧ w.prime = u.prime := by
  by_cases hp : u.prime = 1#256
  · rw [fePow_error _ hp] at h; cases h
  · rw [fePow_ok _ hp] at h; cases h; exact ⟨ofNat_mod_valid hu.pos, rfl⟩

theorem feDiv_valid {u v w : FE} (hu : u.Valid) (h : feDiv u v = .ok w) : w.Valid ∧ w.prime = u.prime := by
  by_cases hc : u.prime = v.prime
  · by_cases hp : v.prime = 1#256
    · rw [feDiv_error_modulus hc hp] at h; cases h
    · obtain ⟨i, -, -, hd⟩ := feDiv_ok hc (hc ▸ hp)
      rw [hd] at h; cases h; exact ⟨residue_valid _ hu.pos, rfl⟩
  · rw [feDiv_error_compat hc] at h; cases h

theorem feSqrt_valid {u w : FE} (hu : u.Valid) (h : feSqrt u = .ok w) : w.Valid ∧ w.prime = u.prime := by
  unfold feSqrt at h
  split at h
  · cases h
  · exact fePow_valid hu h

end Sys2Proof.Machine
end

