-- ==== Sys2Proof/Laws/Curve.lean ====
section
/-!
SUPPORT. The curve equation in `ZMod p`, the closure of the chord and tangent construction in a field, and one lemma
for each point function: when it answers and what its answer satisfies (`42_point.md` R130 to R135, R149).
-/

namespace Sys2Proof.Machine

/-! ### Closure of the chord and tangent construction (93_implementation_defined.md G4) -/

/-- If a line of slope `m` through `(x1, y1)` on the curve also meets it at `x2` (or is tangent, `x2 = x1`), the third
point lies on the curve: the quotient of the cubic by `X − x1` vanishes at `x2`, hence at `m² − x1 − x2`. -/
theorem third_point_on_curve {K : Type*} [CommRing K] {x1 y1 x2 a b m : K}
    (h1 : y1 * y1 = x1 * x1 * x1 + a * x1 + b)
    (hq : x2 * x2 + x2 * x1 + x1 * x1 + a - m * m * (x2 - x1) - 2 * m * y1 = 0) :
    let x3 := m * m - x1 - x2
    let y3 := m * (x1 - x3) - y1
    y3 * y3 = x3 * x3 * x3 + a * x3 + b := by
  intro x3 y3
  simp only [x3, y3]
  linear_combination h1 + (x1 + x1 + x2 - m * m) * hq

/-- The chord's slope makes the quotient vanish at the second point. -/
theorem chord_quotient {K : Type*} [Field K] {x1 y1 x2 y2 a b m : K}
    (h1 : y1 * y1 = x1 * x1 * x1 + a * x1 + b) (h2 : y2 * y2 = x2 * x2 * x2 + a * x2 + b) (hx : x2 - x1 ≠ 0)
    (hm : m * (x2 - x1) = y2 - y1) :
    x2 * x2 + x2 * x1 + x1 * x1 + a - m * m * (x2 - x1) - 2 * m * y1 = 0 := by
  have hy : y2 = y1 + m * (x2 - x1) := by linear_combination -hm
  have : (x2 - x1) * (x2 * x2 + x2 * x1 + x1 * x1 + a - m * m * (x2 - x1) - 2 * m * y1) = 0 := by
    rw [hy] at h2
    linear_combination h1 - h2
  exact (mul_eq_zero.mp this).resolve_left hx

/-! ### Field elements in `ZMod p` -/

/-- A residue as an element of `ZMod p`. -/
theorem residue_zmod (x : Int) {p : U256} (hp : 0 < p.toNat) :
    ((residue x p).num.toNat : ZMod p.toNat) = (x : ZMod p.toNat) := by
  have h : (((residue x p).num.toNat : Int) : ZMod p.toNat) = ((x % (p.toNat : Int) : Int) : ZMod p.toNat) := by
    rw [residue_num x hp]
  rw [ZMod.intCast_mod] at h
  simpa using h

/-- Two 256-bit numbers below `p` are equal exactly when they are equal in `ZMod p`. -/
theorem zmod_eq_iff {n m p : U256} (hn : n.toNat < p.toNat) (hm : m.toNat < p.toNat) :
    ((n.toNat : ZMod p.toNat) = (m.toNat : ZMod p.toNat)) ↔ n = m := by
  rw [ZMod.natCast_eq_natCast_iff', Nat.mod_eq_of_lt hn, Nat.mod_eq_of_lt hm]
  exact ⟨fun h => BitVec.eq_of_toNat_eq h, fun h => congrArg _ h⟩

/-- The curve equation in `ZMod p`. -/
theorem onCurve_iff_zmod (x y a b p : Nat) :
    OnCurve x y a b p ↔ (y : ZMod p) * y = (x : ZMod p) * x * x + a * x + b := by
  rw [OnCurve, ← ZMod.natCast_eq_natCast_iff']
  push_cast
  rfl

/-! ### Construction -/

/-- Over one prime, `pt_new` answers exactly on the points of the curve, else `InvalidPoint` (R130). -/
theorem ptNew_eq {x y a b p : U256} (hp : 0 < p.toNat) :
    ptNew ⟨x, p⟩ ⟨y, p⟩ ⟨a, p⟩ ⟨b, p⟩ =
      if OnCurve x.toNat y.toNat a.toNat b.toNat p.toNat then .ok ⟨.affine x y, a, b, p⟩
      else .error .invalidPoint := by
  have hiff : (residue ((y.toNat : Int) * y.toNat) p =
      residue (((residue (((residue (((residue ((x.toNat : Int) * x.toNat) p).num.toNat : Int) * x.toNat) p).num.toNat : Int)
        + (residue ((a.toNat : Int) * x.toNat) p).num.toNat) p).num.toNat : Int) + b.toNat) p) ↔
      OnCurve x.toNat y.toNat a.toNat b.toNat p.toNat := by
    rw [residue_eq_iff hp, onCurve_iff_zmod, ← ZMod.intCast_eq_intCast_iff']
    push_cast
    rw [residue_zmod _ hp]
    push_cast
    rw [residue_zmod _ hp, residue_zmod _ hp]
    push_cast
    rw [residue_zmod _ hp]
    push_cast
    rfl
  simp only [ptNew, feCompat, feMul, feAdd, bind, Except.bind, pure, Except.pure, ne_eq, not_true_eq_false, if_false,
    residue_prime, feEq_iff, hiff]
  split <;> rfl

/-- `ptNew_eq` for coordinates that are residues. -/
theorem ptNew_residue {x y : Int} {a b p : U256} (hp : 0 < p.toNat) :
    ptNew (residue x p) (residue y p) ⟨a, p⟩ ⟨b, p⟩ =
      if OnCurve (residue x p).num.toNat (residue y p).num.toNat a.toNat b.toNat p.toNat
      then .ok ⟨.affine (residue x p).num (residue y p).num, a, b, p⟩ else .error .invalidPoint :=
  ptNew_eq hp

/-- With different primes `pt_new` raises `IncompatibleField` before anything else (R130). -/
theorem ptNew_incompatible {x y a b : FE} (h : ¬(x.prime = y.prime ∧ x.prime = a.prime ∧ x.prime = b.prime)) :
    ptNew x y a b = .error .incompatibleField := by
  unfold ptNew
  by_cases h1 : x.prime = y.prime
  · by_cases h2 : x.prime = a.prime
    · have h3 : x.prime ≠ b.prime := fun h3 => h ⟨h1, h2, h3⟩
      simp [feCompat_ok h1, feCompat_ok h2, feCompat_error h3, bind, Except.bind]
    · simp [feCompat_ok h1, feCompat_error h2, bind, Except.bind]
  · simp [feCompat_error h1, bind, Except.bind]

/-- The point `pt_new` answers is valid and has the coefficients and the prime it was given. -/
theorem ptNew_valid {x y a b : FE} {P : Pt} (hx : x.Valid) (hy : y.Valid) (ha : a.Valid) (hb : b.Valid)
    (h : ptNew x y a b = .ok P) : P.Valid ∧ P.aFE = a ∧ P.bFE = b ∧ P.coords = .affine x.num y.num := by
  by_cases hc : x.prime = y.prime ∧ x.prime = a.prime ∧ x.prime = b.prime
  · obtain ⟨x, p⟩ := x; obtain ⟨y, py⟩ := y; obtain ⟨a, pa⟩ := a; obtain ⟨b, pb⟩ := b
    obtain ⟨h1, h2, h3⟩ := hc
    simp only at h1 h2 h3
    subst h1 h2 h3
    rw [ptNew_eq hx.pos] at h
    split at h
    · next hcurve => cases h; exact ⟨⟨ha, hb, hx, hy, hcurve⟩, rfl, rfl, rfl⟩
    · cases h
  · rw [ptNew_incompatible hc] at h; cases h

/-! ### The group law -/

/-- On one curve: the coefficients of two points agree exactly when `a`, `b` and `prime` do (R132 step 1). -/
theorem sameCurve_iff {P R : Pt} : (feEq P.aFE R.aFE && feEq P.bFE R.bFE) = true ↔
    P.a = R.a ∧ P.b = R.b ∧ P.prime = R.prime := by
  simp only [Bool.and_eq_true, feEq_iff, Pt.aFE, Pt.bFE, FE.mk.injEq]
  tauto

/-- Points of different curves are not added (R132 step 1). -/
theorem ptAdd_incompatible {P R : Pt} (h : ¬(P.a = R.a ∧ P.b = R.b ∧ P.prime = R.prime)) :
    ptAdd P R = .error .incompatibleCurve := by
  have : (feEq P.aFE R.aFE && feEq P.bFE R.bFE) = false := by
    rw [← Bool.not_eq_true, sameCurve_iff]; exact h
  simp [ptAdd, this]

/-- The cases of the group law on one curve (R132 steps 2 to 6). -/
theorem ptAdd_cases {P R : Pt} (h : P.a = R.a ∧ P.b = R.b ∧ P.prime = R.prime) :
    (P.coords = .identity ∧ ptAdd P R = .ok R) ∨
    (P.coords ≠ .identity ∧ R.coords = .identity ∧ ptAdd P R = .ok P) ∨
    ∃ x1 y1 x2 y2, P.coords = .affine x1 y1 ∧ R.coords = .affine x2 y2 ∧
      ((x1 = x2 ∧ y1 ≠ y2 ∧ ptAdd P R = .ok (ptIdentityOf P)) ∨
       (x1 ≠ x2 ∧ ptAdd P R = ptChord ⟨x1, P.prime⟩ ⟨y1, P.prime⟩ ⟨x2, P.prime⟩ ⟨y2, P.prime⟩ P.aFE P.bFE) ∨
       (x1 = x2 ∧ y1 = y2 ∧ y1 = 0#256 ∧ ptAdd P R = .ok (ptIdentityOf P)) ∨
       (x1 = x2 ∧ y1 = y2 ∧ y1 ≠ 0#256 ∧ ptAdd P R = ptTangent ⟨x1, P.prime⟩ ⟨y1, P.prime⟩ P.aFE P.bFE)) := by
  have hs : (feEq P.aFE R.aFE && feEq P.bFE R.bFE) = true := sameCurve_iff.mpr h
  unfold ptAdd
  simp only [hs, Bool.not_true, Bool.false_eq_true, if_false]
  cases hP : P.coords with
  | identity => exact .inl ⟨rfl, rfl⟩
  | affine x1 y1 =>
    cases hR : R.coords with
    | identity => exact .inr (.inl ⟨by simp, rfl, rfl⟩)
    | affine x2 y2 =>
      refine .inr (.inr ⟨x1, y1, x2, y2, rfl, rfl, ?_⟩)
      have hpr : R.prime = P.prime := h.2.2.symm
      simp only [Pt.coordFE, hpr, feEq_eq_decide, FE.mk.injEq, and_true]
      by_cases hx : x1 = x2
      · by_cases hy : y1 = y2
        · by_cases h0 : y1 = 0#256
          · exact .inr (.inr (.inl ⟨hx, hy, h0, by simp [hx, ← hy, h0]⟩))
          · exact .inr (.inr (.inr ⟨hx, hy, h0, by simp [hx, ← hy, h0]⟩))
        · exact .inl ⟨hx, hy, by simp [hx, hy]⟩
      · exact .inr (.inl ⟨hx, by simp [hx]⟩)

theorem ptIdentityOf_valid {P : Pt} (h : P.Valid) : (ptIdentityOf P).Valid := ⟨h.1, h.2.1, trivial⟩

/-- The chord's answer is a valid point of the same curve. -/
theorem ptChord_valid {x1 y1 x2 y2 a b : FE} {P : Pt} (hy2 : y2.Valid) (ha : a.Valid)
    (hb : b.Valid) (h : ptChord x1 y1 x2 y2 a b = .ok P) : P.Valid ∧ P.aFE = a ∧ P.bFE = b := by
  simp only [ptChord, bind, Except.bind] at h
  split at h; · cases h
  next dy hdy =>
  split at h; · cases h
  next dx hdx =>
  split at h; · cases h
  next m hm =>
  split at h; · cases h
  next mm hmm =>
  split at h; · cases h
  next d1 hd1 =>
  split at h; · cases h
  next x3 hx3 =>
  split at h; · cases h
  next dx3 hdx3 =>
  split at h; · cases h
  next md hmd =>
  split at h; · cases h
  next y3 hy3 =>
  have vdy := (feSub_valid hy2 hdy).1
  have vm := (feDiv_valid vdy hm).1
  have vmm := (feMul_valid vm hmm).1
  have vd1 := (feSub_valid vmm hd1).1
  have vx3 := (feSub_valid vd1 hx3).1
  have vmd := (feMul_valid vm hmd).1
  have vy3 := (feSub_valid vmd hy3).1
  obtain ⟨hv, h1, h2, -⟩ := ptNew_valid vx3 vy3 ha hb h
  exact ⟨hv, h1, h2⟩

/-- The tangent's answer is a valid point of the same curve. -/
theorem ptTangent_valid {x1 y1 a b : FE} {P : Pt} (hx1 : x1.Valid) (ha : a.Valid)
    (hb : b.Valid) (h : ptTangent x1 y1 a b = .ok P) : P.Valid ∧ P.aFE = a ∧ P.bFE = b := by
  simp only [ptTangent, bind, Except.bind] at h
  split at h; · cases h
  next xx hxx =>
  split at h; · cases h
  next num hnum =>
  split at h; · cases h
  next m hm =>
  split at h; · cases h
  next mm hmm =>
  split at h; · cases h
  next x3 hx3 =>
  split at h; · cases h
  next dx3 hdx3 =>
  split at h; · cases h
  next md hmd =>
  split at h; · cases h
  next y3 hy3 =>
  have vxx := (feMul_valid hx1 hxx).1
  have vnum := (feAdd_valid (residue_valid _ vxx.pos) hnum).1
  have vm := (feDiv_valid vnum hm).1
  have vmm := (feMul_valid vm hmm).1
  have vx3 := (feSub_valid vmm hx3).1
  have vmd := (feMul_valid vm hmd).1
  have vy3 := (feSub_valid vmd hy3).1
  obtain ⟨hv, h1, h2, -⟩ := ptNew_valid vx3 vy3 ha hb h
  exact ⟨hv, h1, h2⟩

/-- A point's curve: its coefficients and its prime. -/
abbrev SameCurve (P R : Pt) : Prop := P.a = R.a ∧ P.b = R.b ∧ P.prime = R.prime

theorem sameCurve_of_fe {P R : Pt} (h1 : R.aFE = P.aFE) (h2 : R.bFE = P.bFE) : SameCurve P R := by
  simp only [Pt.aFE, Pt.bFE, FE.mk.injEq] at h1 h2
  exact ⟨h1.1.symm, h2.1.symm, h1.2.symm⟩

/-- What `pt_add` answers is a valid point of the operands' curve, whatever the modulus (R132, R149). -/
theorem ptAdd_valid {P R S : Pt} (hP : P.Valid) (hR : R.Valid) (h : ptAdd P R = .ok S) : S.Valid ∧ SameCurve P S := by
  by_cases hc : SameCurve P R
  · rcases ptAdd_cases hc with ⟨-, e⟩ | ⟨-, -, e⟩ | ⟨x1, y1, x2, y2, hPc, hRc, hcase⟩
    · rw [e] at h; cases h; exact ⟨hR, hc⟩
    · rw [e] at h; cases h; exact ⟨hP, rfl, rfl, rfl⟩
    · have vP := hP.2.2; rw [hPc] at vP
      have vR := hR.2.2; rw [hRc] at vR
      rcases hcase with ⟨-, -, e⟩ | ⟨-, e⟩ | ⟨-, -, -, e⟩ | ⟨-, -, -, e⟩
      · rw [e] at h; cases h; exact ⟨ptIdentityOf_valid hP, rfl, rfl, rfl⟩
      · rw [e] at h
        have vy2 : (⟨y2, P.prime⟩ : FE).Valid := by rw [hc.2.2]; exact vR.2.1
        obtain ⟨hv, h1, h2⟩ := ptChord_valid (x1 := ⟨x1, P.prime⟩) vy2 hP.1 hP.2.1 h
        exact ⟨hv, sameCurve_of_fe h1 h2⟩
      · rw [e] at h; cases h; exact ⟨ptIdentityOf_valid hP, rfl, rfl, rfl⟩
      · rw [e] at h
        obtain ⟨hv, h1, h2⟩ := ptTangent_valid (x1 := ⟨x1, P.prime⟩) vP.1 hP.1 hP.2.1 h
        exact ⟨hv, sameCurve_of_fe h1 h2⟩
  · rw [ptAdd_incompatible hc] at h; cases h

theorem SameCurve.trans {P R S : Pt} (h : SameCurve P R) (h' : SameCurve R S) : SameCurve P S :=
  ⟨h.1.trans h'.1, h.2.1.trans h'.2.1, h.2.2.trans h'.2.2⟩

theorem SameCurve.symm {P R : Pt} (h : SameCurve P R) : SameCurve R P := ⟨h.1.symm, h.2.1.symm, h.2.2.symm⟩

theorem ptMulBit_valid {res cur r' : Pt} {k : Nat} (hr : res.Valid) (hc : cur.Valid)
    (h : ptMulBit res cur k = .ok r') : r'.Valid ∧ SameCurve res r' := by
  unfold ptMulBit at h
  split at h
  · exact ptAdd_valid hr hc h
  · cases h; exact ⟨hr, rfl, rfl, rfl⟩

/-- The double-and-add loop keeps the curve and validity (R135, R149). -/
theorem ptMulLoop_valid {fuel : Nat} {res cur S : Pt} {k : Nat} (hr : res.Valid) (hc : cur.Valid)
    (hs : SameCurve res cur) (h : ptMulLoop fuel res cur k = .ok S) : S.Valid ∧ SameCurve res S := by
  induction fuel generalizing res cur k with
  | zero => simp only [ptMulLoop] at h; cases h; exact ⟨hr, rfl, rfl, rfl⟩
  | succ fuel ih =>
    simp only [ptMulLoop] at h
    split at h
    · cases h; exact ⟨hr, rfl, rfl, rfl⟩
    · simp only [bind, Except.bind] at h
      split at h; · cases h
      next r' hr' =>
      split at h; · cases h
      next c' hc' =>
      have hc'' := ptAdd_valid hc hc hc'
      have hr'' := ptMulBit_valid hr hc hr'
      obtain ⟨hv, hsame⟩ := ih hr''.1 hc''.1 ((hr''.2.symm.trans hs).trans hc''.2) h
      exact ⟨hv, hr''.2.trans hsame⟩

/-- What `pt_mul` answers is a valid point of the operand's curve (R135, R149). -/
theorem ptMul_valid {P S : Pt} {k : Int} (hP : P.Valid) (h : ptMul P k = .ok S) : S.Valid ∧ SameCurve P S := by
  unfold ptMul at h
  split at h
  · cases h
  · split at h
    · cases h; exact ⟨hP, rfl, rfl, rfl⟩
    · obtain ⟨hv, hs⟩ := ptMulLoop_valid (ptIdentityOf_valid hP) hP ⟨rfl, rfl, rfl⟩ h
      exact ⟨hv, hs⟩

/-! ### Over an odd prime the group law never leaves the curve -/

/-- Over a prime, the Fermat power of a non-zero element is its inverse (R107). -/
theorem feInv_zmod {v p : U256} (hv : v.toNat < p.toNat) (hp : p.toNat.Prime) (h0 : v ≠ 0#256) :
    ∃ w : U256, feInv ⟨v, p⟩ = .ok ⟨w, p⟩ ∧ w.toNat < p.toNat ∧ (w.toNat : ZMod p.toNat) * (v.toNat : ZMod p.toNat) = 1 := by
  have h1 : p ≠ 1#256 := by
    intro h; rw [h] at hp; exact absurd hp (by simp [Nat.not_prime_one])
  have hlt := Nat.mod_lt (v.toNat ^ (p.toNat - 2)) hp.pos
  have hb := p.isLt
  refine ⟨_, feInv_ok h1, ofNat_mod_valid hp.pos, ?_⟩
  simp only
  rw [BitVec.toNat_ofNat, Nat.mod_eq_of_lt (by omega), ZMod.natCast_mod]
  push_cast
  rw [← pow_succ]
  have e : p.toNat - 2 + 1 = p.toNat - 1 := by have := hp.two_le; omega
  rw [e]
  have : Fact p.toNat.Prime := ⟨hp⟩
  apply ZMod.pow_card_sub_one_eq_one
  intro hz
  apply h0
  apply BitVec.eq_of_toNat_eq
  rw [ZMod.natCast_eq_zero_iff] at hz
  simpa using Nat.eq_zero_of_dvd_of_lt hz hv

/-- Over a prime, dividing by a non-zero element answers `m` with `m · v = u`. -/
theorem feDiv_zmod {u v p : U256} (hv : v.toNat < p.toNat) (hp : p.toNat.Prime) (h0 : v ≠ 0#256) :
    ∃ m : U256, feDiv ⟨u, p⟩ ⟨v, p⟩ = .ok ⟨m, p⟩ ∧ m.toNat < p.toNat ∧
      (m.toNat : ZMod p.toNat) * (v.toNat : ZMod p.toNat) = (u.toNat : ZMod p.toNat) := by
  obtain ⟨w, hw, -, hinv⟩ := feInv_zmod hv hp h0
  refine ⟨(residue ((u.toNat : Int) * w.toNat) p).num, ?_, residue_valid _ hp.pos, ?_⟩
  · simp only [feDiv, feCompat_ok, hw, bind, Except.bind, pure, Except.pure]
    rfl
  · rw [residue_zmod _ hp.pos]
    push_cast
    rw [mul_assoc, hinv, mul_one]

/-- Over a prime, the chord of two points with different `x` is a point of the curve. -/
theorem ptChord_ok {x1 y1 x2 y2 a b p : U256} (hp : p.toNat.Prime)
    (hx1 : x1.toNat < p.toNat) (hx2 : x2.toNat < p.toNat)
    (h1 : OnCurve x1.toNat y1.toNat a.toNat b.toNat p.toNat)
    (h2 : OnCurve x2.toNat y2.toNat a.toNat b.toNat p.toNat) (hne : x1 ≠ x2) :
    ∃ S, ptChord ⟨x1, p⟩ ⟨y1, p⟩ ⟨x2, p⟩ ⟨y2, p⟩ ⟨a, p⟩ ⟨b, p⟩ = .ok S := by
  have hpos : 0 < p.toNat := hp.pos
  have : Fact p.toNat.Prime := ⟨hp⟩
  rw [onCurve_iff_zmod] at h1 h2
  have hdx : (x2.toNat : ZMod p.toNat) - x1.toNat ≠ 0 := by
    intro h
    exact hne ((zmod_eq_iff hx2 hx1).mp (sub_eq_zero.mp h)).symm
  have hdx0 : (residue ((x2.toNat : Int) - x1.toNat) p).num ≠ 0#256 := by
    intro h
    have := residue_zmod ((x2.toNat : Int) - x1.toNat) hpos
    rw [h] at this
    push_cast at this
    exact hdx (by simpa using this.symm)
  obtain ⟨m, hm, -, hmz⟩ := feDiv_zmod (p := p) (u := (residue ((y2.toNat : Int) - y1.toNat) p).num)
    (v := (residue ((x2.toNat : Int) - x1.toNat) p).num) (residue_valid ((x2.toNat : Int) - x1.toNat) hpos) hp hdx0
  rw [residue_zmod _ hpos, residue_zmod _ hpos] at hmz
  push_cast at hmz
  have hq := chord_quotient h1 h2 hdx hmz
  have hthird := third_point_on_curve h1 hq
  have hm' : feDiv (residue ((y2.toNat : Int) - y1.toNat) p) (residue ((x2.toNat : Int) - x1.toNat) p)
      = .ok ⟨m, p⟩ := hm
  unfold ptChord
  rw [feSub_ok (by rfl), feSub_ok (by rfl)]
  simp only [bind, Except.bind]
  rw [hm']
  simp only
  rw [feMul_ok (by rfl)]
  simp only
  rw [feSub_ok (by rfl)]
  simp only
  rw [feSub_ok (by rfl)]
  simp only
  rw [feSub_ok (by rfl)]
  simp only
  rw [feMul_ok (by rfl)]
  simp only
  rw [feSub_ok (by rfl)]
  simp only [residue_prime, ptNew_residue hpos]
  rw [if_pos]
  · exact ⟨_, rfl⟩
  · rw [onCurve_iff_zmod]
    simp only [residue_zmod _ hpos, Int.cast_sub, Int.cast_mul, Int.cast_natCast]
    exact hthird

/-- Over an odd prime, the tangent at a point with `y ≠ 0` meets the curve again in a point of the curve. -/
theorem ptTangent_ok {x1 y1 a b p : U256} (hp : p.toNat.Prime) (hodd : p.toNat ≠ 2)
    (hy1 : y1.toNat < p.toNat)
    (h1 : OnCurve x1.toNat y1.toNat a.toNat b.toNat p.toNat) (hne : y1 ≠ 0#256) :
    ∃ S, ptTangent ⟨x1, p⟩ ⟨y1, p⟩ ⟨a, p⟩ ⟨b, p⟩ = .ok S := by
  have hpos : 0 < p.toNat := hp.pos
  have : Fact p.toNat.Prime := ⟨hp⟩
  rw [onCurve_iff_zmod] at h1
  have htwo : (2 : ZMod p.toNat) ≠ 0 := by
    intro h
    have h' : ((2 : Nat) : ZMod p.toNat) = 0 := by exact_mod_cast h
    rw [ZMod.natCast_eq_zero_iff] at h'
    exact hodd ((Nat.prime_dvd_prime_iff_eq hp Nat.prime_two).mp h')
  have hy : (y1.toNat : ZMod p.toNat) ≠ 0 := by
    intro h
    rw [ZMod.natCast_eq_zero_iff] at h
    exact hne (BitVec.eq_of_toNat_eq (by simpa using Nat.eq_zero_of_dvd_of_lt h hy1))
  have hden0 : (feScale 2 ⟨y1, p⟩).num ≠ 0#256 := by
    intro h
    have := residue_zmod ((2 : Nat) * (y1.toNat : Int)) hpos
    rw [show (residue (((2 : Nat) : Int) * (y1.toNat : Int)) p).num = 0#256 from h] at this
    push_cast at this
    have h0 : (2 : ZMod p.toNat) * y1.toNat = 0 := by simpa using this.symm
    exact (mul_ne_zero htwo hy) h0
  obtain ⟨m, hm, -, hmz⟩ := feDiv_zmod (p := p) (v := (feScale 2 ⟨y1, p⟩).num)
    (u := (residue (((feScale 3 (residue ((x1.toNat : Int) * x1.toNat) p)).num.toNat : Int) + a.toNat) p).num)
    (residue_valid (((2 : Nat) : Int) * (y1.toNat : Int)) hpos) hp hden0
  simp only [feScale, residue_prime] at hmz hm
  simp only [residue_zmod _ hpos, Int.cast_add, Int.cast_mul, Int.cast_natCast] at hmz
  have hq : (x1.toNat : ZMod p.toNat) * x1.toNat + x1.toNat * x1.toNat + x1.toNat * x1.toNat + a.toNat
      - m.toNat * m.toNat * (x1.toNat - x1.toNat) - 2 * m.toNat * y1.toNat = 0 := by
    push_cast at hmz
    linear_combination -hmz
  have hthird := third_point_on_curve h1 hq
  have hm' : feDiv (residue (((residue (((3 : Nat) : Int) * (residue ((x1.toNat : Int) * x1.toNat) p).num.toNat) p).num.toNat
      : Int) + a.toNat) p) (residue (((2 : Nat) : Int) * y1.toNat) p) = .ok ⟨m, p⟩ := hm
  have h3 : feAdd (residue (((3 : Nat) : Int) * (residue ((x1.toNat : Int) * x1.toNat) p).num.toNat) p) ⟨a, p⟩ = _ :=
    feAdd_ok rfl
  have h2 : feSub (residue ((m.toNat : Int) * m.toNat) p) (residue (((2 : Nat) : Int) * x1.toNat) p) = _ :=
    feSub_ok rfl
  unfold ptTangent feScale
  rw [feMul_ok (by rfl)]
  simp only [residue_prime, bind, Except.bind]
  rw [h3]
  simp only [residue_prime]
  rw [hm']
  simp only
  rw [feMul_ok (by rfl)]
  simp only
  rw [h2]
  simp only [residue_prime]
  rw [feSub_ok (by rfl)]
  simp only
  rw [feMul_ok (by rfl)]
  simp only
  rw [feSub_ok (by rfl)]
  simp only [residue_prime, ptNew_residue hpos]
  rw [if_pos]
  · exact ⟨_, rfl⟩
  · rw [onCurve_iff_zmod]
    simp only [residue_zmod _ hpos, Int.cast_sub, Int.cast_mul, Int.cast_natCast]
    have e : (m.toNat : ZMod p.toNat) * m.toNat - (2 : Nat) * x1.toNat =
        m.toNat * m.toNat - x1.toNat - x1.toNat := by push_cast; ring
    rw [e]
    exact hthird

/-- Over an odd prime `pt_add` of two valid points of one curve always answers (R132, R221 but for prime 2). -/
theorem ptAdd_ok {P R : Pt} (hP : P.Valid) (hR : R.Valid) (hs : SameCurve P R) (hp : P.prime.toNat.Prime)
    (hodd : P.prime.toNat ≠ 2) : ∃ S, ptAdd P R = .ok S := by
  rcases ptAdd_cases hs with ⟨-, e⟩ | ⟨-, -, e⟩ | ⟨x1, y1, x2, y2, hPc, hRc, hcase⟩
  · exact ⟨_, e⟩
  · exact ⟨_, e⟩
  · have vP := hP.2.2; rw [hPc] at vP
    have vR := hR.2.2; rw [hRc] at vR
    rcases hcase with ⟨-, -, e⟩ | ⟨hne, e⟩ | ⟨-, -, -, e⟩ | ⟨-, -, hy0, e⟩
    · exact ⟨_, e⟩
    · rw [e]
      refine ptChord_ok hp vP.1 (hs.2.2 ▸ vR.1) vP.2.2 ?_ hne
      have := vR.2.2
      rw [hs.1, hs.2.1, hs.2.2]; exact this
    · exact ⟨_, e⟩
    · rw [e]
      exact ptTangent_ok hp hodd vP.2.1 vP.2.2 hy0

/-- Over an odd prime the double-and-add loop always answers. -/
theorem ptMulLoop_ok {fuel : Nat} {res cur : Pt} {k : Nat} (hr : res.Valid) (hc : cur.Valid) (hs : SameCurve res cur)
    (hp : cur.prime.toNat.Prime) (hodd : cur.prime.toNat ≠ 2) : ∃ S, ptMulLoop fuel res cur k = .ok S := by
  induction fuel generalizing res cur k with
  | zero => exact ⟨_, rfl⟩
  | succ fuel ih =>
    simp only [ptMulLoop]
    split
    · exact ⟨_, rfl⟩
    · obtain ⟨c', hc'⟩ := ptAdd_ok hc hc ⟨rfl, rfl, rfl⟩ hp hodd
      have vc' := ptAdd_valid hc hc hc'
      have hres : ∃ r', ptMulBit res cur k = .ok r' := by
        unfold ptMulBit
        split
        · exact ptAdd_ok hr hc hs (hs.2.2 ▸ hp) (hs.2.2 ▸ hodd)
        · exact ⟨_, rfl⟩
      obtain ⟨r', hr'⟩ := hres
      have vr' := ptMulBit_valid hr hc hr'
      simp only [bind, Except.bind, hr', hc']
      have e := vc'.2.2.2
      exact ih vr'.1 vc'.1 ((vr'.2.symm.trans hs).trans vc'.2) (e ▸ hp) (e ▸ hodd)

/-- Over an odd prime `pt_mul` of a valid point by a non-negative scalar always answers (R135). -/
theorem ptMul_ok {P : Pt} {k : Int} (hP : P.Valid) (hk : 0 ≤ k) (hp : P.prime.toNat.Prime)
    (hodd : P.prime.toNat ≠ 2) : ∃ S, ptMul P k = .ok S := by
  unfold ptMul
  rw [if_neg (by omega)]
  split
  · exact ⟨_, rfl⟩
  · exact ptMulLoop_ok (ptIdentityOf_valid hP) hP ⟨rfl, rfl, rfl⟩ hp hodd

end Sys2Proof.Machine
end

