-- ==== Sys2Proof/Laws/Decode.lean ====
section
/-!
SUPPORT. The fields of a word: a word is its seven fields, and a row of the opcode map matches a word exactly when
the opcode is the row's and the fields fit its shape.
-/

namespace Sys2Proof

/-- The fields of a word (R70). -/
def Fields.ofWord (w : Word) : Fields where
  op := w.extractLsb' 24 8
  rd := w.extractLsb' 20 4
  ra := w.extractLsb' 16 4
  rb := w.extractLsb' 12 4
  rc := w.extractLsb' 8 4
  re := w.extractLsb' 4 4
  fl := w.extractLsb' 0 4

/-- The number of a word of fields. -/
theorem Fields.word_toNat (f : Fields) : f.word.toNat =
    f.op.toNat * 2 ^ 24 + f.rd.toNat * 2 ^ 20 + f.ra.toNat * 2 ^ 16 + f.rb.toNat * 2 ^ 12 + f.rc.toNat * 2 ^ 8
      + f.re.toNat * 2 ^ 4 + f.fl.toNat := by
  have := f.rd.isLt; have := f.ra.isLt; have := f.rb.isLt; have := f.rc.isLt; have := f.re.isLt; have := f.fl.isLt
  simp only [Fields.word, BitVec.toNat_append]
  rw [← Nat.shiftLeft_add_eq_or_of_lt (by assumption), ← Nat.shiftLeft_add_eq_or_of_lt (by assumption),
    ← Nat.shiftLeft_add_eq_or_of_lt (by assumption), ← Nat.shiftLeft_add_eq_or_of_lt (by assumption),
    ← Nat.shiftLeft_add_eq_or_of_lt (by assumption), ← Nat.shiftLeft_add_eq_or_of_lt (by assumption)]
  simp only [Nat.shiftLeft_eq]
  omega

/-- The fields of a word built from fields. -/
theorem Fields.ofWord_word (f : Fields) : Fields.ofWord f.word = f := by
  have h := f.word_toNat
  have := f.op.isLt; have := f.rd.isLt; have := f.ra.isLt; have := f.rb.isLt; have := f.rc.isLt; have := f.re.isLt
  have := f.fl.isLt
  obtain ⟨op, rd, ra, rb, rc, re, fl⟩ := f
  simp only [Fields.ofWord, Fields.mk.injEq]
  simp only at *
  refine ⟨?_, ?_, ?_, ?_, ?_, ?_, ?_⟩ <;> apply BitVec.eq_of_toNat_eq <;>
    simp only [BitVec.extractLsb'_toNat, Nat.shiftRight_eq_div_pow, h] <;> omega

/-- A word is its seven fields. -/
theorem Fields.word_ofWord (w : Word) : (Fields.ofWord w).word = w := by
  apply BitVec.eq_of_toNat_eq
  rw [Fields.word_toNat]
  have := w.isLt
  simp only [Fields.ofWord, BitVec.extractLsb'_toNat, Nat.shiftRight_eq_div_pow]
  omega

/-- Concatenations are equal exactly when both parts are. -/
theorem append_eq_append_iff {n m : Nat} {a c : BitVec n} {b d : BitVec m} : a ++ b = c ++ d ↔ a = c ∧ b = d := by
  constructor
  · intro h
    have h' := congrArg BitVec.toNat h
    simp only [BitVec.toNat_append] at h'
    rw [← Nat.shiftLeft_add_eq_or_of_lt b.isLt, ← Nat.shiftLeft_add_eq_or_of_lt d.isLt] at h'
    simp only [Nat.shiftLeft_eq] at h'
    have hb := b.isLt
    have hd := d.isLt
    have e1 : a.toNat = c.toNat := by
      have := congrArg (· / 2 ^ m) h'
      simp only [Nat.add_comm (_ * _), Nat.add_mul_div_right _ _ (Nat.two_pow_pos m), Nat.div_eq_of_lt hb,
        Nat.div_eq_of_lt hd] at this
      omega
    refine ⟨BitVec.eq_of_toNat_eq e1, BitVec.eq_of_toNat_eq ?_⟩
    rw [e1] at h'; omega
  · rintro ⟨rfl, rfl⟩; rfl

/-- Masking and comparing a word of fields is masking and comparing each field. -/
theorem and_fields_eq_iff (a a' a'' : BitVec 8) (b b' b'' c c' c'' d d' d'' e e' e'' g g' g'' h h' h'' : BitVec 4) :
    (a ++ b ++ c ++ d ++ e ++ g ++ h) &&& (a' ++ b' ++ c' ++ d' ++ e' ++ g' ++ h') =
      a'' ++ b'' ++ c'' ++ d'' ++ e'' ++ g'' ++ h'' ↔
    a &&& a' = a'' ∧ b &&& b' = b'' ∧ c &&& c' = c'' ∧ d &&& d' = d'' ∧ e &&& e' = e'' ∧ g &&& g' = g'' ∧
      h &&& h' = h'' := by
  simp only [BitVec.and_append, append_eq_append_iff]
  tauto

/-- A row's pattern, field by field. -/
theorem Row.pattern_fields (r : Row) : r.pattern = r.op ++ 0#4 ++ 0#4 ++ 0#4 ++ 0#4 ++ 0#4 ++ 0#4 := by
  apply BitVec.eq_of_toNat_eq
  simp only [Row.pattern, BitVec.toNat_append]
  simp [Nat.shiftLeft_eq]
  omega

/-- A row matches a word of fields exactly when the opcode is the row's and the fields fit the row's shape. -/
theorem Row.isMatch_word (r : Row) (f : Fields) : r.isMatch f.word = (f.op == r.op && f.fits r.fmt) := by
  have hff : ∀ x : BitVec 8, x &&& 0xFF#8 = x := by decide
  have key := and_fields_eq_iff f.op 0xFF#8 r.op f.rd (fieldMask r.fmt.usesRd) 0#4 f.ra (fieldMask r.fmt.usesRa) 0#4
    f.rb (fieldMask r.fmt.usesRb) 0#4 f.rc (fieldMask r.fmt.usesRcRe) 0#4 f.re (fieldMask r.fmt.usesRcRe) 0#4
    f.fl r.fmt.flMask 0#4
  rw [hff] at key
  rw [Bool.eq_iff_iff, Row.isMatch, beq_iff_eq, Row.pattern_fields]
  refine key.trans ?_
  simp only [Fields.fits, Bool.and_eq_true, beq_iff_eq]
  tauto

/-- The same for any word. -/
theorem Row.isMatch_iff (r : Row) (w : Word) :
    r.isMatch w = true ↔ (Fields.ofWord w).op = r.op ∧ (Fields.ofWord w).fits r.fmt = true := by
  conv_lhs => rw [← Fields.word_ofWord w]
  simp [Row.isMatch_word]

/-- The opcodes of the map are distinct, so at most one row matches (R79). -/
theorem opcodeMap_distinct : opcodeMap.Pairwise (fun r r' => r.op ≠ r'.op) := by decide

/-- A 3-bit index read from a 4-bit field of a register is the register. -/
theorem regField_low (r : Reg) : ((regField r).extractLsb' 0 3).toFin = r := by
  revert r; decide

/-- The field of a register fits a used field. -/
theorem regField_fits (r : Reg) : regField r &&& fieldMask true = 0#4 := by revert r; decide

/-- The operands of a word are the low three bits of its register fields, and bit 0 of the flags. -/
theorem operandsOf_word (f : Fields) : operandsOf f.word =
    ⟨(f.rd.extractLsb' 0 3).toFin, (f.ra.extractLsb' 0 3).toFin, (f.rb.extractLsb' 0 3).toFin,
      (f.rc.extractLsb' 0 3).toFin, (f.re.extractLsb' 0 3).toFin, f.fl.getLsbD 0⟩ := by
  have h := f.word_toNat
  have := f.op.isLt; have := f.rd.isLt; have := f.ra.isLt; have := f.rb.isLt; have := f.rc.isLt; have := f.re.isLt
  have := f.fl.isLt
  obtain ⟨op, rd, ra, rb, rc, re, fl⟩ := f
  simp only at *
  have e : ∀ (x : BitVec 4) (k : Nat), ((Fields.word ⟨op, rd, ra, rb, rc, re, fl⟩).toNat / 2 ^ k) % 8 = x.toNat % 8 →
      ((Fields.word ⟨op, rd, ra, rb, rc, re, fl⟩).extractLsb' k 3).toFin = (x.extractLsb' 0 3).toFin := by
    intro x k hx
    congr 1
    apply BitVec.eq_of_toNat_eq
    simpa [BitVec.extractLsb'_toNat, Nat.shiftRight_eq_div_pow] using hx
  simp only [operandsOf, Operands.mk.injEq]
  refine ⟨e _ _ ?_, e _ _ ?_, e _ _ ?_, e _ _ ?_, e _ _ ?_, ?_⟩
  · rw [h]; omega
  · rw [h]; omega
  · rw [h]; omega
  · rw [h]; omega
  · rw [h]; omega
  · simp only [← BitVec.testBit_toNat, Nat.testBit_zero, h]
    congr 1; rw [eq_iff_iff]; omega

/-! ### The decoder -/

/-- Two rows of the map with one opcode are one row (R73). -/
theorem row_unique {r r' : Row} (hr : r ∈ opcodeMap) (hr' : r' ∈ opcodeMap) (h : r.op = r'.op) : r = r' :=
  List.inj_on_of_nodup_map (f := Row.op) (by decide) hr hr' h

/-- A word that matches a row of the map is that row's command (R79); at most one row matches. -/
theorem decode_of_match {r : Row} {w : Word} (hr : r ∈ opcodeMap) (hm : r.isMatch w = true) :
    decode w = .command (r.build (operandsOf w)) := by
  unfold decode
  cases hf : opcodeMap.find? (fun r => r.isMatch w) with
  | none => exact absurd hm (by simpa using List.find?_eq_none.mp hf r hr)
  | some r' =>
    have hr' := List.mem_of_find?_eq_some hf
    have hm' := List.find?_some hf
    rw [row_unique hr' hr (((Row.isMatch_iff r' w).mp hm').1.symm.trans ((Row.isMatch_iff r w).mp hm).1)]

/-- A word is illegal exactly when it matches no row (R75). -/
theorem decode_illegal_iff {w : Word} : decode w = .illegal ↔ ∀ r ∈ opcodeMap, r.isMatch w = false := by
  unfold decode
  cases hf : opcodeMap.find? (fun r => r.isMatch w) with
  | none => simpa using List.find?_eq_none.mp hf
  | some r =>
    simp only [reduceCtorEq, false_iff]
    intro h
    have := h r (List.mem_of_find?_eq_some hf)
    rw [List.find?_some hf] at this
    cases this

end Sys2Proof
end

