-- ==== Sys2Proof/Laws/Memory.lean ====
section
/-!
SUPPORT. SECBUF as memory: read after write, and that every write keeps the canonical form.
-/

namespace Sys2Proof.Machine

@[simp] theorem Memory.read_nil (j : Nat) : Memory.read [] j = Memory.unlisted := rfl

/-- An address that is not listed reads `unlisted`. -/
theorem Memory.read_of_not_mem {m : Memory} {j : Nat} (h : ∀ c ∈ m, c.1 ≠ j) : Memory.read m j = Memory.unlisted := by
  induction m with
  | nil => rfl
  | cons c m ih =>
    have hc : c.1 ≠ j := h c (by simp)
    simp only [Memory.read, if_neg hc]
    exact ih fun d hd => h d (by simp [hd])

/-- In a canonical memory, below the first listed address everything is unlisted. -/
theorem Memory.read_lt_first {a j : Nat} {b : Byte} {m : Memory}
    (h : ((a, b) :: m : Memory).Pairwise (fun c d => c.1 < d.1)) (hj : j < a) :
    Memory.read ((a, b) :: m) j = Memory.unlisted := by
  apply Memory.read_of_not_mem
  intro c hc
  rcases List.mem_cons.mp hc with rfl | hc
  · exact (Nat.ne_of_gt hj)
  · have := (List.pairwise_cons.mp h).1 c hc
    simp only at this; omega

theorem Memory.read_put {m : Memory} {j i : Nat} {v : Byte} (hj : Memory.read m j = Memory.unlisted) :
    Memory.read (Memory.put j v m) i = if i = j then v else Memory.read m i := by
  unfold Memory.put
  split
  · subst_vars
    split
    · subst_vars; exact hj
    · rfl
  · simp only [Memory.read]
    by_cases h : j = i
    · simp [h]
    · simp [h, Ne.symm h]

/-- Read after write, on a canonical memory. -/
theorem Memory.read_write {m : Memory} (hm : m.Pairwise (fun c d => c.1 < d.1)) (j i : Nat) (v : Byte) :
    Memory.read (Memory.write m j v) i = if i = j then v else Memory.read m i := by
  induction m with
  | nil => simp only [Memory.write]; exact Memory.read_put rfl
  | cons c m ih =>
    obtain ⟨a, b⟩ := c
    have htail := (List.pairwise_cons.mp hm).2
    simp only [Memory.write]
    split
    · next h => exact Memory.read_put (Memory.read_lt_first hm h)
    · split
      · next h1 h2 =>
        subst h2
        have hn : Memory.read m j = Memory.unlisted :=
          Memory.read_of_not_mem fun c hc => by
            have := (List.pairwise_cons.mp hm).1 c hc
            simp only at this; omega
        rw [Memory.read_put hn]
        simp only [Memory.read]
        split
        · rfl
        · next h => simp [Ne.symm h]
      · next h1 h2 =>
        simp only [Memory.read]
        by_cases h : a = i
        · subst h; simp [Ne.symm h2]
        · simp [h, ih htail]

/-- Where the entries of a write come from. -/
theorem Memory.mem_write {m : Memory} {j : Nat} {v : Byte} {c : Host.Cell} (h : c ∈ Memory.write m j v) :
    c ∈ m ∨ (c = (j, v) ∧ v ≠ Memory.unlisted) := by
  have hput : ∀ l : Memory, c ∈ Memory.put j v l → c ∈ l ∨ (c = (j, v) ∧ v ≠ Memory.unlisted) := by
    intro l hl
    unfold Memory.put at hl
    split at hl
    · exact .inl hl
    · next hv =>
      rcases List.mem_cons.mp hl with rfl | hl
      · exact .inr ⟨rfl, hv⟩
      · exact .inl hl
  induction m with
  | nil => exact hput _ h
  | cons d m ih =>
    obtain ⟨a, b⟩ := d
    simp only [Memory.write] at h
    split at h
    · exact hput _ h
    · split at h
      · rcases hput _ h with h | h
        · exact .inl (List.mem_cons_of_mem _ h)
        · exact .inr h
      · rcases List.mem_cons.mp h with rfl | h
        · exact .inl (by simp)
        · rcases ih h with h | h
          · exact .inl (List.mem_cons_of_mem _ h)
          · exact .inr h

theorem Memory.pairwise_put {m : Memory} {j : Nat} {v : Byte} (hm : m.Pairwise (fun c d => c.1 < d.1))
    (hj : ∀ c ∈ m, j < c.1) : (Memory.put j v m).Pairwise (fun c d => c.1 < d.1) := by
  unfold Memory.put
  split
  · exact hm
  · exact List.pairwise_cons.mpr ⟨fun c hc => hj c hc, hm⟩

theorem Memory.pairwise_write {m : Memory} (hm : m.Pairwise (fun c d => c.1 < d.1)) (j : Nat) (v : Byte) :
    (Memory.write m j v).Pairwise (fun c d => c.1 < d.1) := by
  induction m with
  | nil => exact Memory.pairwise_put hm (by simp)
  | cons d m ih =>
    obtain ⟨a, b⟩ := d
    have h1 := (List.pairwise_cons.mp hm).1
    have h2 := (List.pairwise_cons.mp hm).2
    simp only [Memory.write]
    split
    · next h =>
      refine Memory.pairwise_put hm fun c hc => ?_
      rcases List.mem_cons.mp hc with rfl | hc
      · exact h
      · have := h1 c hc; simp only at this; omega
    · split
      · next hj =>
        subst hj
        exact Memory.pairwise_put h2 h1
      · next hlt hne =>
        refine List.pairwise_cons.mpr ⟨fun c hc => ?_, ih h2⟩
        rcases Memory.mem_write hc with hc | ⟨rfl, -⟩
        · exact h1 c hc
        · simp only; omega

/-- A write inside SECBUF keeps the canonical form. -/
theorem Memory.wf_write {m : Memory} (hm : m.wf) {j : Nat} (hj : j < secSize) (v : Byte) :
    (Memory.write m j v).wf := by
  refine ⟨Memory.pairwise_write hm.1 j v, fun c hc => ?_⟩
  rcases Memory.mem_write hc with hc | ⟨rfl, hv⟩
  · exact hm.2 c hc
  · exact ⟨hj, hv⟩

/-- Writing bytes inside SECBUF keeps the canonical form. -/
theorem Memory.wf_writeBytes {vs : List Byte} {m : Memory} (hm : m.wf) {j : Nat} (hj : j + vs.length ≤ secSize) :
    (Memory.writeBytes m j vs).wf := by
  induction vs generalizing m j with
  | nil => exact hm
  | cons v vs ih =>
    simp only [List.length_cons] at hj
    exact ih (Memory.wf_write hm (by omega) v) (by omega)

/-- Read after writing a byte list: inside the written range the bytes written, elsewhere what was there. -/
theorem Memory.read_writeBytes {vs : List Byte} {m : Memory} (hm : m.Pairwise (fun c d => c.1 < d.1)) (j i : Nat) :
    Memory.read (Memory.writeBytes m j vs) i =
      if h : j ≤ i ∧ i - j < vs.length then vs[i - j]'h.2 else Memory.read m i := by
  induction vs generalizing m j with
  | nil => simp [Memory.writeBytes]
  | cons v vs ih =>
    simp only [Memory.writeBytes, List.length_cons]
    rw [ih (Memory.pairwise_write hm j v), Memory.read_write hm]
    by_cases hij : i = j
    · subst hij; simp
    · by_cases hlt : j < i
      · have e : i - j = (i - (j + 1)) + 1 := by omega
        by_cases hlen : i - (j + 1) < vs.length
        · have h1 : j + 1 ≤ i ∧ i - (j + 1) < vs.length := ⟨hlt, hlen⟩
          have h2 : j ≤ i ∧ i - j < vs.length + 1 := ⟨by omega, by omega⟩
          rw [dif_pos h1, dif_pos h2]
          simp [e]
        · have h1 : ¬(j + 1 ≤ i ∧ i - (j + 1) < vs.length) := fun h => hlen h.2
          have h2 : ¬(j ≤ i ∧ i - j < vs.length + 1) := fun h => hlen (by omega)
          rw [dif_neg h1, dif_neg h2, if_neg hij]
      · have h1 : ¬(j + 1 ≤ i ∧ i - (j + 1) < vs.length) := fun h => by omega
        have h2 : ¬(j ≤ i ∧ i - j < vs.length + 1) := fun h => by omega
        rw [dif_neg h1, dif_neg h2, if_neg hij]

theorem Memory.length_readBytes (m : Memory) (j n : Nat) : (Memory.readBytes m j n).length = n := by
  induction n generalizing j with
  | zero => rfl
  | succ n ih => simp [Memory.readBytes, ih]

/-- Reading bytes is reading each one. -/
theorem Memory.getElem_readBytes (m : Memory) (j n i : Nat) (h : i < (Memory.readBytes m j n).length) :
    (Memory.readBytes m j n)[i] = Memory.read m (j + i) := by
  induction n generalizing j i with
  | zero => simp [Memory.readBytes] at h
  | succ n ih =>
    cases i with
    | zero => simp [Memory.readBytes]
    | succ i =>
      simp only [Memory.readBytes, List.getElem_cons_succ]
      rw [ih]
      congr 1; omega

/-- Two canonical memories that read alike are equal: equal contents are equal data. -/
theorem Memory.ext_of_wf {m m' : Memory} (hm : m.wf) (hm' : m'.wf) (h : ∀ j, Memory.read m j = Memory.read m' j) :
    m = m' := by
  induction m generalizing m' with
  | nil =>
    cases m' with
    | nil => rfl
    | cons c m' =>
      have := h c.1
      have hne := (hm'.2 c (by simp)).2
      simp [Memory.read] at this
      exact absurd this.symm hne
  | cons c m ih =>
    cases m' with
    | nil =>
      have := h c.1
      have hne := (hm.2 c (by simp)).2
      simp [Memory.read] at this
      exact absurd this hne
    | cons d m' =>
      obtain ⟨a, b⟩ := c
      obtain ⟨a', b'⟩ := d
      have hb : b ≠ Memory.unlisted := (hm.2 (a, b) (by simp)).2
      have hb' : b' ≠ Memory.unlisted := (hm'.2 (a', b') (by simp)).2
      have haa : a = a' := by
        rcases Nat.lt_trichotomy a a' with hlt | heq | hgt
        · have h1 := h a
          rw [Memory.read_lt_first hm'.1 hlt] at h1
          simp [Memory.read] at h1
          exact absurd h1 hb
        · exact heq
        · have h1 := h a'
          rw [Memory.read_lt_first hm.1 hgt] at h1
          simp [Memory.read] at h1
          exact absurd h1.symm hb'
      subst haa
      have hbb : b = b' := by simpa [Memory.read] using h a
      subst hbb
      have htail : m = m' := by
        refine ih ⟨(List.pairwise_cons.mp hm.1).2, fun c hc => hm.2 c (by simp [hc])⟩
          ⟨(List.pairwise_cons.mp hm'.1).2, fun c hc => hm'.2 c (by simp [hc])⟩ fun j => ?_
        by_cases hj : a = j
        · subst hj
          rw [Memory.read_of_not_mem, Memory.read_of_not_mem]
          · intro c hc
            have := (List.pairwise_cons.mp hm'.1).1 c hc
            simp only at this; omega
          · intro c hc
            have := (List.pairwise_cons.mp hm.1).1 c hc
            simp only at this; omega
        · simpa [Memory.read, hj] using h j
      rw [htail]

theorem State.reset_secbuf_wf : State.reset.secbuf.wf := by decide

end Sys2Proof.Machine
end

