-- ==== Sys2Proof/Laws/State.lean ====
section
/-!
SUPPORT. What each update of the state does to each field, one lemma a field, true by `rfl`.
-/

namespace Sys2Proof.Machine

/-! ### setF -/

@[simp] theorem State.setF_f (s : State) (i : Reg) (v : FE) : (s.setF i v).f = s.f.set i (some v) := rfl
@[simp] theorem State.setF_q (s : State) (i : Reg) (v : FE) : (s.setF i v).q = s.q := rfl
@[simp] theorem State.setF_k (s : State) (i : Reg) (v : FE) : (s.setF i v).k = s.k := rfl
@[simp] theorem State.setF_busy (s : State) (i : Reg) (v : FE) : (s.setF i v).busy = s.busy := rfl
@[simp] theorem State.setF_done (s : State) (i : Reg) (v : FE) : (s.setF i v).done = s.done := rfl
@[simp] theorem State.setF_errf (s : State) (i : Reg) (v : FE) : (s.setF i v).errf = s.errf := rfl
@[simp] theorem State.setF_t (s : State) (i : Reg) (v : FE) : (s.setF i v).t = s.t := rfl
@[simp] theorem State.setF_ovr (s : State) (i : Reg) (v : FE) : (s.setF i v).ovr = s.ovr := rfl
@[simp] theorem State.setF_errcode (s : State) (i : Reg) (v : FE) : (s.setF i v).errcode = s.errcode := rfl
@[simp] theorem State.setF_errcmd (s : State) (i : Reg) (v : FE) : (s.setF i v).errcmd = s.errcmd := rfl
@[simp] theorem State.setF_ie (s : State) (i : Reg) (v : FE) : (s.setF i v).ie = s.ie := rfl
@[simp] theorem State.setF_seclen (s : State) (i : Reg) (v : FE) : (s.setF i v).seclen = s.seclen := rfl
@[simp] theorem State.setF_secbuf (s : State) (i : Reg) (v : FE) : (s.setF i v).secbuf = s.secbuf := rfl
@[simp] theorem State.setF_pend (s : State) (i : Reg) (v : FE) : (s.setF i v).pend = s.pend := rfl
@[simp] theorem State.setF_rst (s : State) (i : Reg) (v : FE) : (s.setF i v).rst = s.rst := rfl
@[simp] theorem State.setF_inbox (s : State) (i : Reg) (v : FE) : (s.setF i v).inbox = s.inbox := rfl
@[simp] theorem State.setF_replies (s : State) (i : Reg) (v : FE) : (s.setF i v).replies = s.replies := rfl
@[simp] theorem State.setF_draws (s : State) (i : Reg) (v : FE) : (s.setF i v).draws = s.draws := rfl

/-! ### setQ -/

@[simp] theorem State.setQ_f (s : State) (i : Reg) (v : Pt) : (s.setQ i v).f = s.f := rfl
@[simp] theorem State.setQ_q (s : State) (i : Reg) (v : Pt) : (s.setQ i v).q = s.q.set i (some v) := rfl
@[simp] theorem State.setQ_k (s : State) (i : Reg) (v : Pt) : (s.setQ i v).k = s.k := rfl
@[simp] theorem State.setQ_busy (s : State) (i : Reg) (v : Pt) : (s.setQ i v).busy = s.busy := rfl
@[simp] theorem State.setQ_done (s : State) (i : Reg) (v : Pt) : (s.setQ i v).done = s.done := rfl
@[simp] theorem State.setQ_errf (s : State) (i : Reg) (v : Pt) : (s.setQ i v).errf = s.errf := rfl
@[simp] theorem State.setQ_t (s : State) (i : Reg) (v : Pt) : (s.setQ i v).t = s.t := rfl
@[simp] theorem State.setQ_ovr (s : State) (i : Reg) (v : Pt) : (s.setQ i v).ovr = s.ovr := rfl
@[simp] theorem State.setQ_errcode (s : State) (i : Reg) (v : Pt) : (s.setQ i v).errcode = s.errcode := rfl
@[simp] theorem State.setQ_errcmd (s : State) (i : Reg) (v : Pt) : (s.setQ i v).errcmd = s.errcmd := rfl
@[simp] theorem State.setQ_ie (s : State) (i : Reg) (v : Pt) : (s.setQ i v).ie = s.ie := rfl
@[simp] theorem State.setQ_seclen (s : State) (i : Reg) (v : Pt) : (s.setQ i v).seclen = s.seclen := rfl
@[simp] theorem State.setQ_secbuf (s : State) (i : Reg) (v : Pt) : (s.setQ i v).secbuf = s.secbuf := rfl
@[simp] theorem State.setQ_pend (s : State) (i : Reg) (v : Pt) : (s.setQ i v).pend = s.pend := rfl
@[simp] theorem State.setQ_rst (s : State) (i : Reg) (v : Pt) : (s.setQ i v).rst = s.rst := rfl
@[simp] theorem State.setQ_inbox (s : State) (i : Reg) (v : Pt) : (s.setQ i v).inbox = s.inbox := rfl
@[simp] theorem State.setQ_replies (s : State) (i : Reg) (v : Pt) : (s.setQ i v).replies = s.replies := rfl
@[simp] theorem State.setQ_draws (s : State) (i : Reg) (v : Pt) : (s.setQ i v).draws = s.draws := rfl

/-! ### setK -/

@[simp] theorem State.setK_f (s : State) (i : Reg) (v : KInt) : (s.setK i v).f = s.f := rfl
@[simp] theorem State.setK_q (s : State) (i : Reg) (v : KInt) : (s.setK i v).q = s.q := rfl
@[simp] theorem State.setK_k (s : State) (i : Reg) (v : KInt) : (s.setK i v).k = s.k.set i v := rfl
@[simp] theorem State.setK_busy (s : State) (i : Reg) (v : KInt) : (s.setK i v).busy = s.busy := rfl
@[simp] theorem State.setK_done (s : State) (i : Reg) (v : KInt) : (s.setK i v).done = s.done := rfl
@[simp] theorem State.setK_errf (s : State) (i : Reg) (v : KInt) : (s.setK i v).errf = s.errf := rfl
@[simp] theorem State.setK_t (s : State) (i : Reg) (v : KInt) : (s.setK i v).t = s.t := rfl
@[simp] theorem State.setK_ovr (s : State) (i : Reg) (v : KInt) : (s.setK i v).ovr = s.ovr := rfl
@[simp] theorem State.setK_errcode (s : State) (i : Reg) (v : KInt) : (s.setK i v).errcode = s.errcode := rfl
@[simp] theorem State.setK_errcmd (s : State) (i : Reg) (v : KInt) : (s.setK i v).errcmd = s.errcmd := rfl
@[simp] theorem State.setK_ie (s : State) (i : Reg) (v : KInt) : (s.setK i v).ie = s.ie := rfl
@[simp] theorem State.setK_seclen (s : State) (i : Reg) (v : KInt) : (s.setK i v).seclen = s.seclen := rfl
@[simp] theorem State.setK_secbuf (s : State) (i : Reg) (v : KInt) : (s.setK i v).secbuf = s.secbuf := rfl
@[simp] theorem State.setK_pend (s : State) (i : Reg) (v : KInt) : (s.setK i v).pend = s.pend := rfl
@[simp] theorem State.setK_rst (s : State) (i : Reg) (v : KInt) : (s.setK i v).rst = s.rst := rfl
@[simp] theorem State.setK_inbox (s : State) (i : Reg) (v : KInt) : (s.setK i v).inbox = s.inbox := rfl
@[simp] theorem State.setK_replies (s : State) (i : Reg) (v : KInt) : (s.setK i v).replies = s.replies := rfl
@[simp] theorem State.setK_draws (s : State) (i : Reg) (v : KInt) : (s.setK i v).draws = s.draws := rfl

/-! ### setT -/

@[simp] theorem State.setT_f (s : State) (b : Bool) : (s.setT b).f = s.f := rfl
@[simp] theorem State.setT_q (s : State) (b : Bool) : (s.setT b).q = s.q := rfl
@[simp] theorem State.setT_k (s : State) (b : Bool) : (s.setT b).k = s.k := rfl
@[simp] theorem State.setT_busy (s : State) (b : Bool) : (s.setT b).busy = s.busy := rfl
@[simp] theorem State.setT_done (s : State) (b : Bool) : (s.setT b).done = s.done := rfl
@[simp] theorem State.setT_errf (s : State) (b : Bool) : (s.setT b).errf = s.errf := rfl
@[simp] theorem State.setT_t (s : State) (b : Bool) : (s.setT b).t = b := rfl
@[simp] theorem State.setT_ovr (s : State) (b : Bool) : (s.setT b).ovr = s.ovr := rfl
@[simp] theorem State.setT_errcode (s : State) (b : Bool) : (s.setT b).errcode = s.errcode := rfl
@[simp] theorem State.setT_errcmd (s : State) (b : Bool) : (s.setT b).errcmd = s.errcmd := rfl
@[simp] theorem State.setT_ie (s : State) (b : Bool) : (s.setT b).ie = s.ie := rfl
@[simp] theorem State.setT_seclen (s : State) (b : Bool) : (s.setT b).seclen = s.seclen := rfl
@[simp] theorem State.setT_secbuf (s : State) (b : Bool) : (s.setT b).secbuf = s.secbuf := rfl
@[simp] theorem State.setT_pend (s : State) (b : Bool) : (s.setT b).pend = s.pend := rfl
@[simp] theorem State.setT_rst (s : State) (b : Bool) : (s.setT b).rst = s.rst := rfl
@[simp] theorem State.setT_inbox (s : State) (b : Bool) : (s.setT b).inbox = s.inbox := rfl
@[simp] theorem State.setT_replies (s : State) (b : Bool) : (s.setT b).replies = s.replies := rfl
@[simp] theorem State.setT_draws (s : State) (b : Bool) : (s.setT b).draws = s.draws := rfl

/-! ### setSecbuf -/

@[simp] theorem State.setSecbuf_f (s : State) (m : Memory) : (s.setSecbuf m).f = s.f := rfl
@[simp] theorem State.setSecbuf_q (s : State) (m : Memory) : (s.setSecbuf m).q = s.q := rfl
@[simp] theorem State.setSecbuf_k (s : State) (m : Memory) : (s.setSecbuf m).k = s.k := rfl
@[simp] theorem State.setSecbuf_busy (s : State) (m : Memory) : (s.setSecbuf m).busy = s.busy := rfl
@[simp] theorem State.setSecbuf_done (s : State) (m : Memory) : (s.setSecbuf m).done = s.done := rfl
@[simp] theorem State.setSecbuf_errf (s : State) (m : Memory) : (s.setSecbuf m).errf = s.errf := rfl
@[simp] theorem State.setSecbuf_t (s : State) (m : Memory) : (s.setSecbuf m).t = s.t := rfl
@[simp] theorem State.setSecbuf_ovr (s : State) (m : Memory) : (s.setSecbuf m).ovr = s.ovr := rfl
@[simp] theorem State.setSecbuf_errcode (s : State) (m : Memory) : (s.setSecbuf m).errcode = s.errcode := rfl
@[simp] theorem State.setSecbuf_errcmd (s : State) (m : Memory) : (s.setSecbuf m).errcmd = s.errcmd := rfl
@[simp] theorem State.setSecbuf_ie (s : State) (m : Memory) : (s.setSecbuf m).ie = s.ie := rfl
@[simp] theorem State.setSecbuf_seclen (s : State) (m : Memory) : (s.setSecbuf m).seclen = s.seclen := rfl
@[simp] theorem State.setSecbuf_secbuf (s : State) (m : Memory) : (s.setSecbuf m).secbuf = m := rfl
@[simp] theorem State.setSecbuf_pend (s : State) (m : Memory) : (s.setSecbuf m).pend = s.pend := rfl
@[simp] theorem State.setSecbuf_rst (s : State) (m : Memory) : (s.setSecbuf m).rst = s.rst := rfl
@[simp] theorem State.setSecbuf_inbox (s : State) (m : Memory) : (s.setSecbuf m).inbox = s.inbox := rfl
@[simp] theorem State.setSecbuf_replies (s : State) (m : Memory) : (s.setSecbuf m).replies = s.replies := rfl
@[simp] theorem State.setSecbuf_draws (s : State) (m : Memory) : (s.setSecbuf m).draws = s.draws := rfl

/-! ### setSeclen -/

@[simp] theorem State.setSeclen_f (s : State) (n : BitVec 7) : (s.setSeclen n).f = s.f := rfl
@[simp] theorem State.setSeclen_q (s : State) (n : BitVec 7) : (s.setSeclen n).q = s.q := rfl
@[simp] theorem State.setSeclen_k (s : State) (n : BitVec 7) : (s.setSeclen n).k = s.k := rfl
@[simp] theorem State.setSeclen_busy (s : State) (n : BitVec 7) : (s.setSeclen n).busy = s.busy := rfl
@[simp] theorem State.setSeclen_done (s : State) (n : BitVec 7) : (s.setSeclen n).done = s.done := rfl
@[simp] theorem State.setSeclen_errf (s : State) (n : BitVec 7) : (s.setSeclen n).errf = s.errf := rfl
@[simp] theorem State.setSeclen_t (s : State) (n : BitVec 7) : (s.setSeclen n).t = s.t := rfl
@[simp] theorem State.setSeclen_ovr (s : State) (n : BitVec 7) : (s.setSeclen n).ovr = s.ovr := rfl
@[simp] theorem State.setSeclen_errcode (s : State) (n : BitVec 7) : (s.setSeclen n).errcode = s.errcode := rfl
@[simp] theorem State.setSeclen_errcmd (s : State) (n : BitVec 7) : (s.setSeclen n).errcmd = s.errcmd := rfl
@[simp] theorem State.setSeclen_ie (s : State) (n : BitVec 7) : (s.setSeclen n).ie = s.ie := rfl
@[simp] theorem State.setSeclen_seclen (s : State) (n : BitVec 7) : (s.setSeclen n).seclen = n := rfl
@[simp] theorem State.setSeclen_secbuf (s : State) (n : BitVec 7) : (s.setSeclen n).secbuf = s.secbuf := rfl
@[simp] theorem State.setSeclen_pend (s : State) (n : BitVec 7) : (s.setSeclen n).pend = s.pend := rfl
@[simp] theorem State.setSeclen_rst (s : State) (n : BitVec 7) : (s.setSeclen n).rst = s.rst := rfl
@[simp] theorem State.setSeclen_inbox (s : State) (n : BitVec 7) : (s.setSeclen n).inbox = s.inbox := rfl
@[simp] theorem State.setSeclen_replies (s : State) (n : BitVec 7) : (s.setSeclen n).replies = s.replies := rfl
@[simp] theorem State.setSeclen_draws (s : State) (n : BitVec 7) : (s.setSeclen n).draws = s.draws := rfl

/-! ### complete -/

@[simp] theorem State.complete_f (s : State) : s.complete.f = s.f := rfl
@[simp] theorem State.complete_q (s : State) : s.complete.q = s.q := rfl
@[simp] theorem State.complete_k (s : State) : s.complete.k = s.k := rfl
@[simp] theorem State.complete_busy (s : State) : s.complete.busy = false := rfl
@[simp] theorem State.complete_done (s : State) : s.complete.done = true := rfl
@[simp] theorem State.complete_errf (s : State) : s.complete.errf = s.errf := rfl
@[simp] theorem State.complete_t (s : State) : s.complete.t = s.t := rfl
@[simp] theorem State.complete_ovr (s : State) : s.complete.ovr = s.ovr := rfl
@[simp] theorem State.complete_errcode (s : State) : s.complete.errcode = s.errcode := rfl
@[simp] theorem State.complete_errcmd (s : State) : s.complete.errcmd = s.errcmd := rfl
@[simp] theorem State.complete_ie (s : State) : s.complete.ie = s.ie := rfl
@[simp] theorem State.complete_seclen (s : State) : s.complete.seclen = s.seclen := rfl
@[simp] theorem State.complete_secbuf (s : State) : s.complete.secbuf = s.secbuf := rfl
@[simp] theorem State.complete_pend (s : State) : s.complete.pend = s.pend := rfl
@[simp] theorem State.complete_rst (s : State) : s.complete.rst = s.rst := rfl
@[simp] theorem State.complete_inbox (s : State) : s.complete.inbox = s.inbox := rfl
@[simp] theorem State.complete_replies (s : State) : s.complete.replies = s.replies := rfl
@[simp] theorem State.complete_draws (s : State) : s.complete.draws = s.draws := rfl

/-! ### takeFault -/

@[simp] theorem State.takeFault_f (s : State) (e : CmdFault) : (s.takeFault e).f = s.f := rfl
@[simp] theorem State.takeFault_q (s : State) (e : CmdFault) : (s.takeFault e).q = s.q := rfl
@[simp] theorem State.takeFault_k (s : State) (e : CmdFault) : (s.takeFault e).k = s.k := rfl
@[simp] theorem State.takeFault_busy (s : State) (e : CmdFault) : (s.takeFault e).busy = false := rfl
@[simp] theorem State.takeFault_done (s : State) (e : CmdFault) : (s.takeFault e).done = true := rfl
@[simp] theorem State.takeFault_errf (s : State) (e : CmdFault) : (s.takeFault e).errf = true := rfl
@[simp] theorem State.takeFault_t (s : State) (e : CmdFault) : (s.takeFault e).t = s.t := rfl
@[simp] theorem State.takeFault_ovr (s : State) (e : CmdFault) : (s.takeFault e).ovr = s.ovr := rfl
@[simp] theorem State.takeFault_errcode (s : State) (e : CmdFault) : (s.takeFault e).errcode = e.code := rfl
@[simp] theorem State.takeFault_errcmd (s : State) (e : CmdFault) : (s.takeFault e).errcmd = s.pend := rfl
@[simp] theorem State.takeFault_ie (s : State) (e : CmdFault) : (s.takeFault e).ie = s.ie := rfl
@[simp] theorem State.takeFault_seclen (s : State) (e : CmdFault) : (s.takeFault e).seclen = s.seclen := rfl
@[simp] theorem State.takeFault_secbuf (s : State) (e : CmdFault) : (s.takeFault e).secbuf = s.secbuf := rfl
@[simp] theorem State.takeFault_pend (s : State) (e : CmdFault) : (s.takeFault e).pend = s.pend := rfl
@[simp] theorem State.takeFault_rst (s : State) (e : CmdFault) : (s.takeFault e).rst = s.rst := rfl
@[simp] theorem State.takeFault_inbox (s : State) (e : CmdFault) : (s.takeFault e).inbox = s.inbox := rfl
@[simp] theorem State.takeFault_replies (s : State) (e : CmdFault) : (s.takeFault e).replies = s.replies := rfl
@[simp] theorem State.takeFault_draws (s : State) (e : CmdFault) : (s.takeFault e).draws = s.draws := rfl

/-! ### clearFault -/

@[simp] theorem State.clearFault_f (s : State) : s.clearFault.f = s.f := rfl
@[simp] theorem State.clearFault_q (s : State) : s.clearFault.q = s.q := rfl
@[simp] theorem State.clearFault_k (s : State) : s.clearFault.k = s.k := rfl
@[simp] theorem State.clearFault_busy (s : State) : s.clearFault.busy = s.busy := rfl
@[simp] theorem State.clearFault_done (s : State) : s.clearFault.done = s.done := rfl
@[simp] theorem State.clearFault_errf (s : State) : s.clearFault.errf = false := rfl
@[simp] theorem State.clearFault_t (s : State) : s.clearFault.t = s.t := rfl
@[simp] theorem State.clearFault_ovr (s : State) : s.clearFault.ovr = s.ovr := rfl
@[simp] theorem State.clearFault_errcode (s : State) : s.clearFault.errcode = 0x00#8 := rfl
@[simp] theorem State.clearFault_errcmd (s : State) : s.clearFault.errcmd = 0x00000000#32 := rfl
@[simp] theorem State.clearFault_ie (s : State) : s.clearFault.ie = s.ie := rfl
@[simp] theorem State.clearFault_seclen (s : State) : s.clearFault.seclen = s.seclen := rfl
@[simp] theorem State.clearFault_secbuf (s : State) : s.clearFault.secbuf = s.secbuf := rfl
@[simp] theorem State.clearFault_pend (s : State) : s.clearFault.pend = s.pend := rfl
@[simp] theorem State.clearFault_rst (s : State) : s.clearFault.rst = s.rst := rfl
@[simp] theorem State.clearFault_inbox (s : State) : s.clearFault.inbox = s.inbox := rfl
@[simp] theorem State.clearFault_replies (s : State) : s.clearFault.replies = s.replies := rfl
@[simp] theorem State.clearFault_draws (s : State) : s.clearFault.draws = s.draws := rfl

/-! ### dropWrite -/

@[simp] theorem State.dropWrite_f (s : State) : s.dropWrite.f = s.f := rfl
@[simp] theorem State.dropWrite_q (s : State) : s.dropWrite.q = s.q := rfl
@[simp] theorem State.dropWrite_k (s : State) : s.dropWrite.k = s.k := rfl
@[simp] theorem State.dropWrite_busy (s : State) : s.dropWrite.busy = s.busy := rfl
@[simp] theorem State.dropWrite_done (s : State) : s.dropWrite.done = s.done := rfl
@[simp] theorem State.dropWrite_errf (s : State) : s.dropWrite.errf = s.errf := rfl
@[simp] theorem State.dropWrite_t (s : State) : s.dropWrite.t = s.t := rfl
@[simp] theorem State.dropWrite_ovr (s : State) : s.dropWrite.ovr = true := rfl
@[simp] theorem State.dropWrite_errcode (s : State) : s.dropWrite.errcode = s.errcode := rfl
@[simp] theorem State.dropWrite_errcmd (s : State) : s.dropWrite.errcmd = s.errcmd := rfl
@[simp] theorem State.dropWrite_ie (s : State) : s.dropWrite.ie = s.ie := rfl
@[simp] theorem State.dropWrite_seclen (s : State) : s.dropWrite.seclen = s.seclen := rfl
@[simp] theorem State.dropWrite_secbuf (s : State) : s.dropWrite.secbuf = s.secbuf := rfl
@[simp] theorem State.dropWrite_pend (s : State) : s.dropWrite.pend = s.pend := rfl
@[simp] theorem State.dropWrite_rst (s : State) : s.dropWrite.rst = s.rst := rfl
@[simp] theorem State.dropWrite_inbox (s : State) : s.dropWrite.inbox = s.inbox := rfl
@[simp] theorem State.dropWrite_replies (s : State) : s.dropWrite.replies = s.replies := rfl
@[simp] theorem State.dropWrite_draws (s : State) : s.dropWrite.draws = s.draws := rfl

/-! ### reply -/

@[simp] theorem State.reply_f (s : State) (v : Word) : (s.reply v).f = s.f := rfl
@[simp] theorem State.reply_q (s : State) (v : Word) : (s.reply v).q = s.q := rfl
@[simp] theorem State.reply_k (s : State) (v : Word) : (s.reply v).k = s.k := rfl
@[simp] theorem State.reply_busy (s : State) (v : Word) : (s.reply v).busy = s.busy := rfl
@[simp] theorem State.reply_done (s : State) (v : Word) : (s.reply v).done = s.done := rfl
@[simp] theorem State.reply_errf (s : State) (v : Word) : (s.reply v).errf = s.errf := rfl
@[simp] theorem State.reply_t (s : State) (v : Word) : (s.reply v).t = s.t := rfl
@[simp] theorem State.reply_ovr (s : State) (v : Word) : (s.reply v).ovr = s.ovr := rfl
@[simp] theorem State.reply_errcode (s : State) (v : Word) : (s.reply v).errcode = s.errcode := rfl
@[simp] theorem State.reply_errcmd (s : State) (v : Word) : (s.reply v).errcmd = s.errcmd := rfl
@[simp] theorem State.reply_ie (s : State) (v : Word) : (s.reply v).ie = s.ie := rfl
@[simp] theorem State.reply_seclen (s : State) (v : Word) : (s.reply v).seclen = s.seclen := rfl
@[simp] theorem State.reply_secbuf (s : State) (v : Word) : (s.reply v).secbuf = s.secbuf := rfl
@[simp] theorem State.reply_pend (s : State) (v : Word) : (s.reply v).pend = s.pend := rfl
@[simp] theorem State.reply_rst (s : State) (v : Word) : (s.reply v).rst = s.rst := rfl
@[simp] theorem State.reply_inbox (s : State) (v : Word) : (s.reply v).inbox = s.inbox := rfl
@[simp] theorem State.reply_replies (s : State) (v : Word) : (s.reply v).replies = v :: s.replies := rfl
@[simp] theorem State.reply_draws (s : State) (v : Word) : (s.reply v).draws = s.draws := rfl

/-! ### assertReset -/

@[simp] theorem State.assertReset_f (s : State) : s.assertReset.f = State.reset.f := rfl
@[simp] theorem State.assertReset_q (s : State) : s.assertReset.q = State.reset.q := rfl
@[simp] theorem State.assertReset_k (s : State) : s.assertReset.k = State.reset.k := rfl
@[simp] theorem State.assertReset_busy (s : State) : s.assertReset.busy = State.reset.busy := rfl
@[simp] theorem State.assertReset_done (s : State) : s.assertReset.done = State.reset.done := rfl
@[simp] theorem State.assertReset_errf (s : State) : s.assertReset.errf = State.reset.errf := rfl
@[simp] theorem State.assertReset_t (s : State) : s.assertReset.t = State.reset.t := rfl
@[simp] theorem State.assertReset_ovr (s : State) : s.assertReset.ovr = State.reset.ovr := rfl
@[simp] theorem State.assertReset_errcode (s : State) : s.assertReset.errcode = State.reset.errcode := rfl
@[simp] theorem State.assertReset_errcmd (s : State) : s.assertReset.errcmd = State.reset.errcmd := rfl
@[simp] theorem State.assertReset_ie (s : State) : s.assertReset.ie = State.reset.ie := rfl
@[simp] theorem State.assertReset_seclen (s : State) : s.assertReset.seclen = State.reset.seclen := rfl
@[simp] theorem State.assertReset_secbuf (s : State) : s.assertReset.secbuf = State.reset.secbuf := rfl
@[simp] theorem State.assertReset_pend (s : State) : s.assertReset.pend = State.reset.pend := rfl
@[simp] theorem State.assertReset_rst (s : State) : s.assertReset.rst = true := rfl
@[simp] theorem State.assertReset_inbox (s : State) : s.assertReset.inbox = s.inbox := rfl
@[simp] theorem State.assertReset_replies (s : State) : s.assertReset.replies = s.replies := rfl
@[simp] theorem State.assertReset_draws (s : State) : s.assertReset.draws = s.draws := rfl

end Sys2Proof.Machine
end

