-- ==== Sys2Proof/Laws/Exec.lean ====
section
/-!
SUPPORT. What the shared operations of a command can do, said once: source reads (`40_system.md` R93), the end of a
command (R91), the writes each command can make (`10_state.md` R24), and the step (R90, R91). The frame and invariant
proofs cite `exec_cases` and `step_cases` instead of unfolding a meaning.
-/

namespace Sys2Proof.Machine

/-! ### Source reads -/

theorem State.readF_some {s : State} {i : Reg} {u : FE} (h : s.f[i] = some u) : s.readF i = .ok u := by
  simp only [State.readF, h]

theorem State.readF_none {s : State} {i : Reg} (h : s.f[i] = none) : s.readF i = .error .uninit := by
  simp only [State.readF, h]

theorem State.readQ_some {s : State} {i : Reg} {p : Pt} (h : s.q[i] = some p) : s.readQ i = .ok p := by
  simp only [State.readQ, h]

theorem State.readQ_none {s : State} {i : Reg} (h : s.q[i] = none) : s.readQ i = .error .uninit := by
  simp only [State.readQ, h]

/-- A value read from a field register is the register's. -/
theorem State.readF_ok {s : State} {i : Reg} {u : FE} (h : s.readF i = .ok u) : s.f[i] = some u := by
  unfold State.readF at h
  split at h
  · next hv => cases h; exact hv
  · cases h

/-- A value read from a point register is the register's. -/
theorem State.readQ_ok {s : State} {i : Reg} {p : Pt} (h : s.readQ i = .ok p) : s.q[i] = some p := by
  unfold State.readQ at h
  split at h
  · next hv => cases h; exact hv
  · cases h

/-! ### The end of a command -/

@[simp] theorem finish_ok (s s' : State) : finish s (.ok s') = .next s'.complete := rfl
@[simp] theorem finish_error (s : State) (e : CmdFault) : finish s (.error e) = .next (s.takeFault e) := rfl

/-- Sequencing inside a command's pseudocode: a command that answers passed each of its checks. -/
theorem bind_ok {α β : Type} {x : Except CmdFault α} {f : α → Except CmdFault β} {b : β}
    (h : x >>= f = .ok b) : ∃ a, x = .ok a ∧ f a = .ok b := by
  cases x with
  | error e => cases h
  | ok a => exact ⟨a, rfl, h⟩

/-! ### secp256k1 values -/

theorem secpA0_valid : secpA0.Valid := by decide
theorem secpB7_valid : secpB7.Valid := by decide
theorem secpG_valid : secpG.Valid :=
  ⟨by decide, by decide, by decide, by decide, by decide +kernel⟩

/-- What `secp_new` answers is a valid point (`43_secp256k1.md` R162). -/
theorem secpNew_valid {x y : Int} {P : Pt} (h : secpNew x y = .ok P) : P.Valid := by
  obtain ⟨X, hX, h⟩ := bind_ok h
  obtain ⟨Y, hY, h⟩ := bind_ok h
  have hp : (secpP.toNat : Int) < 2 ^ 256 := by have := secpP.isLt; omega
  exact (ptNew_valid (feNew_valid hp hX) (feNew_valid hp hY) secpA0_valid secpB7_valid h).1

/-- What `sec_decode` answers is a valid point (R165). -/
theorem secDecode_valid {m : Memory} {P : Pt} (h : secDecode m = .ok P) : P.Valid := by
  unfold secDecode at h
  simp only at h
  have hp : (secpP.toNat : Int) < 2 ^ 256 := by have := secpP.isLt; omega
  split at h
  · exact secpNew_valid h
  · split at h
    · obtain ⟨X, hX, h⟩ := bind_ok h
      obtain ⟨xx, hxx, h⟩ := bind_ok h
      obtain ⟨xxx, hxxx, h⟩ := bind_ok h
      obtain ⟨alpha, ha, h⟩ := bind_ok h
      obtain ⟨beta, hb, h⟩ := bind_ok h
      obtain ⟨y, hy, h⟩ := bind_ok h
      have vX := feNew_valid hp hX
      have valpha := (feAdd_valid (feMul_valid (feMul_valid vX hxx).1 hxxx).1 ha).1
      have vy : y.Valid := by
        unfold secPickRoot at hy
        split at hy
        · cases hy; exact (feSqrt_valid valpha hb).1
        · exact feNew_valid hp hy
      exact (ptNew_valid vX vy secpA0_valid secpB7_valid h).1
    · cases h

/-! ### What each command writes -/

/-- A field register is written, and only it; the value is valid if the registers' values are. -/
def WritesF (rd : Reg) (s s' : State) : Prop :=
  ∃ v, s' = s.setF rd v ∧ (s.FieldsValid → s.PointsValid → v.Valid)

/-- A point register is written, and only it; the value is valid if the registers' values are. -/
def WritesQ (rd : Reg) (s s' : State) : Prop :=
  ∃ v, s' = s.setQ rd v ∧ (s.FieldsValid → s.PointsValid → v.Valid)

/-- An integer register is written with a non-negative value, and only it. -/
def WritesK (rd : Reg) (s s' : State) : Prop := ∃ m, s' = s.setK rd (KInt.ofMag m)

/-- The test flag is written, and only it. -/
def WritesT (s s' : State) : Prop := ∃ b, s' = s.setT b

/-- SECBUF from byte 0 on and `SECLEN` are written, and only they. -/
def WritesSec (c : Bool) (s s' : State) : Prop :=
  ∃ bytes : List Byte, bytes.length = (if c then 33 else 65) ∧
    s' = (s.setSecbuf (Memory.writeBytes s.secbuf 0 bytes)).setSeclen (BitVec.ofNat 7 bytes.length)

/-- The writes of a command that completes (`10_state.md` R24, R31, R38, R40). -/
def Written (i : Instr) (s s' : State) : Prop :=
  match i with
  | .nop => s' = s
  | .fnew rd _ _ | .fadd rd _ _ | .fsub rd _ _ | .fmul rd _ _ | .fdiv rd _ _ | .fpow rd _ _ => WritesF rd s s'
  | .finv rd _ | .fsqrt rd _ | .pgetx rd _ | .pgety rd _ | .pgeta rd _ | .pgetb rd _ => WritesF rd s s'
  | .fget rd _ | .fgetp rd _ | .sldn rd | .sldp rd => WritesK rd s s'
  | .pnew rd _ _ _ _ | .pinf rd _ _ | .padd rd _ _ | .pdbl rd _ | .pmul rd _ _ => WritesQ rd s s'
  | .sldg rd | .snew rd _ _ | .smul rd _ _ | .secdec rd => WritesQ rd s s'
  | .feq _ _ | .peq _ _ | .pisinf _ | .sverify _ _ _ _ => WritesT s s'
  | .secenc _ c => WritesSec c s s'

theorem length_beBytes (n v : Nat) : (beBytes n v).length = n := by
  induction n generalizing v with
  | zero => rfl
  | succ n ih => simp [beBytes, ih]

theorem length_be32 (v : U256) : (be32 v).length = 32 := length_beBytes _ _

/-- The length of a SEC encoding (`43_secp256k1.md` R164). -/
theorem length_secEncode {p : Pt} {c : Bool} {bytes : List Byte} (h : secEncode p c = .ok bytes) :
    bytes.length = (if c then 33 else 65) := by
  obtain ⟨_, -, h⟩ := bind_ok h
  obtain ⟨xy, -, h⟩ := bind_ok h
  cases c <;> simp only [Bool.false_eq_true, if_false, if_true] at h ⊢ <;> cases h <;>
    simp [length_be32]

/-- The coordinates of a valid point are valid. -/
theorem affineCoords_valid {p : Pt} {xy : FE × FE} (hp : p.Valid) (h : p.affineCoords = .ok xy) :
    xy.1.Valid ∧ xy.2.Valid := by
  unfold Pt.affineCoords at h
  split at h
  · cases h
  · next x y hc =>
    cases h
    have := hp.2.2
    rw [hc] at this
    exact ⟨this.1, this.2.1⟩

/-- Every command ends: it records a fault, or completes with the writes of its row (`40_system.md` R91). -/
theorem exec_cases (i : Instr) (s : State) :
    (∃ e, exec i s = .next (s.takeFault e)) ∨ ∃ s', Written i s s' ∧ exec i s = .next s'.complete := by
  have key : ∀ r : Except CmdFault State, (∀ s', r = .ok s' → Written i s s') → exec i s = finish s r →
      (∃ e, exec i s = .next (s.takeFault e)) ∨ ∃ s', Written i s s' ∧ exec i s = .next s'.complete := by
    intro r hr he
    cases r with
    | error e => exact .inl ⟨e, he⟩
    | ok s' => exact .inr ⟨s', hr s' rfl, he⟩
  have fe : ∀ {r : Reg} {u : FE}, s.readF r = .ok u → s.FieldsValid → u.Valid :=
    fun h hv => hv _ _ (State.readF_ok h)
  have pt : ∀ {r : Reg} {p : Pt}, s.readQ r = .ok p → s.PointsValid → p.Valid :=
    fun h hv => hv _ _ (State.readQ_ok h)
  cases i with
  | nop => exact key (.ok s) (fun s' h => by cases h; rfl) rfl
  | fnew rd ra rb =>
    refine key _ (fun s' h => ?_) rfl
    obtain ⟨u, hu, h⟩ := bind_ok h
    cases h
    refine ⟨u, rfl, fun _ _ => feNew_valid ?_ hu⟩
    have hm := (s.k[rb]).mag.isLt
    simp only [State.readK, KInt.toInt]
    split <;> omega
  | fadd rd ra rb =>
    refine key _ (fun s' h => ?_) rfl
    obtain ⟨u, hu, h⟩ := bind_ok h
    obtain ⟨v, hv, h⟩ := bind_ok h
    obtain ⟨w, hw, h⟩ := bind_ok h
    cases h
    exact ⟨w, rfl, fun hf _ => (feAdd_valid (fe hu hf) hw).1⟩
  | fsub rd ra rb =>
    refine key _ (fun s' h => ?_) rfl
    obtain ⟨u, hu, h⟩ := bind_ok h
    obtain ⟨v, hv, h⟩ := bind_ok h
    obtain ⟨w, hw, h⟩ := bind_ok h
    cases h
    exact ⟨w, rfl, fun hf _ => (feSub_valid (fe hu hf) hw).1⟩
  | fmul rd ra rb =>
    refine key _ (fun s' h => ?_) rfl
    obtain ⟨u, hu, h⟩ := bind_ok h
    obtain ⟨v, hv, h⟩ := bind_ok h
    obtain ⟨w, hw, h⟩ := bind_ok h
    cases h
    exact ⟨w, rfl, fun hf _ => (feMul_valid (fe hu hf) hw).1⟩
  | fdiv rd ra rb =>
    refine key _ (fun s' h => ?_) rfl
    obtain ⟨u, hu, h⟩ := bind_ok h
    obtain ⟨v, hv, h⟩ := bind_ok h
    obtain ⟨w, hw, h⟩ := bind_ok h
    cases h
    exact ⟨w, rfl, fun hf _ => (feDiv_valid (fe hu hf) hw).1⟩
  | finv rd ra =>
    refine key _ (fun s' h => ?_) rfl
    obtain ⟨u, hu, h⟩ := bind_ok h
    obtain ⟨w, hw, h⟩ := bind_ok h
    cases h
    exact ⟨w, rfl, fun hf _ => (feInv_valid (fe hu hf) hw).1⟩
  | fpow rd ra rb =>
    refine key _ (fun s' h => ?_) rfl
    obtain ⟨u, hu, h⟩ := bind_ok h
    obtain ⟨w, hw, h⟩ := bind_ok h
    cases h
    exact ⟨w, rfl, fun hf _ => (fePow_valid (fe hu hf) hw).1⟩
  | fsqrt rd ra =>
    refine key _ (fun s' h => ?_) rfl
    obtain ⟨u, hu, h⟩ := bind_ok h
    obtain ⟨w, hw, h⟩ := bind_ok h
    cases h
    exact ⟨w, rfl, fun hf _ => (feSqrt_valid (fe hu hf) hw).1⟩
  | feq ra rb =>
    refine key _ (fun s' h => ?_) rfl
    obtain ⟨u, hu, h⟩ := bind_ok h
    obtain ⟨v, hv, h⟩ := bind_ok h
    cases h
    exact ⟨_, rfl⟩
  | fget rd ra =>
    refine key _ (fun s' h => ?_) rfl
    obtain ⟨u, hu, h⟩ := bind_ok h
    cases h
    exact ⟨_, rfl⟩
  | fgetp rd ra =>
    refine key _ (fun s' h => ?_) rfl
    obtain ⟨u, hu, h⟩ := bind_ok h
    cases h
    exact ⟨_, rfl⟩
  | pnew rd ra rb rc re =>
    refine key _ (fun s' h => ?_) rfl
    obtain ⟨x, hx, h⟩ := bind_ok h
    obtain ⟨y, hy, h⟩ := bind_ok h
    obtain ⟨a, ha, h⟩ := bind_ok h
    obtain ⟨b, hb, h⟩ := bind_ok h
    obtain ⟨p, hp, h⟩ := bind_ok h
    cases h
    exact ⟨p, rfl, fun hf _ => (ptNew_valid (fe hx hf) (fe hy hf) (fe ha hf) (fe hb hf) hp).1⟩
  | pinf rd rc re =>
    refine key _ (fun s' h => ?_) rfl
    obtain ⟨a, ha, h⟩ := bind_ok h
    obtain ⟨b, hb, h⟩ := bind_ok h
    obtain ⟨p, hp, h⟩ := bind_ok h
    cases h
    refine ⟨p, rfl, fun hf _ => ?_⟩
    obtain ⟨_, hc, h⟩ := bind_ok hp
    cases h
    have hpr : a.prime = b.prime := by
      by_contra hne
      rw [feCompat_error hne] at hc
      cases hc
    refine ⟨fe ha hf, ?_, trivial⟩
    have := fe hb hf
    simp only [FE.Valid, ← hpr] at this
    exact this
  | padd rd ra rb =>
    refine key _ (fun s' h => ?_) rfl
    obtain ⟨p, hp, h⟩ := bind_ok h
    obtain ⟨q, hq, h⟩ := bind_ok h
    obtain ⟨r, hr, h⟩ := bind_ok h
    cases h
    exact ⟨r, rfl, fun _ hv => (ptAdd_valid (pt hp hv) (pt hq hv) hr).1⟩
  | pdbl rd ra =>
    refine key _ (fun s' h => ?_) rfl
    obtain ⟨p, hp, h⟩ := bind_ok h
    obtain ⟨r, hr, h⟩ := bind_ok h
    cases h
    exact ⟨r, rfl, fun _ hv => (ptAdd_valid (pt hp hv) (pt hp hv) hr).1⟩
  | pmul rd ra rb =>
    refine key _ (fun s' h => ?_) rfl
    obtain ⟨p, hp, h⟩ := bind_ok h
    obtain ⟨r, hr, h⟩ := bind_ok h
    cases h
    exact ⟨r, rfl, fun _ hv => (ptMul_valid (pt hp hv) hr).1⟩
  | peq ra rb =>
    refine key _ (fun s' h => ?_) rfl
    obtain ⟨p, hp, h⟩ := bind_ok h
    obtain ⟨q, hq, h⟩ := bind_ok h
    cases h
    exact ⟨_, rfl⟩
  | pisinf ra =>
    refine key _ (fun s' h => ?_) rfl
    obtain ⟨p, hp, h⟩ := bind_ok h
    cases h
    exact ⟨_, rfl⟩
  | pgetx rd ra =>
    refine key _ (fun s' h => ?_) rfl
    obtain ⟨p, hp, h⟩ := bind_ok h
    obtain ⟨xy, hxy, h⟩ := bind_ok h
    cases h
    exact ⟨_, rfl, fun _ hv => (affineCoords_valid (pt hp hv) hxy).1⟩
  | pgety rd ra =>
    refine key _ (fun s' h => ?_) rfl
    obtain ⟨p, hp, h⟩ := bind_ok h
    obtain ⟨xy, hxy, h⟩ := bind_ok h
    cases h
    exact ⟨_, rfl, fun _ hv => (affineCoords_valid (pt hp hv) hxy).2⟩
  | pgeta rd ra =>
    refine key _ (fun s' h => ?_) rfl
    obtain ⟨p, hp, h⟩ := bind_ok h
    cases h
    exact ⟨_, rfl, fun _ hv => (pt hp hv).1⟩
  | pgetb rd ra =>
    refine key _ (fun s' h => ?_) rfl
    obtain ⟨p, hp, h⟩ := bind_ok h
    cases h
    exact ⟨_, rfl, fun _ hv => (pt hp hv).2.1⟩
  | sldg rd => exact key (.ok (s.setQ rd secpG)) (fun s' h => by cases h; exact ⟨_, rfl, fun _ _ => secpG_valid⟩) rfl
  | sldn rd => exact key (.ok (s.setK rd (KInt.ofMag secpN))) (fun s' h => by cases h; exact ⟨_, rfl⟩) rfl
  | sldp rd => exact key (.ok (s.setK rd (KInt.ofMag secpP))) (fun s' h => by cases h; exact ⟨_, rfl⟩) rfl
  | snew rd ra rb =>
    refine key _ (fun s' h => ?_) rfl
    obtain ⟨p, hp, h⟩ := bind_ok h
    cases h
    exact ⟨_, rfl, fun _ _ => secpNew_valid hp⟩
  | smul rd ra rb =>
    refine key _ (fun s' h => ?_) rfl
    obtain ⟨p, hp, h⟩ := bind_ok h
    obtain ⟨_, -, h⟩ := bind_ok h
    obtain ⟨r, hr, h⟩ := bind_ok h
    cases h
    exact ⟨_, rfl, fun _ hv => (ptMul_valid (pt hp hv) hr).1⟩
  | secenc ra c =>
    refine key _ (fun s' h => ?_) rfl
    obtain ⟨p, hp, h⟩ := bind_ok h
    obtain ⟨bytes, hb, h⟩ := bind_ok h
    cases h
    exact ⟨bytes, length_secEncode hb, rfl⟩
  | secdec rd =>
    refine key _ (fun s' h => ?_) rfl
    obtain ⟨p, hp, h⟩ := bind_ok h
    cases h
    exact ⟨_, rfl, fun _ _ => secDecode_valid hp⟩
  | sverify ra rb rc re =>
    refine key _ (fun s' h => ?_) rfl
    obtain ⟨p, hp, h⟩ := bind_ok h
    obtain ⟨b, hb, h⟩ := bind_ok h
    cases h
    exact ⟨_, rfl⟩

/-! ### The step -/

/-- Everything a step can be (`40_system.md` R90, R91): the host's next action, the pending command, the fault of an
illegal word, or nothing. -/
theorem step_cases (s : State) :
    (∃ ev rest, s.inbox = ev :: rest ∧ (s.busy = true → ev.arrival = .whileBusy) ∧
      step s = .next (s.hostTurn ev.access rest)) ∨
    (s.busy = true ∧ (∃ i, decode s.pend = .command i ∧ step s = exec i s)) ∨
    (s.busy = true ∧ decode s.pend = .illegal ∧ step s = .next (s.takeFault .illegalCommand)) ∨
    (s.busy = false ∧ s.inbox = [] ∧ step s = .next s) := by
  have core : s.busy = true → s.turn = .core →
      (s.busy = true ∧ (∃ i, decode s.pend = .command i ∧ step s = exec i s)) ∨
      (s.busy = true ∧ decode s.pend = .illegal ∧ step s = .next (s.takeFault .illegalCommand)) ∨
      (s.busy = false ∧ s.inbox = [] ∧ step s = .next s) := by
    intro hb ht
    cases hd : decode s.pend with
    | command i => exact .inl ⟨hb, i, rfl, by simp [step, ht, State.command, hd]⟩
    | illegal => exact .inr (.inl ⟨hb, rfl, by simp [step, ht, State.command, hd, State.illegalStep]⟩)
  cases hi : s.inbox with
  | nil =>
    cases hb : s.busy with
    | true =>
      refine .inr ?_
      have := core hb (by simp [State.turn, hi, hb])
      simpa [hi, hb] using this
    | false => exact .inr (.inr (.inr ⟨rfl, rfl, by simp [step, State.turn, hi, hb]⟩))
  | cons ev rest =>
    by_cases hc : (s.busy && ev.arrival == .afterCompletion) = true
    · have hb : s.busy = true := (Bool.and_eq_true _ _ ▸ hc : s.busy = true ∧ _).1
      have := core hb (by simp [State.turn, hi, hc])
      refine .inr ?_
      simpa [hi, hb] using this
    · refine .inl ⟨ev, rest, rfl, ?_, by simp [step, State.turn, hi, hc]⟩
      intro hb
      cases ha : ev.arrival with
      | whileBusy => rfl
      | afterCompletion => exact absurd (by simp [hb, ha]) hc

end Sys2Proof.Machine
end

