-- ==== Sys2Proof/Laws/PerInstr.lean ====
section
/-!
SUPPORT. A statement for all commands, one lemma each: a command's fields fit its operand shape (`30_encoding.md`
R71, R72).
-/

namespace Sys2Proof.Laws.Shape

open Sys2Proof

/-- The command is well formed: in each used register field bit 3 is 0, each unused field is 0, and the flags are 0
but for `fl[0]` of SECENC (R71). -/
def Statement (i : Instr) : Prop := i.wellFormed = true

/-- Every command is well formed: its operands are 3-bit indices and its unused fields are 0. -/
theorem all (i : Instr) : Statement i := by
  have h1 : (1#4 : BitVec 4) &&& 0xE#4 = 0#4 := by decide
  cases i <;>
    simp [Statement, Instr.wellFormed, Fields.fits, Instr.fields, Instr.format, mkFields, Format.usesRd, Format.usesRa,
      Format.usesRb, Format.usesRcRe, Format.flMask, regField_fits]
  next ra c => cases c <;> simp [h1]

theorem nop : Statement (.nop) := all _
theorem fnew (rd : Reg) (ra : Reg) (rb : Reg) : Statement (.fnew rd ra rb) := all _
theorem fadd (rd : Reg) (ra : Reg) (rb : Reg) : Statement (.fadd rd ra rb) := all _
theorem fsub (rd : Reg) (ra : Reg) (rb : Reg) : Statement (.fsub rd ra rb) := all _
theorem fmul (rd : Reg) (ra : Reg) (rb : Reg) : Statement (.fmul rd ra rb) := all _
theorem fdiv (rd : Reg) (ra : Reg) (rb : Reg) : Statement (.fdiv rd ra rb) := all _
theorem finv (rd : Reg) (ra : Reg) : Statement (.finv rd ra) := all _
theorem fpow (rd : Reg) (ra : Reg) (rb : Reg) : Statement (.fpow rd ra rb) := all _
theorem fsqrt (rd : Reg) (ra : Reg) : Statement (.fsqrt rd ra) := all _
theorem feq (ra : Reg) (rb : Reg) : Statement (.feq ra rb) := all _
theorem fget (rd : Reg) (ra : Reg) : Statement (.fget rd ra) := all _
theorem fgetp (rd : Reg) (ra : Reg) : Statement (.fgetp rd ra) := all _
theorem pnew (rd : Reg) (ra : Reg) (rb : Reg) (rc : Reg) (re : Reg) : Statement (.pnew rd ra rb rc re) := all _
theorem pinf (rd : Reg) (rc : Reg) (re : Reg) : Statement (.pinf rd rc re) := all _
theorem padd (rd : Reg) (ra : Reg) (rb : Reg) : Statement (.padd rd ra rb) := all _
theorem pdbl (rd : Reg) (ra : Reg) : Statement (.pdbl rd ra) := all _
theorem pmul (rd : Reg) (ra : Reg) (rb : Reg) : Statement (.pmul rd ra rb) := all _
theorem peq (ra : Reg) (rb : Reg) : Statement (.peq ra rb) := all _
theorem pisinf (ra : Reg) : Statement (.pisinf ra) := all _
theorem pgetx (rd : Reg) (ra : Reg) : Statement (.pgetx rd ra) := all _
theorem pgety (rd : Reg) (ra : Reg) : Statement (.pgety rd ra) := all _
theorem pgeta (rd : Reg) (ra : Reg) : Statement (.pgeta rd ra) := all _
theorem pgetb (rd : Reg) (ra : Reg) : Statement (.pgetb rd ra) := all _
theorem sldg (rd : Reg) : Statement (.sldg rd) := all _
theorem sldn (rd : Reg) : Statement (.sldn rd) := all _
theorem sldp (rd : Reg) : Statement (.sldp rd) := all _
theorem snew (rd : Reg) (ra : Reg) (rb : Reg) : Statement (.snew rd ra rb) := all _
theorem smul (rd : Reg) (ra : Reg) (rb : Reg) : Statement (.smul rd ra rb) := all _
theorem secenc (ra : Reg) (c : Bool) : Statement (.secenc ra c) := all _
theorem secdec (rd : Reg) : Statement (.secdec rd) := all _
theorem sverify (ra : Reg) (rb : Reg) (rc : Reg) (re : Reg) : Statement (.sverify ra rb rc re) := all _

end Sys2Proof.Laws.Shape
end

