-- ==== Sys2Proof/Laws/Port.lean ====
section
/-!
SUPPORT. The port map by location (`20_memory.md` R51), the words of a magnitude (R54), the bytes of a SECBUF word
(R55), and one lemma for each port operation.
-/

namespace Sys2Proof.Machine

/-! ### The map -/

theorem locOf_kw (n : Reg) (i : Fin 8) : locOf ⟨0x40 + 16 * n.val + i.val, by omega⟩ = .kw n i := by
  revert n i; decide

theorem locOf_ks (n : Reg) : locOf ⟨0x48 + 16 * n.val, by omega⟩ = .ks n := by revert n; decide

theorem locOf_secw (j : Fin 17) : locOf ⟨0x100 + j.val, by omega⟩ = .secw j := by revert j; decide

/-! ### Words of a magnitude -/

/-- Bit `b` of word `i` is bit `32·i + b` of the magnitude (R54). -/
theorem getLsbD_magWord (m : U256) (i : Fin 8) (b : Nat) :
    (magWord m i).getLsbD b = (decide (b < 32) && m.getLsbD (32 * i.val + b)) := by
  simp [magWord, BitVec.getLsbD_extractLsb']

/-- A word write replaces its 32 bits and keeps the others (R53). -/
theorem getLsbD_setMagWord (m : U256) (i : Fin 8) (v : Word) (b : Nat) (hb : b < 256) :
    (setMagWord m i v).getLsbD b =
      if 32 * i.val ≤ b ∧ b < 32 * i.val + 32 then v.getLsbD (b - 32 * i.val) else m.getLsbD b := by
  have hones : ∀ k, (0xFFFFFFFF#256).getLsbD k = decide (k < 32) := by
    intro k
    have : (0xFFFFFFFF#256) = (BitVec.allOnes 32).setWidth 256 := by decide
    rw [this, BitVec.getLsbD_setWidth, BitVec.getLsbD_allOnes]
    by_cases h : k < 32
    · simp [h]; omega
    · simp [h]
  have hi := i.isLt
  simp only [setMagWord, BitVec.getLsbD_or, BitVec.getLsbD_and, BitVec.getLsbD_not, BitVec.getLsbD_shiftLeft,
    BitVec.getLsbD_setWidth, hones, hb, decide_true, Bool.true_and]
  by_cases h1 : b < 32 * i.val
  · have : ¬(32 * i.val ≤ b ∧ b < 32 * i.val + 32) := by omega
    simp [h1, this]
  · by_cases h2 : b < 32 * i.val + 32
    · have h3 : b - 32 * i.val < 32 := by omega
      have h4 : b - 32 * i.val < 256 := by omega
      simp [h1, h2, h3, h4, show 32 * i.val ≤ b by omega]
    · have h3 : ¬(b - 32 * i.val < 32) := by omega
      have h4 : v.getLsbD (b - 32 * i.val) = false := BitVec.getLsbD_of_ge _ _ (by omega)
      simp [h1, h2, h3, h4]

/-- A word reads back as written, and the other seven words are unchanged (R53, R54). -/
theorem magWord_setMagWord (m : U256) (i j : Fin 8) (v : Word) :
    magWord (setMagWord m i v) j = if i = j then v else magWord m j := by
  apply BitVec.eq_of_getLsbD_eq
  intro b hb
  have hi := i.isLt
  have hj := j.isLt
  rw [getLsbD_magWord, getLsbD_setMagWord _ _ _ _ (by omega)]
  by_cases h : i = j
  · subst h
    simp [hb]
  · have hne : i.val ≠ j.val := fun e => h (Fin.ext e)
    have hout : ¬(32 * i.val ≤ 32 * j.val + b ∧ 32 * j.val + b < 32 * i.val + 32) := by omega
    simp [h, hout, getLsbD_magWord]

/-! ### Bytes of a SECBUF word -/

/-- Byte `i` of a word built from bytes, the first in bits 7:0 (R55). -/
theorem extract_bytesWord (bs : List Byte) (hl : bs.length ≤ 4) (i : Nat) (hi : i < bs.length) :
    (bytesWord bs).extractLsb' (8 * i) 8 = bs[i] := by
  induction bs generalizing i with
  | nil => simp at hi
  | cons b bs ih =>
    simp only [List.length_cons] at hl hi
    apply BitVec.eq_of_getLsbD_eq
    intro k hk
    simp only [bytesWord, BitVec.getLsbD_extractLsb', hk, decide_true, Bool.true_and, BitVec.getLsbD_or,
      BitVec.getLsbD_setWidth, BitVec.getLsbD_shiftLeft]
    cases i with
    | zero => simp [hk, show k < 32 by omega]
    | succ i =>
      have hi' : i < bs.length := by omega
      have := congrArg (fun x => x.getLsbD k) (ih (by omega) i hi')
      simp only [BitVec.getLsbD_extractLsb', hk, decide_true, Bool.true_and] at this
      have h1 : b.getLsbD (8 * (i + 1) + k) = false := BitVec.getLsbD_of_ge _ _ (by omega)
      have h2 : 8 * (i + 1) + k - 8 = 8 * i + k := by omega
      simp [h1, h2, this, show ¬(8 * (i + 1) + k < 8) by omega, show 8 * (i + 1) + k < 32 by omega]

/-- Bits above the bytes of a word are 0 (R55: `SECW[16]` bits 31:8 read 0). -/
theorem getLsbD_bytesWord_high (bs : List Byte) (b : Nat) (hb : 8 * bs.length ≤ b) : (bytesWord bs).getLsbD b = false := by
  induction bs generalizing b with
  | nil => simp [bytesWord]
  | cons x bs ih =>
    simp only [List.length_cons] at hb
    simp only [bytesWord, BitVec.getLsbD_or, BitVec.getLsbD_setWidth, BitVec.getLsbD_shiftLeft,
      ih (b - 8) (by omega), BitVec.getLsbD_of_ge x b (by omega)]
    simp

theorem length_wordBytes (v : Word) (n : Nat) : (wordBytes v n).length = n := by
  induction n generalizing v with
  | zero => rfl
  | succ n ih => simp [wordBytes, ih]

/-- Byte `i` of the bytes a word write stores (R55). -/
theorem getElem_wordBytes (v : Word) (n i : Nat) (hi : i < (wordBytes v n).length) :
    (wordBytes v n)[i] = v.extractLsb' (8 * i) 8 := by
  induction n generalizing v i with
  | zero => simp [wordBytes] at hi
  | succ n ih =>
    cases i with
    | zero =>
      simp only [wordBytes, List.getElem_cons_zero]
      apply BitVec.eq_of_getLsbD_eq
      intro k hk
      simp [hk]
    | succ i =>
      simp only [wordBytes, List.getElem_cons_succ]
      rw [ih (v >>> 8) i (by simpa [wordBytes] using hi)]
      apply BitVec.eq_of_getLsbD_eq
      intro k hk
      simp [hk, show 8 + (8 * i + k) = 8 * (i + 1) + k by omega]

/-- A read of `SECW[j]` packs its bytes little-endian (R55). -/
theorem extract_secWord (m : Memory) (j : Fin 17) (i : Nat) (hi : i < secWordLen j) :
    (m.secWord j).extractLsb' (8 * i) 8 = m.read (4 * j.val + i) := by
  have hl : (m.readBytes (4 * j.val) (secWordLen j)).length = secWordLen j := Memory.length_readBytes _ _ _
  have h4 : secWordLen j ≤ 4 := by unfold secWordLen; split <;> omega
  rw [Memory.secWord, extract_bytesWord _ (by omega) i (by omega), Memory.getElem_readBytes]

/-- A write of `SECW[j]` replaces its bytes and keeps the others (R55). -/
theorem read_setSecWord {m : Memory} (hm : m.wf) (j : Fin 17) (v : Word) (a : Nat) :
    (m.setSecWord j v).read a =
      if 4 * j.val ≤ a ∧ a - 4 * j.val < secWordLen j then v.extractLsb' (8 * (a - 4 * j.val)) 8 else m.read a := by
  rw [Memory.setSecWord, Memory.read_writeBytes hm.1]
  simp only [length_wordBytes]
  split
  · exact getElem_wordBytes _ _ _ _
  · rfl

/-- A word write of SECBUF keeps the canonical form. -/
theorem wf_setSecWord {m : Memory} (hm : m.wf) (j : Fin 17) (v : Word) : (m.setSecWord j v).wf := by
  apply Memory.wf_writeBytes hm
  have hj := j.isLt
  rw [length_wordBytes, secWordLen, secSize]
  split <;> omega

/-! ### The port operations -/

/-- A host read changes nothing but, perhaps, the count of draws (R52). -/
theorem hostRead_state (s : State) (a : PortAddr) : ∃ n, (s.hostRead a).2 = { s with draws := n } := by
  unfold State.hostRead
  split
  · exact ⟨_, rfl⟩
  · exact ⟨s.draws, rfl⟩

/-- Everything a read made by the host does: its word is recorded, and only the count of draws can move besides. -/
theorem readReply_state (s : State) (a : PortAddr) :
    ∃ n w, s.readReply a = { s with draws := n, replies := w :: s.replies } := by
  unfold State.readReply State.portRead
  split
  · exact ⟨s.draws, 0#32, rfl⟩
  · obtain ⟨n, hn⟩ := hostRead_state s a
    exact ⟨n, (s.hostRead a).1, by simp [hn, State.reply]⟩

/-- Bit 0 of the `STATUS` word is `BUSY` (R52). -/
theorem getLsbD_statusWord_zero (s : State) : s.statusWord.getLsbD 0 = s.busy := by
  simp only [State.statusWord, flagBit, BitVec.getLsbD_or, BitVec.getLsbD_shiftLeft, BitVec.getLsbD_setWidth]
  cases s.busy <;> cases s.done <;> cases s.errf <;> cases s.t <;> cases s.ovr <;> simp

/-- One pass of the loop on `STATUS` (`30_encoding.md` R78): the status is recorded, and the loop goes on exactly when
`BUSY = 1`. -/
theorem pollStatus_eq {s : State} (n : Nat) (hr : s.rst = false) :
    s.pollStatus n = { s with
      replies := s.statusWord :: s.replies
      inbox := if s.busy then pollEvent n :: s.inbox else s.inbox } := by
  have h : s.portRead statusAddr = (s.statusWord, s) := by
    simp [State.portRead, hr, State.hostRead, show locOf statusAddr = .status from rfl, Loc.isOperand, State.portValue]
  simp only [State.pollStatus, State.readReply, h, getLsbD_statusWord_zero]
  by_cases hb : s.busy = true <;> simp [hb, State.reply]

/-- While `rst` is asserted the loop on `STATUS` reads 0 and ends (`70_reset_and_hazards.md` R252). -/
theorem pollStatus_rst {s : State} (n : Nat) (hr : s.rst = true) : s.pollStatus n = s.reply 0#32 := by
  simp [State.pollStatus, State.readReply, State.portRead, hr]

/-- An operand write is dropped while `BUSY = 1` (R53, R64). -/
theorem operandWrite_busy {s : State} (s' : State) (h : s.busy = true) : s.operandWrite s' = s.dropWrite := by
  simp [State.operandWrite, h]

theorem operandWrite_idle {s : State} (s' : State) (h : s.busy = false) : s.operandWrite s' = s' := by
  simp [State.operandWrite, h]

/-- Acceptance (`40_system.md` R90). -/
theorem offer_accepted {s : State} (w : Word) (hb : s.busy = false) (he : s.errf = false) :
    s.offer w = { s with pend := w, busy := true, done := false } := by
  simp [State.offer, hb, he]

theorem offer_dropped {s : State} (w : Word) (h : s.busy = true ∨ s.errf = true) : s.offer w = s.dropWrite := by
  unfold State.offer
  rw [if_pos (by simpa using h)]

/-- Everything a host action other than reset does while a command is pending: the command, and the registers and bytes
it will read, stay as they were when it was accepted (`40_system.md` R91, `20_memory.md` R64), and the pending actions
stay but for a pass of the loop on `STATUS`, which is put back. -/
theorem hostAct_busy {s : State} {x : Access} (hb : s.busy = true) (hx : x ≠ .rstAssert) :
    (s.hostAct x).busy = true ∧ (s.hostAct x).pend = s.pend ∧ (s.hostAct x).f = s.f ∧ (s.hostAct x).q = s.q ∧
      (s.hostAct x).k = s.k ∧ (s.hostAct x).secbuf = s.secbuf ∧
      ((s.hostAct x).inbox = s.inbox ∨ ∃ n, x = .poll n ∧ (s.hostAct x).inbox = pollEvent n :: s.inbox) := by
  cases x with
  | read a =>
    obtain ⟨n, w, h⟩ := readReply_state s a
    simp [State.hostAct, h, hb]
  | write a v =>
    by_cases hr : s.rst = true
    · simp [State.hostAct, hr, hb]
    · simp only [State.hostAct, hr, State.hostWrite]
      cases locOf a with
      | clr =>
        simp only [State.clear, State.clearFault]
        cases v.getLsbD 1 <;> cases v.getLsbD 2 <;> cases v.getLsbD 4 <;> simp [hb]
      | _ => simp [hb, State.operandWrite, State.offer, State.dropWrite]
  | poll n =>
    by_cases hr : s.rst = true
    · simp [State.hostAct, pollStatus_rst n hr, hb, State.reply]
    · simp [State.hostAct, pollStatus_eq n (by simpa using hr), hb]
  | rstAssert => exact absurd rfl hx
  | rstRelease => simp [State.hostAct, hb]

end Sys2Proof.Machine
end

