-- ==== Sys2Proof/Laws/Prime.lean ====
section
/-!
SUPPORT. The secp256k1 field prime is prime (`43_secp256k1.md` R160: "`p` and `N` both pass a primality test"), by a
chain of Lucas certificates whose powers are computed with the model's own `modexp`.
-/

namespace Sys2Proof.Machine

/-- Lucas' test, with the full factorisation of `p − 1` given. -/
theorem prime_of_lucas {p g : Nat} (fs : List Nat) (hp : 1 < p) (hprod : fs.prod = p - 1)
    (hfs : ∀ f ∈ fs, f.Prime) (h1 : modexp (g : Int) (p - 1) p = 1)
    (h2 : ∀ f ∈ fs, modexp (g : Int) ((p - 1) / f) p ≠ 1) : p.Prime := by
  have hone : ∀ n, (g : ZMod p) ^ n = 1 ↔ modexp (g : Int) n p = 1 := by
    intro n
    rw [modexp_eq, show (g : ZMod p) ^ n = ((g ^ n : Nat) : ZMod p) by push_cast; rfl,
      show (1 : ZMod p) = ((1 : Nat) : ZMod p) by simp, ZMod.natCast_eq_natCast_iff', Nat.mod_eq_of_lt hp]
  refine lucas_primality p (g : ZMod p) ((hone _).mpr h1) fun q hq hdvd => ?_
  rw [← hprod] at hdvd
  obtain ⟨f, hf, hqf⟩ := (Nat.Prime.prime hq).dvd_prod_iff.mp hdvd
  rw [(Nat.prime_dvd_prime_iff_eq hq (hfs f hf)).mp hqf, Ne, hone]
  exact h2 f hf

theorem prime_173378833005251801 : Nat.Prime 173378833005251801 :=
  prime_of_lucas (g := 6) [2, 2, 2, 5, 5, 2621, 24809, 13331831] (by norm_num) (by norm_num) (by norm_num)
    (by decide +kernel) (by decide +kernel)

theorem prime_22149492674086928081353 : Nat.Prime 22149492674086928081353 :=
  prime_of_lucas (g := 5) [2, 2, 2, 3, 5323, 173378833005251801] (by norm_num) (by norm_num)
    (by simp only [List.mem_cons, List.not_mem_nil, or_false, forall_eq_or_imp, forall_eq]
        exact ⟨by norm_num, by norm_num, by norm_num, by norm_num, by norm_num, prime_173378833005251801⟩)
    (by decide +kernel) (by decide +kernel)

theorem prime_132896956044521568488119 : Nat.Prime 132896956044521568488119 :=
  prime_of_lucas (g := 6) [2, 3, 22149492674086928081353] (by norm_num) (by norm_num)
    (by simp only [List.mem_cons, List.not_mem_nil, or_false, forall_eq_or_imp, forall_eq]
        exact ⟨by norm_num, by norm_num, prime_22149492674086928081353⟩)
    (by decide +kernel) (by decide +kernel)

theorem prime_107590001 : Nat.Prime 107590001 :=
  prime_of_lucas (g := 3) [2, 2, 2, 2, 5, 5, 5, 5, 7, 29, 53] (by norm_num) (by norm_num) (by norm_num)
    (by decide +kernel) (by decide +kernel)

theorem prime_255515944373312847190720520512484175977 : Nat.Prime 255515944373312847190720520512484175977 :=
  prime_of_lucas (g := 3) [2, 2, 2, 7, 7, 11, 1627, 2657, 4423, 41201, 96557, 7240687, 107590001] (by norm_num)
    (by norm_num)
    (by simp only [List.mem_cons, List.not_mem_nil, or_false, forall_eq_or_imp, forall_eq]
        refine ⟨?_, ?_, ?_, ?_, ?_, ?_, ?_, ?_, ?_, ?_, ?_, ?_, prime_107590001⟩ <;> norm_num)
    (by decide +kernel) (by decide +kernel)

theorem prime_secp_cofactor :
    Nat.Prime 205115282021455665897114700593932402728804164701536103180137503955397371 :=
  prime_of_lucas (g := 10)
    [2, 3, 5, 29, 29, 31, 7723, 132896956044521568488119, 255515944373312847190720520512484175977]
    (by norm_num) (by norm_num)
    (by simp only [List.mem_cons, List.not_mem_nil, or_false, forall_eq_or_imp, forall_eq]
        refine ⟨?_, ?_, ?_, ?_, ?_, ?_, ?_, prime_132896956044521568488119,
          prime_255515944373312847190720520512484175977⟩ <;> norm_num)
    (by decide +kernel) (by decide +kernel)

/-- The secp256k1 field prime is prime. -/
theorem secpP_prime : Nat.Prime secpP.toNat := by
  have h : secpP.toNat = 115792089237316195423570985008687907853269984665640564039457584007908834671663 := by decide
  rw [h]
  exact prime_of_lucas (g := 3)
    [2, 3, 7, 13441, 205115282021455665897114700593932402728804164701536103180137503955397371]
    (by norm_num) (by norm_num)
    (by simp only [List.mem_cons, List.not_mem_nil, or_false, forall_eq_or_imp, forall_eq]
        refine ⟨?_, ?_, ?_, ?_, prime_secp_cofactor⟩ <;> norm_num)
    (by decide +kernel) (by decide +kernel)

end Sys2Proof.Machine
end

