-- ==== Sys2Proof/Tests/Slice0.lean ====
section
/-!
SUPPORT. Tests: the checks of a command word, one decoded word per command, at most two steps per command, the port,
and a witness for the hypotheses of each statement. Every expected value is from `95_test_vectors.md` (the vector's
number stands in the docstring) or from the named rule.
-/

namespace Sys2Proof.Tests

open Sys2Proof Sys2Proof.Machine

/-! ### Building small states and reading results -/

/-- The state after reset with these field registers. -/
def withF (l : List (Reg × Nat × Nat)) (s : State := State.reset) : State :=
  l.foldl (fun s x => s.setF x.1 ⟨BitVec.ofNat 256 x.2.1, BitVec.ofNat 256 x.2.2⟩) s

/-- A field element. -/
def fe (n p : Nat) : FE := ⟨BitVec.ofNat 256 n, BitVec.ofNat 256 p⟩

/-- The state with these integer registers. -/
def withK (l : List (Reg × Int)) (s : State := State.reset) : State :=
  l.foldl (fun s x => s.setK x.1 ⟨decide (x.2 < 0), BitVec.ofNat 256 x.2.natAbs⟩) s

/-- The state with these point registers. -/
def withQ (l : List (Reg × Pt)) (s : State := State.reset) : State := l.foldl (fun s x => s.setQ x.1 x.2) s

/-- An affine point of E223, `y² = x³ + 7` over 223. -/
def e223 (x y : Nat) : Pt := ⟨.affine (BitVec.ofNat 256 x) (BitVec.ofNat 256 y), 0#256, 7#256, 223#256⟩

/-- The identity of E223. -/
def id223 : Pt := ⟨.identity, 0#256, 7#256, 223#256⟩

/-- The state a step answers. -/
def next? (r : Result) : Option State :=
  match r with
  | .next s => some s
  | .fault _ => none
  | .refused _ => none

/-- Field register `i` after a step. -/
def fAfter (r : Result) (i : Reg) : Option FE := (next? r).bind (fun s => s.f[i])

/-- Point register `i` after a step. -/
def qAfter (r : Result) (i : Reg) : Option Pt := (next? r).bind (fun s => s.q[i])

/-- Integer register `i` after a step, by its value. -/
def kAfter (r : Result) (i : Reg) : Option Int := (next? r).map (fun s => s.readK i)

/-- The `STATUS` word after a step. -/
def statusAfter (r : Result) : Option Word := (next? r).map State.statusWord

/-- The secp256k1 point with these coordinates. -/
def secpAt (x y : U256) : Pt := ⟨.affine x y, 0#256, 7#256, secpP⟩

/-- SECBUF holding these bytes from byte 0 on. -/
def withSec (bytes : List Byte) (s : State := State.reset) : State := s.setSecbuf (Memory.writeBytes s.secbuf 0 bytes)

/-! ### WellFormed: an ill-formed word for each check of R71 -/

theorem test_fits_fadd : (mkFields 0x11#8 (rd := 2#4) (rb := 1#4)).fits .dab = true := by decide
/-- V-E44: bit 3 of a used `rd`. -/
theorem test_refuses_rd_index : (mkFields 0x11#8 (rd := 8#4)).fits .dab = false := by decide
theorem test_refuses_ra_index : (mkFields 0x11#8 (ra := 9#4)).fits .dab = false := by decide
theorem test_refuses_rb_index : (mkFields 0x11#8 (rb := 15#4)).fits .dab = false := by decide
theorem test_refuses_rc_index : (mkFields 0x20#8 (rc := 8#4)).fits .dabce = false := by decide
theorem test_refuses_re_index : (mkFields 0x20#8 (re := 8#4)).fits .dabce = false := by decide
/-- V-E48: an unused `rd`. -/
theorem test_refuses_unused_rd : (mkFields 0x00#8 (rd := 1#4)).fits .z = false := by decide
/-- V-E51: an unused `ra`. -/
theorem test_refuses_unused_ra : (mkFields 0x21#8 (ra := 1#4)).fits .dce = false := by decide
/-- V-E52: an unused `rb`. -/
theorem test_refuses_unused_rb : (mkFields 0x26#8 (rb := 1#4)).fits .a = false := by decide
/-- V-E45: an unused `rc`. -/
theorem test_refuses_unused_rc : (mkFields 0x11#8 (rc := 1#4)).fits .dab = false := by decide
theorem test_refuses_unused_re : (mkFields 0x11#8 (re := 1#4)).fits .dab = false := by decide
/-- V-E46: flags outside SECENC. -/
theorem test_refuses_flags : (mkFields 0x11#8 (fl := 1#4)).fits .dab = false := by decide
/-- V-E49: `fl[1]` of SECENC; `fl[0]` is its `C`. -/
theorem test_refuses_secenc_flags : (mkFields 0x35#8 (fl := 2#4)).fits .af = false ∧
    (mkFields 0x35#8 (fl := 1#4)).fits .af = true := by decide
theorem test_every_sample_wellFormed : (Instr.secenc 7 true).wellFormed = true ∧ (Instr.pnew 7 6 5 4 3).wellFormed = true := by
  decide

/-- The masks of the ten shapes, as R72 prints them. -/
theorem test_masks : Format.mask .z = 0xFFFFFFFF#32 ∧ Format.mask .d = 0xFF8FFFFF#32 ∧ Format.mask .a = 0xFFF8FFFF#32 ∧
    Format.mask .af = 0xFFF8FFFE#32 ∧ Format.mask .da = 0xFF88FFFF#32 ∧ Format.mask .ab = 0xFFF88FFF#32 ∧
    Format.mask .dab = 0xFF888FFF#32 ∧ Format.mask .dce = 0xFF8FF88F#32 ∧ Format.mask .dabce = 0xFF88888F#32 ∧
    Format.mask .abce = 0xFFF8888F#32 := by decide

/-! ### Decoding: V-E1 to V-E32, the word of each command -/

/-- V-E1 to V-E12. -/
theorem test_decode_field : decode 0x00000000#32 = .command .nop ∧ decode 0x10001000#32 = .command (.fnew 0 0 1) ∧
    decode 0x11201000#32 = .command (.fadd 2 0 1) ∧ decode 0x12201000#32 = .command (.fsub 2 0 1) ∧
    decode 0x13201000#32 = .command (.fmul 2 0 1) ∧ decode 0x14321000#32 = .command (.fdiv 3 2 1) ∧
    decode 0x15100000#32 = .command (.finv 1 0) ∧ decode 0x16102000#32 = .command (.fpow 1 0 2) ∧
    decode 0x17100000#32 = .command (.fsqrt 1 0) ∧ decode 0x18030000#32 = .command (.feq 3 0) ∧
    decode 0x19330000#32 = .command (.fget 3 3) ∧ decode 0x1A100000#32 = .command (.fgetp 1 0) := by decide
/-- V-E13 to V-E23. -/
theorem test_decode_point : decode 0x20023010#32 = .command (.pnew 0 2 3 0 1) ∧
    decode 0x21100010#32 = .command (.pinf 1 0 1) ∧ decode 0x22210000#32 = .command (.padd 2 1 0) ∧
    decode 0x23100000#32 = .command (.pdbl 1 0) ∧ decode 0x24305000#32 = .command (.pmul 3 0 5) ∧
    decode 0x25001000#32 = .command (.peq 0 1) ∧ decode 0x26030000#32 = .command (.pisinf 3) ∧
    decode 0x27420000#32 = .command (.pgetx 4 2) ∧ decode 0x28100000#32 = .command (.pgety 1 0) ∧
    decode 0x29100000#32 = .command (.pgeta 1 0) ∧ decode 0x2A100000#32 = .command (.pgetb 1 0) := by decide
/-- V-E24 to V-E32. -/
theorem test_decode_secp : decode 0x30000000#32 = .command (.sldg 0) ∧ decode 0x31700000#32 = .command (.sldn 7) ∧
    decode 0x32000000#32 = .command (.sldp 0) ∧ decode 0x33001000#32 = .command (.snew 0 0 1) ∧
    decode 0x34100000#32 = .command (.smul 1 0 0) ∧ decode 0x35010001#32 = .command (.secenc 1 true) ∧
    decode 0x35010000#32 = .command (.secenc 1 false) ∧ decode 0x36200000#32 = .command (.secdec 2) ∧
    decode 0x37002340#32 = .command (.sverify 0 2 3 4) ∧ decode 0x11777000#32 = .command (.fadd 7 7 7) := by decide
/-- V-E40 to V-E54. -/
theorem test_decode_illegal : [0x01000000#32, 0xFFFFFFFF#32, 0x1B000000#32, 0x38000000#32, 0x11800000#32,
    0x11000100#32, 0x11000001#32, 0x00000001#32, 0x00100000#32, 0x35010002#32, 0x35110000#32, 0x21110010#32,
    0x26001000#32, 0x37100000#32, 0x15108000#32].all (fun w => decode w == .illegal) = true := by decide +kernel
/-- Words written from fields with different values in each, so that two swapped fields would show (R70, R73). -/
theorem test_encode_fields : encode (.pnew 1 2 3 4 5) = 0x20123450#32 ∧ encode (.sverify 2 3 4 5) = 0x37023450#32 ∧
    encode (.pinf 1 4 5) = 0x21100450#32 ∧ encode (.secenc 6 true) = 0x35060001#32 ∧
    encode (.fpow 1 2 3) = 0x16123000#32 := by decide
theorem test_decodeTableWord : decodeTableWord 32 0x11201000 = some (.fadd 2 0 1) ∧
    decodeTableWord 32 0x01000000 = none ∧ decodeTableWord 64 0x11201000 = none := by decide

/-! ### System and field commands -/

/-- V-L2. -/
theorem test_nop : statusAfter (exec .nop State.reset) = some 0x00000002#32 := by decide
/-- V-F1 and V-F7. -/
theorem test_fnew : fAfter (exec (.fnew 0 0 1) (withK [(0, 7), (1, 13)])) 0 = some (fe 7 13) ∧
    fAfter (exec (.fnew 0 0 1) ((withK [(1, 13)]).setK 0 ⟨true, 0#256⟩)) 0 = some (fe 0 13) := by decide
/-- V-F2, V-F6. -/
theorem test_fnew_range : statusAfter (exec (.fnew 0 0 1) (withK [(0, 13), (1, 13)])) = some 0x00000106#32 ∧
    statusAfter (exec (.fnew 0 0 1) (withK [(0, 0), (1, -13)])) = some 0x00000106#32 := by decide
/-- V-F10, V-L12. -/
theorem test_fadd : fAfter (exec (.fadd 2 0 1) (withF [(0, 7, 13), (1, 12, 13)])) 2 = some (fe 6 13) ∧
    fAfter (exec (.fadd 0 0 0) (withF [(0, 7, 13)])) 0 = some (fe 1 13) := by decide
/-- V-L8: an invalid source. -/
theorem test_fadd_uninit : statusAfter (exec (.fadd 2 0 1) State.reset) = some 0x00001106#32 := by decide
/-- V-F11. -/
theorem test_fsub : fAfter (exec (.fsub 2 0 1) (withF [(0, 7, 13), (1, 12, 13)])) 2 = some (fe 8 13) := by decide
/-- V-F15. -/
theorem test_fsub_wraps : fAfter (exec (.fsub 2 0 1) ((State.reset.setF 0 ⟨0#256, secpP⟩).setF 1 ⟨1#256, secpP⟩)) 2 =
    some ⟨secpP - 1#256, secpP⟩ := by decide
/-- V-F12. -/
theorem test_fmul : fAfter (exec (.fmul 2 0 1) (withF [(0, 3, 13), (1, 12, 13)])) 2 = some (fe 10 13) := by decide
/-- V-F13: the 512-bit product. -/
theorem test_fmul_wide : fAfter (exec (.fmul 1 0 0) (State.reset.setF 0 ⟨secpP - 1#256, secpP⟩)) 1 =
    some ⟨1#256, secpP⟩ := by decide
/-- V-F18, V-F49. -/
theorem test_fdiv : fAfter (exec (.fdiv 2 0 1) (withF [(0, 7, 19), (1, 5, 19)])) 2 = some (fe 9 19) ∧
    fAfter (exec (.fdiv 2 0 1) (withF [(0, 2, 15), (1, 4, 15)])) 2 = some (fe 8 15) := by decide +kernel
/-- V-F16, V-F25. -/
theorem test_fdiv_faults : statusAfter (exec (.fdiv 2 0 1) (withF [(0, 7, 13), (1, 7, 19)])) = some 0x00000206#32 ∧
    statusAfter (exec (.fdiv 1 0 0) (withF [(0, 0, 1)])) = some 0x00001406#32 := by decide +kernel
/-- V-F20, V-F21, V-F23. -/
theorem test_finv : fAfter (exec (.finv 1 0) (withF [(0, 7, 19)])) 1 = some (fe 11 19) ∧
    fAfter (exec (.finv 1 0) (withF [(0, 0, 19)])) 1 = some (fe 0 19) ∧
    fAfter (exec (.finv 1 0) (withF [(0, 0, 2)])) 1 = some (fe 1 2) := by decide +kernel
/-- V-F29, V-F31. -/
theorem test_fpow : fAfter (exec (.fpow 1 0 2) (withF [(0, 7, 13)] (withK [(2, -3)]))) 1 = some (fe 8 13) ∧
    fAfter (exec (.fpow 1 0 2) (withF [(0, 0, 13)] (withK [(2, 12)]))) 1 = some (fe 1 13) := by decide +kernel
/-- V-F37, V-F38. -/
theorem test_fsqrt : fAfter (exec (.fsqrt 1 0) (withF [(0, 98, 223)])) 1 = some (fe 105 223) ∧
    fAfter (exec (.fsqrt 1 0) (withF [(0, 3, 223)])) 1 = some (fe 144 223) := by decide +kernel
/-- V-F40. -/
theorem test_fsqrt_refuses : statusAfter (exec (.fsqrt 1 0) (withF [(0, 4, 13)])) = some 0x00000706#32 := by decide
/-- V-F44, V-F45. -/
theorem test_feq : statusAfter (exec (.feq 0 1) (withF [(0, 7, 13), (1, 7, 13)])) = some 0x0000000A#32 ∧
    statusAfter (exec (.feq 0 1) (withF [(0, 7, 13), (1, 7, 19)])) = some 0x00000002#32 := by decide
/-- V-F47. -/
theorem test_fget : kAfter (exec (.fget 3 3) (withF [(3, 7, 19)])) 3 = some 7 := by decide
/-- V-F47. -/
theorem test_fgetp : kAfter (exec (.fgetp 1 3) (withF [(3, 7, 19)])) 1 = some 19 := by decide

/-! ### Point commands -/

/-- V-P1. -/
theorem test_pnew : qAfter (exec (.pnew 0 2 3 0 1) (withF [(0, 0, 223), (1, 7, 223), (2, 47, 223), (3, 71, 223)])) 0 =
    some (e223 47 71) := by decide
/-- V-P2, V-P4. -/
theorem test_pnew_faults :
    statusAfter (exec (.pnew 0 2 3 0 1) (withF [(0, 0, 223), (1, 7, 223), (2, 200, 223), (3, 119, 223)])) =
      some 0x00000406#32 ∧
    statusAfter (exec (.pnew 0 2 3 0 1) (withF [(0, 0, 223), (1, 7, 11), (2, 47, 223), (3, 71, 223)])) =
      some 0x00000206#32 := by decide
/-- V-P6. -/
theorem test_pinf : qAfter (exec (.pinf 1 0 1) (withF [(0, 0, 223), (1, 7, 223)])) 1 = some id223 := by decide
/-- V-P8, V-P12. -/
theorem test_padd : qAfter (exec (.padd 2 0 1) (withQ [(0, e223 192 105), (1, e223 17 56)])) 2 = some (e223 170 142) ∧
    qAfter (exec (.padd 2 0 1) (withQ [(0, e223 47 71), (1, e223 47 152)])) 2 = some id223 := by decide +kernel
/-- V-P16: different curves, even for identities. -/
theorem test_padd_curves : statusAfter (exec (.padd 2 0 1) (withQ [(0, id223), (1, { id223 with b := 8#256 })])) =
    some 0x00000306#32 := by decide
/-- V-P17, V-P20. -/
theorem test_pdbl : qAfter (exec (.pdbl 1 0) (withQ [(0, e223 192 105)])) 1 = some (e223 49 71) ∧
    qAfter (exec (.pdbl 1 0) (withQ [(0, e223 6 0)])) 1 = some id223 := by decide +kernel
/-- V-P33: a composite modulus. -/
theorem test_pdbl_composite :
    statusAfter (exec (.pdbl 1 0) (withQ [(0, ⟨.affine 1#256 1#256, 0#256, 0#256, 15#256⟩)])) = some 0x00000406#32 := by
  decide +kernel
/-- V-P24, V-P25. -/
theorem test_pmul : qAfter (exec (.pmul 1 0 0) (withQ [(0, e223 47 71)] (withK [(0, 20)]))) 1 = some (e223 47 152) ∧
    qAfter (exec (.pmul 1 0 0) (withQ [(0, e223 47 71)] (withK [(0, 21)]))) 1 = some id223 := by decide +kernel
/-- V-P29: the sign check is first. -/
theorem test_pmul_negative : statusAfter (exec (.pmul 1 0 0) (withQ [(0, id223)] (withK [(0, -5)]))) =
    some 0x00000806#32 := by decide
/-- V-P35, V-P37. -/
theorem test_peq : statusAfter (exec (.peq 0 1) (withQ [(0, e223 47 71), (1, e223 47 152)])) = some 0x00000002#32 ∧
    statusAfter (exec (.peq 0 1) (withQ [(0, id223), (1, id223)])) = some 0x0000000A#32 := by decide
/-- V-P38. -/
theorem test_pisinf : statusAfter (exec (.pisinf 3) (withQ [(3, id223)])) = some 0x0000000A#32 ∧
    statusAfter (exec (.pisinf 3) (withQ [(3, e223 47 71)])) = some 0x00000002#32 := by decide
/-- V-P39. -/
theorem test_pgetx : fAfter (exec (.pgetx 4 2) (withQ [(2, e223 15 137)])) 4 = some (fe 15 223) := by decide
/-- V-P39, V-P40. -/
theorem test_pgety : fAfter (exec (.pgety 1 2) (withQ [(2, e223 15 137)])) 1 = some (fe 137 223) ∧
    statusAfter (exec (.pgety 4 3) (withQ [(3, id223)])) = some 0x00001206#32 := by decide
/-- V-P41. -/
theorem test_pgeta : fAfter (exec (.pgeta 0 3) (withQ [(3, id223)])) 0 = some (fe 0 223) := by decide
/-- V-P41. -/
theorem test_pgetb : fAfter (exec (.pgetb 1 3) (withQ [(3, id223)])) 1 = some (fe 7 223) := by decide

/-! ### secp256k1 commands -/

/-- V-S1. -/
theorem test_sldg : qAfter (exec (.sldg 0) State.reset) 0 = some
    (secpAt 0x79BE667EF9DCBBAC55A06295CE870B07029BFCDB2DCE28D959F2815B16F81798#256
      0x483ADA7726A3C4655DA4FBFC0E1108A8FD17B448A68554199C47D08FFB10D4B8#256) := by decide
/-- V-S2, by port reads. -/
theorem test_sldn : ((next? (exec (.sldn 7) State.reset)).map fun s =>
    ((s.hostRead (atOffset (offsetKW 7 0))).1, (s.hostRead (atOffset (offsetKW 7 3))).1)) =
    some (0xD0364141#32, 0xBAAEDCE6#32) := by decide
/-- V-S2, by port reads. -/
theorem test_sldp : ((next? (exec (.sldp 0) State.reset)).map fun s =>
    ((s.hostRead (atOffset 0x100)).1, (s.hostRead (atOffset 0x104)).1)) = some (0xFFFFFC2F#32, 0xFFFFFFFE#32) := by decide
/-- V-S3. -/
theorem test_snew : qAfter (exec (.snew 0 0 1) (withK [(0, secpGx.toNat), (1, secpGy.toNat)])) 0 = some secpG ∧
    statusAfter (exec (.snew 0 0 1) (withK [(0, 5), (1, 1)])) = some 0x00000406#32 := by decide +kernel
/-- V-S3. -/
theorem test_snew_range : statusAfter (exec (.snew 0 0 1) (withK [(0, secpP.toNat), (1, 1)])) = some 0x00000106#32 := by
  decide +kernel
/-- V-S4: `k = 2`. -/
theorem test_smul : qAfter (exec (.smul 1 0 0) (withQ [(0, secpG)] (withK [(0, 2)]))) 1 = some
    (secpAt 0xC6047F9441ED7D6D3045406E95C07CD85C778E4B8CEF3CA7ABAC09B95C709EE5#256
      0x1AE168FEA63DC339A3C58419466CEAEEF7F632653266D0E1236431A950CFE52A#256) := by decide +kernel
/-- V-S4: `k = N`; V-S5. -/
theorem test_smul_order : qAfter (exec (.smul 1 0 0) (withQ [(0, secpG)] (withK [(0, secpN.toNat)]))) 1 =
      some ⟨.identity, 0#256, 7#256, secpP⟩ ∧
    statusAfter (exec (.smul 1 0 0) (withQ [(0, e223 47 71)])) = some 0x00000306#32 := by decide +kernel
/-- V-S6, compressed: `SECLEN`, `SECW[0]`, `SECW[1]`. -/
theorem test_secenc : ((next? (exec (.secenc 0 true) (withQ [(0, secpG)]))).map fun s =>
    (s.seclen, (s.hostRead (atOffset 0x400)).1, (s.hostRead (atOffset 0x404)).1)) =
    some (33#7, 0x66BE7902#32, 0xBBDCF97E#32) := by decide +kernel
/-- V-S6, uncompressed: `SECLEN`, `SECW[16]`. -/
theorem test_secenc_uncompressed : ((next? (exec (.secenc 0 false) (withQ [(0, secpG)]))).map fun s =>
    (s.seclen, s.secbuf.read 0, (s.hostRead (atOffset 0x440)).1)) = some (65#7, 0x04#8, 0x000000B8#32) := by
  decide +kernel
/-- V-S7: `02 ‖ BE32(1)`, and the reset contents. -/
theorem test_secdec : qAfter (exec (.secdec 2) (withSec (0x02#8 :: be32 1#256))) 2 = some
      (secpAt 1#256 0x4218F20AE6C646B363DB68605822FB14264CA8D2587FDD6FBC750D587E76A7EE#256) ∧
    statusAfter (exec (.secdec 2) State.reset) = some 0x00001306#32 := by decide +kernel
/-- V-S7: `03 ‖ BE32(1)` and `02 ‖ BE32(5)`. -/
theorem test_secdec_odd : qAfter (exec (.secdec 2) (withSec (0x03#8 :: be32 1#256))) 2 = some
      (secpAt 1#256 0xBDE70DF51939B94C9C24979FA7DD04EBD9B3572DA7802290438AF2A681895441#256) ∧
    statusAfter (exec (.secdec 2) (withSec (0x02#8 :: be32 5#256))) = some 0x00000406#32 := by decide +kernel
/-- R166 by hand, for `P = G` and `z = r = s = x(2G)`: `u = v = 1`, so `R = 2G` and its `x` is `r`. -/
theorem test_sverify : statusAfter (exec (.sverify 0 1 1 1) (withQ [(0, secpG)]
    (withK [(1, 0xC6047F9441ED7D6D3045406E95C07CD85C778E4B8CEF3CA7ABAC09B95C709EE5)]))) = some 0x0000000A#32 := by
  decide +kernel
/-- R174: `s ≡ 0 (mod N)` faults. -/
theorem test_sverify_identity : statusAfter (exec (.sverify 0 1 1 2) (withQ [(0, secpG)] (withK [(1, 7)]))) =
    some 0x00001206#32 := by decide +kernel

/-! ### The port, the step and reset -/

/-- V-L3, V-L4: `K2` is at `0x180`; only bit 0 of the sign word is kept. -/
theorem test_port_k : ((State.reset.hostWrite (atOffset 0x180) 5#32).hostWrite (atOffset 0x1A0) 0xFFFFFFFF#32).k[(2 : Reg)] =
    ⟨true, 5#256⟩ ∧ (State.reset.hostWrite (atOffset 0x15C) 0xFFFFFFFF#32).k[(1 : Reg)].mag = 0xFFFFFFFF#256 <<< 224 := by
  decide
/-- V-L5: reserved and read-only offsets. -/
theorem test_port_reserved : ∀ off ∈ [0x000, 0x008, 0x014, 0x018, 0x01C, 0x0FC, 0x124, 0x13C, 0x2E4, 0x300, 0x3FC, 0x444, 0xFFC],
    State.reset.hostWrite (atOffset off) 1#32 = State.reset := by decide
/-- V-L7. -/
theorem test_port_secw : ((State.reset.hostWrite (atOffset 0x440) 0xAABBCCDD#32).hostRead (atOffset 0x440)).1 = 0x000000DD#32 ∧
    (State.reset.hostWrite (atOffset 0x400) 0x66BE7902#32).secbuf.readBytes 0 4 = [0x02#8, 0x79#8, 0xBE#8, 0x66#8] := by
  decide
/-- V-L10: while `BUSY = 1` an operand write is dropped with `OVR`, and `CTRL` is honoured. -/
theorem test_port_busy : (((State.reset.hostWrite (atOffset 0x004) 0x34100000#32).hostWrite (atOffset 0x100) 7#32).hostWrite
    (atOffset 0x00C) 1#32).statusWord = 0x00000011#32 := by decide
/-- V-L9: a command offered while a fault is recorded. -/
theorem test_offer_faulted : (State.reset.faulted 0x11#8 |>.hostWrite (atOffset 0x004) 0#32).statusWord = 0x00001116#32 ∧
    ((State.reset.faulted 0x11#8 |>.hostWrite (atOffset 0x004) 0#32).hostWrite (atOffset 0x010) 0x16#32) = State.reset := by
  decide
/-- V-L14: reset during a command. -/
theorem test_reset_during_command :
    ((State.reset.hostWrite (atOffset 0x004) 0x34100000#32).hostAct .rstAssert).hostAct .rstRelease = State.reset := by decide
/-- One step runs the word placed for it: `SLDN K7`. -/
theorem test_step_runs_word : kAfter (step (State.reset.withFetchWord 32 0x31700000)) 7 = some secpN.toNat := by decide
/-- V-E40: an illegal word. -/
theorem test_step_illegal : statusAfter (step (State.reset.withFetchWord 32 0x01000000)) = some 0x00001006#32 := by decide
/-- A host action tagged to come while the command runs comes first; one tagged to wait comes after (log entry 2). -/
theorem test_turn : ({ State.reset.accepted 0#32 with inbox := [⟨.whileBusy, .write (atOffset 0x00C) 1#32⟩] }).turn =
      .host (.write (atOffset 0x00C) 1#32) [] ∧
    ({ State.reset.accepted 0#32 with inbox := [⟨.afterCompletion, .read (atOffset 0x008)⟩] }).turn = .core := by decide
/-- R78: `KLOAD K2, -5` is the nine writes of V-L3. -/
theorem test_kload : (hostKLOAD 2 (-5)).length = 9 ∧ (hostKLOAD 2 (-5)).head? = (hostWR 0x180 5#32).head? ∧
    (hostKLOAD 2 (-5)).getLast? = (hostWR 0x1A0 1#32).head? := by decide
/-- R78: the value of `KREAD` from the nine words of V-L3, and the bytes of `SECREAD` from the words of V-L7. -/
theorem test_read_values : kreadValue [5#32, 0#32, 0#32, 0#32, 0#32, 0#32, 0#32, 0#32, 1#32] = -5 ∧
    kreadValue [0xD0364141#32, 0xBFD25E8C#32, 0xAF48A03B#32, 0xBAAEDCE6#32, 0xFFFFFFFE#32, 0xFFFFFFFF#32, 0xFFFFFFFF#32,
      0xFFFFFFFF#32, 0#32] = secpN.toNat ∧
    secreadBytes 5 [0x66BE7902#32, 0x000000DD#32] = [0x02#8, 0x79#8, 0xBE#8, 0x66#8, 0xDD#8] := by decide
/-- R78: the loop of ISSUE. V-L9: after a drop one read ends it. While `BUSY = 1` it is not over. -/
theorem test_issue_loop :
    ((State.reset.faulted 0x11#8 |>.hostWrite (atOffset 0x004) 0#32).hostAct (.poll 3)).inbox = [] ∧
    ((State.reset.faulted 0x11#8 |>.hostWrite (atOffset 0x004) 0#32).hostAct (.poll 3)).issueResult = some 0x00001116#32 ∧
    ((State.reset.accepted 0#32).hostAct (.poll 3)).inbox = [⟨.whileBusy, .poll 2⟩] ∧
    ((State.reset.accepted 0#32).hostAct (.poll 0)).turn = .core := by decide
/-- R77: the assembler text. -/
theorem test_asm : asm (.pnew 0 2 3 0 1) = "PNEW Q0, F2, F3, F0, F1" ∧ asm (.secenc 1 true) = "SECENC Q1, C" := by decide

/-! ### Witnesses: states and operands that meet the hypotheses of each statement

A statement that has several clauses has a witness for each, at a boundary value of its range where it has one. -/

/-- The state after reset with a command accepted and nothing pending on the host's side. -/
def busyWith (w : Word) (s : State := State.reset) : State := s.accepted w

theorem witness_EncodeInvertsDecode : decode 0x37077770#32 = .command (.sverify 7 7 7 7) := by decide

theorem witness_DecodeFollowsPrintedTable :
    (commandTable.any (fun r => 0x10777000#32 &&& r.mask == r.pattern)) = true ∧
    (commandTable.all (fun r => 0x10778000#32 &&& r.mask != r.pattern)) = true := by decide

theorem witness_IllegalWordIsAcceptedAndFaults :
    (commandTable.all (fun r => 0x11800000#32 &&& r.mask != r.pattern)) = true ∧ State.reset.busy = false ∧
    State.reset.errf = false ∧ State.reset.HostWaits := by decide

theorem witness_StepExecutesPendingCommand : (busyWith 0x31700000#32).busy = true ∧ (busyWith 0x31700000#32).HostWaits ∧
    decode (busyWith 0x31700000#32).pend = .command (.sldn 7) := by decide
/-- The same with a host action that waits. -/
theorem witness_StepExecutesPendingCommand_waiting :
    ({ busyWith 0x31700000#32 with inbox := [⟨.afterCompletion, .read (atOffset 0x008)⟩] } : State).HostWaits := by decide

theorem witness_StepTakesHostActionsInOrder :
    ({ busyWith 0#32 with inbox := [⟨.whileBusy, .rstAssert⟩] } : State).inbox = ⟨.whileBusy, .rstAssert⟩ :: [] ∧
    ({ State.reset with inbox := [⟨.afterCompletion, .rstAssert⟩] } : State).busy = false ∧
    State.reset.inbox = [] ∧ State.reset.busy = false ∧ State.reset.rst = false ∧
    (busyWith 0#32).rst = false := by decide

theorem witness_FaultLeavesOnlyItsRecord : (busyWith 0x11201000#32).busy = true ∧ (busyWith 0x11201000#32).HostWaits ∧
    (busyWith 0x11201000#32).errf = false ∧
    (step (busyWith 0x11201000#32) = .next ((busyWith 0x11201000#32).takeFault .uninit)) ∧
    ((busyWith 0x11201000#32).takeFault .uninit).errf = true :=
  ⟨by decide, by decide, by decide, rfl, by decide⟩

theorem witness_FaultsStayInTheCommandsRows : State.reset.FieldsValid ∧ State.reset.PointsValid ∧
    State.reset.errf = false ∧ exec (.fadd 2 0 1) State.reset = .next (State.reset.takeFault .uninit) ∧
    (State.reset.takeFault .uninit).errf = true :=
  ⟨fun i u h => by revert i; simp [State.reset], fun i u h => by revert i; simp [State.reset], by decide, rfl, by decide⟩

theorem witness_OnlyTestCommandsWriteT : writesT (.sldn 0) = false ∧
    exec (.sldn 0) State.reset = .next (State.reset.setK 0 (KInt.ofMag secpN)).complete ∧
    exec (.feq 0 1) State.reset = .next (State.reset.takeFault .uninit) ∧
    (State.reset.takeFault .uninit).errf = true := ⟨by decide, rfl, rfl, by decide⟩

/-- A command that writes no `T`, a test command that completes, and one that faults. -/
theorem witness_NoCommandReadsT : exec .nop State.reset = .next State.reset.complete ∧
    exec (.feq 0 0) (withF [(0, 7, 13)]) = .next ((withF [(0, 7, 13)]).setT true).complete ∧
    ((withF [(0, 7, 13)]).setT true).complete.errf = false ∧
    exec (.feq 0 1) State.reset = .next (State.reset.takeFault .uninit) ∧
    (State.reset.takeFault .uninit).errf = true := ⟨rfl, rfl, by decide, rfl, by decide⟩

/-- A command that writes a register, and one that writes SECBUF. -/
theorem witness_FrameOfEveryCommand : State.reset.secbuf.wf ∧ writesK (.sldn 0) ≠ some 1 ∧ writesSec (.sldn 0) = 0 ∧
    exec (.sldn 0) State.reset = .next (State.reset.setK 0 (KInt.ofMag secpN)).complete ∧
    ((next? (exec (.secenc 0 true) (withQ [(0, secpG)]))).isSome = true) ∧ writesSec (.secenc 0 true) ≤ 33 :=
  ⟨by decide, by decide, by decide, rfl, by decide +kernel, by decide⟩

theorem witness_ValidBitsClearedOnlyByReset : step (withF [(0, 7, 13)] (withQ [(0, id223)])) =
      .next (withF [(0, 7, 13)] (withQ [(0, id223)])) ∧
    (∀ ev ∈ (withF [(0, 7, 13)] (withQ [(0, id223)])).inbox.head?, ev.access ≠ .rstAssert) ∧
    (withF [(0, 7, 13)] (withQ [(0, id223)])).f[(0 : Reg)].isSome = true ∧
    (withF [(0, 7, 13)] (withQ [(0, id223)])).q[(0 : Reg)].isSome = true := ⟨rfl, by decide, by decide, by decide⟩

/-- An invalid field source (the last of PNEW's), and an invalid point source. -/
theorem witness_InvalidSourceRaisesUninit :
    (∃ r ∈ sourcesF (.pnew 0 1 1 1 7), (withF [(1, 7, 13)]).f[r] = none) ∧
    (∃ r ∈ sourcesQ (.sverify 7 0 0 0), (withF [(1, 7, 13)]).q[r] = none) :=
  ⟨⟨7, by decide, by decide⟩, ⟨7, by decide, by decide⟩⟩

/-- A legal word, an illegal word, and a reset asserted before the command. -/
theorem witness_PendingCommandIsExecuted : (busyWith 0x31700000#32).busy = true ∧
    decode (busyWith 0x31700000#32).pend = .command (.sldn 7) ∧ decode (busyWith 0x11800000#32).pend = .illegal ∧
    ({ busyWith 0#32 with inbox := [⟨.whileBusy, .rstAssert⟩] } : State).busy = true := by decide

/-- `n = 0` and `n = p − 1`; `n = p` and `n = −1`. -/
theorem witness_FnewConstructsOrRangeError :
    ((0 : Int) ≤ (withK [(0, 0), (1, 1)]).k[(0 : Reg)].toInt ∧
      (withK [(0, 0), (1, 1)]).k[(0 : Reg)].toInt < (withK [(0, 0), (1, 1)]).k[(1 : Reg)].toInt) ∧
    (withK [(0, 12), (1, 13)]).k[(0 : Reg)].toInt < (withK [(0, 12), (1, 13)]).k[(1 : Reg)].toInt ∧
    (withK [(0, 13), (1, 13)]).k[(1 : Reg)].toInt ≤ (withK [(0, 13), (1, 13)]).k[(0 : Reg)].toInt ∧
    (withK [(0, -1), (1, 13)]).k[(0 : Reg)].toInt < 0 := by decide

/-- Equal primes (the largest and the smallest numbers), and different primes. -/
theorem witness_FieldSumDifferenceProduct :
    ((withF [(0, 0, 13), (1, 12, 13)]).f[(0 : Reg)] = some (fe 0 13) ∧
      (withF [(0, 0, 13), (1, 12, 13)]).f[(1 : Reg)] = some (fe 12 13) ∧ (fe 0 13).Valid ∧ (fe 12 13).Valid ∧
      (fe 0 13).prime = (fe 12 13).prime) ∧
    ((withF [(0, 7, 13), (1, 7, 19)]).f[(0 : Reg)] = some (fe 7 13) ∧
      (withF [(0, 7, 13), (1, 7, 19)]).f[(1 : Reg)] = some (fe 7 19) ∧ (fe 7 13).Valid ∧ (fe 7 19).Valid ∧
      (fe 7 13).prime ≠ (fe 7 19).prime) := by decide

/-- The five clauses: over 2, over 1, different primes, zero over 3, zero over 2. -/
theorem witness_FdivMultipliesByFermatPower :
    ((withF [(0, 1, 2), (1, 1, 2)]).f[(0 : Reg)] = some (fe 1 2) ∧ (withF [(0, 1, 2), (1, 1, 2)]).f[(1 : Reg)] = some (fe 1 2) ∧
      (fe 1 2).Valid ∧ (fe 1 2).prime ≠ 1#256) ∧
    ((withF [(0, 0, 1), (1, 0, 1)]).f[(0 : Reg)] = some (fe 0 1) ∧ (withF [(0, 0, 1), (1, 0, 1)]).f[(1 : Reg)] = some (fe 0 1) ∧
      (fe 0 1).Valid ∧ (fe 0 1).prime = 1#256) ∧
    ((withF [(0, 0, 1), (1, 1, 2)]).f[(0 : Reg)] = some (fe 0 1) ∧ (withF [(0, 0, 1), (1, 1, 2)]).f[(1 : Reg)] = some (fe 1 2) ∧
      (fe 0 1).prime ≠ (fe 1 2).prime) ∧
    ((withF [(0, 2, 3), (1, 0, 3)]).f[(0 : Reg)] = some (fe 2 3) ∧ (withF [(0, 2, 3), (1, 0, 3)]).f[(1 : Reg)] = some (fe 0 3) ∧
      (fe 2 3).Valid ∧ (fe 0 3).Valid ∧ (fe 0 3).num = 0#256 ∧ 3 ≤ (fe 2 3).prime.toNat) ∧
    ((withF [(0, 1, 2), (1, 0, 2)]).f[(1 : Reg)] = some (fe 0 2) ∧ (fe 0 2).Valid ∧ (fe 0 2).num = 0#256 ∧
      (fe 1 2).prime.toNat = 2) := by decide

/-- The five clauses: over 1, over 2, zero over 3, zero over 2, non-zero over a prime. -/
theorem witness_FinvIsFermatInverse :
    ((withF [(0, 0, 1)]).f[(0 : Reg)] = some (fe 0 1) ∧ (fe 0 1).Valid ∧ (fe 0 1).prime = 1#256) ∧
    ((withF [(0, 1, 2)]).f[(0 : Reg)] = some (fe 1 2) ∧ (fe 1 2).Valid ∧ (fe 1 2).prime ≠ 1#256) ∧
    ((withF [(0, 0, 3)]).f[(0 : Reg)] = some (fe 0 3) ∧ (fe 0 3).Valid ∧ (fe 0 3).num = 0#256 ∧ 3 ≤ (fe 0 3).prime.toNat) ∧
    ((withF [(0, 0, 2)]).f[(0 : Reg)] = some (fe 0 2) ∧ (fe 0 2).Valid ∧ (fe 0 2).num = 0#256 ∧ (fe 0 2).prime.toNat = 2) ∧
    ((withF [(0, 18, 19)]).f[(0 : Reg)] = some (fe 18 19) ∧ (fe 18 19).Valid ∧ (fe 18 19).prime.toNat.Prime ∧
      (fe 18 19).num ≠ 0#256) := by
  refine ⟨by decide, by decide, by decide, by decide, by decide, by decide, ?_, by decide⟩
  norm_num [fe]

theorem witness_FpowNormalisesExponent :
    ((withF [(0, 0, 1)]).f[(0 : Reg)] = some (fe 0 1) ∧ (fe 0 1).Valid ∧ (fe 0 1).prime = 1#256) ∧
    ((withF [(0, 0, 2)]).f[(0 : Reg)] = some (fe 0 2) ∧ (fe 0 2).Valid ∧ (fe 0 2).prime ≠ 1#256) := by decide

theorem witness_FsqrtIsUncheckedPower :
    ((withF [(0, 4, 13)]).f[(0 : Reg)] = some (fe 4 13) ∧ (fe 4 13).Valid ∧ (fe 4 13).prime.toNat % 4 ≠ 3) ∧
    ((withF [(0, 2, 3)]).f[(0 : Reg)] = some (fe 2 3) ∧ (fe 2 3).Valid ∧ (fe 2 3).prime.toNat % 4 = 3) := by decide

/-- A square and a non-square over 7. -/
theorem witness_FsqrtSquaresToPlusOrMinus :
    ((withF [(0, 2, 7)]).f[(0 : Reg)] = some (fe 2 7) ∧ (fe 2 7).Valid ∧ (fe 2 7).prime.toNat.Prime ∧
      (fe 2 7).prime.toNat % 4 = 3 ∧ 3 * 3 % (fe 2 7).prime.toNat = (fe 2 7).num.toNat) ∧
    ((withF [(0, 3, 7)]).f[(0 : Reg)] = some (fe 3 7) ∧ (fe 3 7).Valid ∧
      ¬∃ y : Nat, y * y % (fe 3 7).prime.toNat = (fe 3 7).num.toNat) := by
  refine ⟨⟨by decide, by decide, by norm_num [fe], by decide, by decide⟩, by decide, by decide, ?_⟩
  rintro ⟨y, hy⟩
  have hlt := Nat.mod_lt y (show 0 < 7 by decide)
  have h : (y % 7) * (y % 7) % 7 = 3 := by rw [← Nat.mul_mod]; simpa [fe] using hy
  generalize y % 7 = z at h hlt
  interval_cases z <;> simp at h

theorem witness_FeqFgetFgetpResults : (withF [(0, 7, 13), (1, 7, 19)]).f[(0 : Reg)] = some (fe 7 13) ∧
    (withF [(0, 7, 13), (1, 7, 19)]).f[(1 : Reg)] = some (fe 7 19) := by decide

/-- With the exponent `prime − 1` in a `K` register too. -/
theorem witness_ProductDividedGivesBack :
    (withF [(0, 7, 19), (1, 5, 19)]).f[(0 : Reg)] = some (fe 7 19) ∧
    (withF [(0, 7, 19), (1, 5, 19)] (withK [(0, 18)])).f[(1 : Reg)] = some (fe 5 19) ∧ (fe 7 19).Valid ∧ (fe 5 19).Valid ∧
    (fe 7 19).prime = (fe 5 19).prime ∧ (fe 7 19).prime.toNat.Prime ∧ (fe 5 19).num ≠ 0#256 ∧
    (withF [(0, 7, 19), (1, 5, 19)] (withK [(0, 18)])).k[(0 : Reg)].toInt = ((fe 5 19).prime.toNat : Int) - 1 := by
  refine ⟨by decide, by decide, by decide, by decide, by decide, by norm_num [fe], by decide, by decide⟩

/-- Different primes; one prime, on the curve (V-P5) and off it (V-P2). -/
theorem witness_PnewValidatesPoint :
    ((withF [(0, 0, 223), (1, 7, 11), (2, 47, 223), (3, 71, 223)]).f[(1 : Reg)] = some (fe 7 11) ∧ (fe 47 223).Valid ∧
      ¬((fe 47 223).prime = (fe 71 223).prime ∧ (fe 47 223).prime = (fe 0 223).prime ∧
        (fe 47 223).prime = (fe 7 11).prime)) ∧
    ((withF [(0, 0, 223), (1, 7, 223), (2, 6, 223), (3, 0, 223)]).f[(2 : Reg)] = some (fe 6 223) ∧ (fe 6 223).Valid ∧
      0 * 0 % 223 = (6 * 6 * 6 + 0 * 6 + 7) % 223) ∧
    119 * 119 % 223 ≠ (200 * 200 * 200 + 0 * 200 + 7) % 223 := by decide

theorem witness_PnewCompletesOnCurve :
    (withF [(0, 0, 223), (1, 7, 223), (2, 47, 223), (3, 71, 223)]).f[(2 : Reg)] = some ⟨47#256, 223#256⟩ ∧
    (withF [(0, 0, 223), (1, 7, 223), (2, 47, 223), (3, 71, 223)]).f[(3 : Reg)] = some ⟨71#256, 223#256⟩ ∧
    (withF [(0, 0, 223), (1, 7, 223), (2, 47, 223), (3, 71, 223)]).f[(0 : Reg)] = some ⟨0#256, 223#256⟩ ∧
    (withF [(0, 0, 223), (1, 7, 223), (2, 47, 223), (3, 71, 223)]).f[(1 : Reg)] = some ⟨7#256, 223#256⟩ ∧
    0 < (223#256 : U256).toNat ∧ 71 * 71 % 223 = (47 * 47 * 47 + 0 * 47 + 7) % 223 := by decide

theorem witness_PinfMakesIdentity : (withF [(0, 0, 223), (1, 7, 223)]).f[(0 : Reg)] = some (fe 0 223) ∧
    (withF [(0, 0, 223), (1, 7, 223)]).f[(1 : Reg)] = some (fe 7 223) ∧ (fe 0 223).prime = (fe 7 223).prime ∧
    (withF [(0, 0, 223), (1, 7, 11)]).f[(1 : Reg)] = some (fe 7 11) ∧ (fe 0 223).prime ≠ (fe 7 11).prime := by decide

theorem e223_valid : (e223 47 71).Valid ∧ (e223 192 105).Valid ∧ (e223 47 152).Valid ∧ (e223 6 0).Valid ∧ id223.Valid := by
  simp only [Pt.Valid, OnCurve, e223, id223]
  decide

theorem witness_PaddFollowsGroupLaw : (withQ [(0, e223 47 71), (1, e223 192 105)]).q[(0 : Reg)] = some (e223 47 71) ∧
    (withQ [(0, e223 47 71), (1, e223 192 105)]).q[(1 : Reg)] = some (e223 192 105) ∧ (e223 47 71).Valid ∧
    (e223 192 105).Valid := ⟨by decide, by decide, e223_valid.1, e223_valid.2.1⟩

theorem witness_PdblAddsPointToItself : (withQ [(0, e223 47 71)]).q[(0 : Reg)] = some (e223 47 71) ∧ (e223 47 71).Valid ∧
    ((withQ [(0, id223)]).q[(0 : Reg)] = some id223 ∧ id223.Valid ∧ id223.coords = .identity) ∧
    ((withQ [(0, e223 6 0)]).q[(0 : Reg)] = some (e223 6 0) ∧ (e223 6 0).Valid ∧
      (e223 6 0).coords = .affine 6#256 0#256) :=
  ⟨by decide, e223_valid.1, ⟨by decide, e223_valid.2.2.2.2, by decide⟩, by decide, e223_valid.2.2.2.1, by decide⟩

/-- The clauses on the scalar: −1, 0 (the minus zero), 1. -/
theorem witness_PmulIsDoubleAndAdd : (withQ [(0, e223 47 71)] (withK [(0, -1), (2, 1)])).q[(0 : Reg)] = some (e223 47 71) ∧
    (e223 47 71).Valid ∧ (withQ [(0, e223 47 71)] (withK [(0, -1), (2, 1)])).k[(0 : Reg)].toInt < 0 ∧
    ((withQ [(0, e223 47 71)]).setK 1 ⟨true, 0#256⟩).k[(1 : Reg)].toInt = 0 ∧
    (withQ [(0, e223 47 71)] (withK [(0, -1), (2, 1)])).k[(2 : Reg)].toInt = 1 :=
  ⟨by decide, e223_valid.1, by decide, by decide, by decide⟩

theorem prime_223 : (223#256 : U256).toNat.Prime := by norm_num

theorem witness_PointArithmeticCompletesOverOddPrimes :
    (withQ [(0, e223 47 71), (1, e223 192 105)]).q[(0 : Reg)] = some (e223 47 71) ∧ (e223 47 71).Valid ∧
    (e223 47 71).prime.toNat.Prime ∧ (e223 47 71).prime.toNat ≠ 2 ∧
    ((withQ [(0, e223 47 71), (1, e223 192 105)]).q[(1 : Reg)] = some (e223 192 105) ∧ (e223 192 105).Valid ∧
      (e223 47 71).a = (e223 192 105).a ∧ (e223 47 71).b = (e223 192 105).b ∧
      (e223 47 71).prime = (e223 192 105).prime) ∧
    0 ≤ (withQ [(0, e223 47 71), (1, e223 192 105)]).k[(1 : Reg)].toInt :=
  ⟨by decide, e223_valid.1, prime_223, by decide, ⟨by decide, e223_valid.2.1, rfl, rfl, rfl⟩, by decide⟩

/-- The point `(0, 1)` of `y² = x³ + x + 1` over 2: valid, over a prime, and its doubling records `InvalidPoint` (log
entry 14), by the formulas of R107 and R132: `m = 1·(2·1)^0 = 1`, `x3 = 1`, `y3 = 1·(0 − 1) − 1 = 0`, and `0 ≠ 1 + 1 + 1`. -/
theorem witness_DoublingNeverInvalidOverAnyPrime : (⟨.affine 0#256 1#256, 1#256, 1#256, 2#256⟩ : Pt).Valid ∧
    (2#256 : U256).toNat.Prime ∧
    (withQ [(0, ⟨.affine 0#256 1#256, 1#256, 1#256, 2#256⟩)]).q[(0 : Reg)] =
      some ⟨.affine 0#256 1#256, 1#256, 1#256, 2#256⟩ ∧
    statusAfter (exec (.pdbl 1 0) (withQ [(0, ⟨.affine 0#256 1#256, 1#256, 1#256, 2#256⟩)])) = some 0x00000406#32 := by
  refine ⟨?_, by norm_num, by decide, by decide +kernel⟩
  simp only [Pt.Valid, OnCurve]
  decide

/-- A point with `y ≠ 0` of a curve in `x` and `b` alone is nonsingular over an odd prime. -/
theorem nonsingular_of_onCurve {p b x y : U256} [Fact p.toNat.Prime] (h2 : p.toNat ≠ 2) (hy : y.toNat < p.toNat)
    (hy0 : y ≠ 0#256) (h : OnCurve x.toNat y.toNat (0#256 : U256).toNat b.toNat p.toNat) :
    (curve p 0#256 b).Nonsingular (x.toNat : ZMod p.toNat) (y.toNat : ZMod p.toNat) := by
  rw [onCurve_iff_zmod] at h
  rw [WeierstrassCurve.Affine.nonsingular_iff, WeierstrassCurve.Affine.equation_iff]
  refine ⟨by simp at h ⊢; linear_combination h, .inr ?_⟩
  simp only [zero_mul, sub_zero, ne_eq]
  intro hneg
  have h2y : ((2 * y.toNat : Nat) : ZMod p.toNat) = 0 := by push_cast; linear_combination hneg
  rw [ZMod.natCast_eq_zero_iff] at h2y
  have hp : p.toNat.Prime := Fact.out
  rcases (Nat.Prime.dvd_mul hp).mp h2y with hd | hd
  · exact h2 ((Nat.prime_dvd_prime_iff_eq hp Nat.prime_two).mp hd)
  · exact hy0 (BitVec.eq_of_toNat_eq (by simpa using Nat.eq_zero_of_dvd_of_lt hd hy))

/-- `(47, 71)` and `(192, 105)` of E223, as points of Mathlib's group. -/
theorem witness_PaddIsGroupAddition : ∃ _ : Fact (223#256 : U256).toNat.Prime, ∃ X Y : (curve 223#256 0#256 7#256).Point,
    (223#256 : U256).toNat ≠ 2 ∧ (e223 47 71).Valid ∧ (e223 192 105).Valid ∧
    Represents 223#256 0#256 7#256 (.affine 47#256 71#256) X ∧
    Represents 223#256 0#256 7#256 (.affine 192#256 105#256) Y ∧
    (withQ [(0, e223 47 71), (1, e223 192 105)]).q[(0 : Reg)] = some ⟨.affine 47#256 71#256, 0#256, 7#256, 223#256⟩ ∧
    (withQ [(0, e223 47 71), (1, e223 192 105)]).q[(1 : Reg)] = some ⟨.affine 192#256 105#256, 0#256, 7#256, 223#256⟩ := by
  have hf : Fact (223#256 : U256).toNat.Prime := ⟨prime_223⟩
  have hX : (curve 223#256 0#256 7#256).Nonsingular ((47#256 : U256).toNat : ZMod _) ((71#256 : U256).toNat : ZMod _) :=
    nonsingular_of_onCurve (by decide) (by decide) (by decide) (by decide)
  have hY : (curve 223#256 0#256 7#256).Nonsingular ((192#256 : U256).toNat : ZMod _) ((105#256 : U256).toNat : ZMod _) :=
    nonsingular_of_onCurve (by decide) (by decide) (by decide) (by decide)
  exact ⟨hf, .some _ _ hX, .some _ _ hY, by decide, e223_valid.1, e223_valid.2.1, .inr ⟨_, _, hX, rfl, rfl⟩,
    .inr ⟨_, _, hY, rfl, rfl⟩, by decide, by decide⟩

theorem witness_PmulIsGroupMultiple : ∃ _ : Fact (223#256 : U256).toNat.Prime, ∃ X : (curve 223#256 0#256 7#256).Point,
    (223#256 : U256).toNat ≠ 2 ∧ (e223 47 71).Valid ∧ Represents 223#256 0#256 7#256 (.affine 47#256 71#256) X ∧
    (withQ [(0, e223 47 71)] (withK [(0, 20)])).q[(0 : Reg)] = some ⟨.affine 47#256 71#256, 0#256, 7#256, 223#256⟩ ∧
    (withQ [(0, e223 47 71)] (withK [(0, 20)])).k[(0 : Reg)].toInt = (20 : Nat) := by
  obtain ⟨hf, X, -, h1, h2, -, h3, -⟩ := witness_PaddIsGroupAddition
  exact ⟨hf, X, h1, h2, h3, by decide, by decide⟩

/-- An identity; a point and its negative, and a point that is its own negative (V-D9). -/
theorem witness_IdentityAndNegatedPoint :
    ((withQ [(0, e223 47 71), (1, id223)]).q[(0 : Reg)] = some (e223 47 71) ∧
      (withQ [(0, e223 47 71), (1, id223)]).q[(1 : Reg)] = some id223 ∧ (e223 47 71).Valid ∧ id223.Valid ∧
      id223.a = (e223 47 71).a ∧ id223.b = (e223 47 71).b ∧ id223.prime = (e223 47 71).prime ∧
      id223.coords = .identity) ∧
    ((withQ [(0, e223 47 71), (1, e223 47 152)]).q[(1 : Reg)] = some (e223 47 152) ∧ (e223 47 152).Valid ∧
      (e223 47 71).prime.toNat % 2 = 1 ∧ ((152 : Nat) : Int) = -(71 : Int) % 223) ∧
    ((e223 6 0).Valid ∧ ((0 : Nat) : Int) = -(0 : Int) % 223) :=
  ⟨⟨by decide, by decide, e223_valid.1, e223_valid.2.2.2.2, rfl, rfl, rfl, rfl⟩,
    ⟨by decide, e223_valid.2.2.1, by decide, by decide⟩, e223_valid.2.2.2.1, by decide⟩

theorem witness_PeqPisinfResults : (withQ [(0, e223 47 71), (1, id223)]).q[(0 : Reg)] = some (e223 47 71) ∧
    (withQ [(0, e223 47 71), (1, id223)]).q[(1 : Reg)] = some id223 := by decide

theorem witness_PointPartsReadOut : ((withQ [(2, e223 15 137)]).q[(2 : Reg)] = some (e223 15 137) ∧
      (e223 15 137).coords = .affine 15#256 137#256) ∧
    ((withQ [(3, id223)]).q[(3 : Reg)] = some id223 ∧ id223.coords = .identity) := by decide

/-- Out of range (`x = p`, `y = −1`), in range and off the curve, on it (V-S3). -/
theorem witness_SnewConstructsPoint :
    ((withK [(0, secpP.toNat), (1, 1)]).k[(0 : Reg)].toInt = secpP.toNat ∧
      ¬(0 ≤ (secpP.toNat : Int) ∧ (secpP.toNat : Int) < secpP.toNat ∧ 0 ≤ (1 : Int) ∧ (1 : Int) < secpP.toNat)) ∧
    ((withK [(0, 5), (1, -1)]).k[(1 : Reg)].toInt = -1) ∧
    ((withK [(0, 5), (1, 1)]).k[(0 : Reg)].toInt = 5 ∧ (withK [(0, 5), (1, 1)]).k[(1 : Reg)].toInt = 1 ∧
      (1 : Int) * 1 % secpP.toNat ≠ (5 * 5 * 5 + 7) % secpP.toNat ∧ (5 : Int) < secpP.toNat) ∧
    ((withK [(0, secpGx.toNat), (1, secpGy.toNat)]).k[(0 : Reg)].toInt = secpGx.toNat ∧
      (withK [(0, secpGx.toNat), (1, secpGy.toNat)]).k[(1 : Reg)].toInt = secpGy.toNat ∧
      (secpGx.toNat : Int) < secpP.toNat ∧ (secpGy.toNat : Int) < secpP.toNat ∧
      (secpGy.toNat : Int) * secpGy.toNat % secpP.toNat =
        ((secpGx.toNat : Int) * secpGx.toNat * secpGx.toNat + 7) % secpP.toNat) := by decide +kernel

theorem witness_SmulReducesScalarAndCompletes :
    ((withQ [(0, e223 47 71)]).q[(0 : Reg)] = some (e223 47 71) ∧ (e223 47 71).Valid ∧
      ¬((e223 47 71).a = 0#256 ∧ (e223 47 71).b = 7#256 ∧ (e223 47 71).prime = secpP)) ∧
    ((withQ [(0, secpG)]).q[(0 : Reg)] = some secpG ∧ secpG.Valid ∧ secpG.a = 0#256 ∧ secpG.b = 7#256 ∧
      secpG.prime = secpP) :=
  ⟨⟨by decide, e223_valid.1, by decide⟩, by decide, secpG_valid, rfl, rfl, rfl⟩

theorem witness_GroupOrderGivesIdentity : (withQ [(0, secpG)] (withK [(0, secpN.toNat)])).q[(0 : Reg)] = some secpG ∧
    (withQ [(0, secpG)] (withK [(0, secpN.toNat)])).k[(0 : Reg)] = ⟨false, secpN⟩ := by decide

/-- A point of another curve, the identity of secp256k1, and the generator. -/
theorem witness_SecencWritesSecBytes :
    ((withQ [(0, e223 47 71)]).q[(0 : Reg)] = some (e223 47 71) ∧ (withQ [(0, e223 47 71)]).secbuf.wf ∧
      ¬((e223 47 71).a = 0#256 ∧ (e223 47 71).b = 7#256 ∧ (e223 47 71).prime = secpP)) ∧
    ((withQ [(0, ⟨.identity, 0#256, 7#256, secpP⟩)]).q[(0 : Reg)] = some ⟨.identity, 0#256, 7#256, secpP⟩) ∧
    ((withQ [(0, secpG)]).q[(0 : Reg)] = some secpG ∧ (withQ [(0, secpG)]).secbuf.wf ∧ secpG.a = 0#256 ∧
      secpG.b = 7#256 ∧ secpG.prime = secpP ∧ secpG.coords = .affine secpGx secpGy) := by decide

/-- The clauses: `04` with `x = p`; `04` with `G`; `02` with `x = p`; `02` with `G`; another prefix. -/
theorem witness_SecdecDecodesByPrefix :
    ((withSec (0x04#8 :: (be32 secpP ++ be32 secpGy))).secbuf.read 0 = 0x04#8 ∧
      secInteger (withSec (0x04#8 :: (be32 secpP ++ be32 secpGy))).secbuf 1 32 = secpP.toNat) ∧
    (secInteger (withSec (0x04#8 :: (be32 secpGx ++ be32 secpGy))).secbuf 1 32 = secpGx.toNat ∧
      secInteger (withSec (0x04#8 :: (be32 secpGx ++ be32 secpGy))).secbuf 33 32 = secpGy.toNat ∧
      secpGx.toNat < secpP.toNat ∧ secpGy.toNat < secpP.toNat) ∧
    ((withSec (0x02#8 :: be32 secpP)).secbuf.read 0 = 0x02#8 ∧
      secInteger (withSec (0x02#8 :: be32 secpP)).secbuf 1 32 = secpP.toNat) ∧
    ((withSec (0x02#8 :: be32 secpGx)).secbuf.read 0 = (if secpGy.toNat % 2 = 0 then 0x02#8 else 0x03#8) ∧
      secInteger (withSec (0x02#8 :: be32 secpGx)).secbuf 1 32 = secpGx.toNat ∧
      secpGy.toNat * secpGy.toNat % secpP.toNat = (secpGx.toNat * secpGx.toNat * secpGx.toNat + 7) % secpP.toNat) ∧
    (State.reset.secbuf.read 0 ≠ 0x02#8 ∧ State.reset.secbuf.read 0 ≠ 0x03#8 ∧ State.reset.secbuf.read 0 ≠ 0x04#8) := by
  decide +kernel

/-- The clause of an `x` with no point: 132 = 5³ + 7 is not a square modulo `p` (V-S7), by Euler's criterion. -/
theorem witness_SecdecDecodesByPrefix_noPoint : (withSec (0x02#8 :: be32 5#256)).secbuf.read 0 = 0x02#8 ∧
    secInteger (withSec (0x02#8 :: be32 5#256)).secbuf 1 32 = 5 ∧ 5 < secpP.toNat ∧
    ∀ y : Nat, y < secpP.toNat → y * y % secpP.toNat ≠ (5 * 5 * 5 + 7) % secpP.toNat := by
  refine ⟨by decide +kernel, by decide +kernel, by decide +kernel, fun y hy h => ?_⟩
  have hf : Fact secpP.toNat.Prime := ⟨secpP_prime⟩
  have hpow : modexp ((132 : Nat) : Int) ((secpP.toNat - 1) / 2) secpP.toNat ≠ 1 := by decide +kernel
  rw [modexp_eq] at hpow
  have h132 : ((y : ZMod secpP.toNat)) * y = (132 : Nat) := by
    rw [← Nat.cast_mul, ZMod.natCast_eq_natCast_iff']; exact h
  have hne : ((132 : Nat) : ZMod secpP.toNat) ≠ 0 := by
    rw [Ne, ZMod.natCast_eq_zero_iff]
    intro hd
    have := Nat.le_of_dvd (by decide) hd
    exact absurd this (by decide)
  have he := (ZMod.euler_criterion secpP.toNat hne).mp ⟨(y : ZMod secpP.toNat), h132.symm⟩
  apply hpow
  have hdiv : (secpP.toNat - 1) / 2 = secpP.toNat / 2 := by decide +kernel
  rw [hdiv]
  have h1 : ((132 ^ (secpP.toNat / 2) : Nat) : ZMod secpP.toNat) = ((1 : Nat) : ZMod secpP.toNat) := by
    rw [Nat.cast_pow, he, Nat.cast_one]
  rw [ZMod.natCast_eq_natCast_iff'] at h1
  rw [h1]
  decide +kernel

theorem witness_SecRoundTripGivesPointBack : secpG = ⟨.affine secpGx secpGy, 0#256, 7#256, secpP⟩ ∧ secpG.Valid ∧
    (withQ [(1, secpG)]).secbuf.wf ∧ (withQ [(1, secpG)]).q[(1 : Reg)] = some secpG :=
  ⟨rfl, secpG_valid, by decide, by decide⟩

/-- A key of another curve; a key on secp256k1 with `s = 1`, and `R` the identity (`z = r = 0`) or `R = G` (`z = 1`,
`r = 0`). -/
theorem witness_SverifyComparesXCoordinate :
    ((withQ [(0, e223 47 71)]).q[(0 : Reg)] = some (e223 47 71) ∧ (e223 47 71).Valid ∧
      ¬((e223 47 71).a = 0#256 ∧ (e223 47 71).b = 7#256 ∧ (e223 47 71).prime = secpP)) ∧
    ((withQ [(0, secpG)]).q[(0 : Reg)] = some secpG ∧ secpG.Valid ∧ secpG.a = 0#256 ∧ secpG.b = 7#256 ∧
      secpG.prime = secpP) ∧
    (withQ [(0, secpG)] (withK [(1, 1)])).k[(1 : Reg)].toInt = 1 ∧ (withQ [(0, secpG)]).k[(1 : Reg)].toInt = 0 ∧
    (1 : Int) = 1 ^ (secpN.toNat - 2) % secpN.toNat ∧
    (scalarMultiple secpG (0 * 1 % secpN.toNat) = .ok ⟨.identity, 0#256, 7#256, secpP⟩) ∧
    (scalarMultiple secpG (1 * 1 % secpN.toNat) = .ok secpG) ∧
    (groupLaw ⟨.identity, 0#256, 7#256, secpP⟩ ⟨.identity, 0#256, 7#256, secpP⟩).toOption.map (fun R => R.coords) =
      some .identity ∧
    (groupLaw secpG ⟨.identity, 0#256, 7#256, secpP⟩).toOption.map (fun R => R.coords) =
      some (.affine secpGx secpGy) := by
  refine ⟨⟨by decide, e223_valid.1, by decide⟩, ⟨by decide, secpG_valid, rfl, rfl, rfl⟩, by decide, by decide, ?_,
    rfl, rfl, rfl, rfl⟩
  rw [one_pow]
  decide

/-- Key `G`, `s = 1`: with `z = r = 0` the sum is the identity; with `z = 1`, `r = 0` it is `G`. -/
theorem witness_SverifyIsEcdsaVerification : ∃ _ : Fact secpP.toNat.Prime, ∃ G : (curve secpP 0#256 7#256).Point,
    ∃ h : (curve secpP 0#256 7#256).Nonsingular (secpGx.toNat : ZMod secpP.toNat) (secpGy.toNat : ZMod secpP.toNat),
    Represents secpP 0#256 7#256 secpG.coords G ∧ (⟨secpG.coords, 0#256, 7#256, secpP⟩ : Pt).Valid ∧
    (withQ [(0, secpG)]).q[(0 : Reg)] = some ⟨secpG.coords, 0#256, 7#256, secpP⟩ ∧
    (withQ [(0, secpG)] (withK [(1, 1)])).k[(1 : Reg)].toInt = 1 ∧ (withQ [(0, secpG)]).k[(1 : Reg)].toInt = 0 ∧
    (((1 : Nat) : Int) = 1 ^ (secpN.toNat - 2) % secpN.toNat) ∧ (((0 : Nat) : Int) = 0 * ((1 : Nat) : Int) % secpN.toNat) ∧
    (((1 : Nat) : Int) = 1 * ((1 : Nat) : Int) % secpN.toNat) ∧ (0 • G + 0 • G = 0) ∧
    secpGx.toNat < secpP.toNat ∧ secpGy.toNat < secpP.toNat ∧ (1 • G + 0 • G = .some _ _ h) := by
  have hf : Fact secpP.toNat.Prime := ⟨secpP_prime⟩
  have hG : (curve secpP 0#256 7#256).Nonsingular (secpGx.toNat : ZMod secpP.toNat) (secpGy.toNat : ZMod secpP.toNat) :=
    nonsingular_of_onCurve (by decide) (by decide) (by decide) secpG_valid.2.2.2.2
  refine ⟨hf, .some _ _ hG, hG, .inr ⟨_, _, hG, rfl, rfl⟩, secpG_valid, by decide, by decide, by decide, ?_, by decide,
    by decide, by simp, by decide, by decide, by simp⟩
  rw [one_pow]
  decide

/-- A state with the reset input asserted. -/
theorem witness_ResetOverridesEverything : State.reset.assertReset.rst = true := by decide

/-- The clauses on offsets: the first and last reserved words, and `BUSY = 0`. -/
theorem witness_HostReadReturnsMappedValue : State.reset.busy = false ∧ (0x01C < 0x1000 ∧ 0x01C % 4 = 0 ∧
    namedOffset 0x01C = false) ∧ (0xFFC < 0x1000 ∧ 0xFFC % 4 = 0 ∧ namedOffset 0xFFC = false) ∧
    namedOffset 0x124 = false ∧ namedOffset 0x120 = true ∧ namedOffset 0x440 = true ∧ namedOffset 0x444 = false ∧
    namedOffset 0x2E0 = true ∧ namedOffset 0x300 = false := by decide

theorem witness_HostReadChangesNothing : State.reset.busy = false ∧ (busyWith 0#32).busy = true ∧
    operandOffset (4 * (atOffset 0x0FC).val) = false ∧ operandOffset (4 * (atOffset 0x100).val) = true ∧
    operandOffset (4 * (atOffset 0x2E0).val) = true ∧ operandOffset (4 * (atOffset 0x440).val) = true ∧
    operandOffset (4 * (atOffset 0x444).val) = false := by decide

/-- An accepted and a dropped word. -/
theorem witness_IssueReadsStatusUntilNotBusy : State.reset.busy = false ∧ State.reset.rst = false ∧
    State.reset.errf = false ∧ (State.reset.faulted 0x11#8).busy = false ∧ (State.reset.faulted 0x11#8).rst = false ∧
    (State.reset.faulted 0x11#8).errf = true := by decide

/-- The largest magnitudes, and the longest byte string. -/
theorem witness_HostStatementsReadBack : State.reset.busy = false ∧ State.reset.rst = false ∧ State.reset.secbuf.wf ∧
    (2 ^ 256 - 1 : Int).natAbs < 2 ^ 256 ∧ (-(2 ^ 256 - 1) : Int).natAbs < 2 ^ 256 ∧
    (List.replicate 65 (0xFF#8 : Byte)).length ≤ 65 := by decide

theorem witness_HostWriteStoresByMap : State.reset.busy = false ∧ State.reset.secbuf.wf ∧ (busyWith 0#32).busy = true ∧
    namedOffset 0x0FC = false := by decide

theorem witness_EveryStepKeepsInvariant : (withF [(0, 7, 13)] State.reset).Inv ∧
    step (withF [(0, 7, 13)] State.reset) = .next (withF [(0, 7, 13)] State.reset) := by
  refine ⟨⟨fun i u h => ?_, fun i u h => ?_, by decide, by decide, by decide, by decide⟩, rfl⟩
  · have key : ∀ i : Reg, (withF [(0, 7, 13)] State.reset).f[i] = none ∨
        (withF [(0, 7, 13)] State.reset).f[i] = some (fe 7 13) := by decide
    rcases key i with h' | h' <;> rw [h'] at h <;> cases h
    decide
  · have key : ∀ i : Reg, (withF [(0, 7, 13)] State.reset).q[i] = none := by decide
    rw [key i] at h
    cases h

end Sys2Proof.Tests
end

section
/-!
PROOFS of the family `10_state.md`. First the rules they share: what a completed command writes, register file by
register file; what a host write and a host action can do; the port map by byte offset. Then the statements.
-/

namespace Sys2Proof.Machine

/-! ### What a command that completes writes -/

/-- The writes of a completed command, by what is written instead of by command: `Written` in the terms of the tables
`writesF`, `writesQ`, `writesK`, `writesT` and `writesSec`. -/
inductive Writes (i : Instr) (s : State) : State → Prop
  | nothing : Writes i s s
  | field (rd : Reg) (v : FE) (hrd : writesF i = some rd) (hv : s.FieldsValid → s.PointsValid → v.Valid) :
      Writes i s (s.setF rd v)
  | point (rd : Reg) (p : Pt) (hrd : writesQ i = some rd) (hp : s.FieldsValid → s.PointsValid → p.Valid) :
      Writes i s (s.setQ rd p)
  | integer (rd : Reg) (m : U256) (hrd : writesK i = some rd) : Writes i s (s.setK rd (KInt.ofMag m))
  | flag (b : Bool) (ht : writesT i = true) : Writes i s (s.setT b)
  | sec (bytes : List Byte) (hw : bytes.length = writesSec i) (hl : bytes.length = 33 ∨ bytes.length = 65) :
      Writes i s ((s.setSecbuf (Memory.writeBytes s.secbuf 0 bytes)).setSeclen (BitVec.ofNat 7 bytes.length))

theorem WritesF.writes {i : Instr} {rd : Reg} {s s' : State} (h : WritesF rd s s') (hrd : writesF i = some rd) :
    Writes i s s' := by
  obtain ⟨v, rfl, hv⟩ := h
  exact .field rd v hrd hv

theorem WritesQ.writes {i : Instr} {rd : Reg} {s s' : State} (h : WritesQ rd s s') (hrd : writesQ i = some rd) :
    Writes i s s' := by
  obtain ⟨p, rfl, hp⟩ := h
  exact .point rd p hrd hp

theorem WritesK.writes {i : Instr} {rd : Reg} {s s' : State} (h : WritesK rd s s') (hrd : writesK i = some rd) :
    Writes i s s' := by
  obtain ⟨m, rfl⟩ := h
  exact .integer rd m hrd

theorem WritesT.writes {i : Instr} {s s' : State} (h : WritesT s s') (ht : writesT i = true) : Writes i s s' := by
  obtain ⟨b, rfl⟩ := h
  exact .flag b ht

theorem WritesSec.writes {ra : Reg} {c : Bool} {s s' : State} (h : WritesSec c s s') :
    Writes (.secenc ra c) s s' := by
  obtain ⟨bytes, hl, rfl⟩ := h
  refine .sec bytes hl ?_
  cases c
  · exact .inr hl
  · exact .inl hl

/-- The writes of each command's row are of one of the six kinds. -/
theorem Written.writes {i : Instr} {s s' : State} (h : Written i s s') : Writes i s s' := by
  cases i with
  | nop =>
    have e : s' = s := h
    exact e ▸ .nothing
  | fnew | fadd | fsub | fmul | fdiv | finv | fpow | fsqrt | pgetx | pgety | pgeta | pgetb =>
    exact WritesF.writes h rfl
  | pnew | pinf | padd | pdbl | pmul | sldg | snew | smul | secdec => exact WritesQ.writes h rfl
  | fget | fgetp | sldn | sldp => exact WritesK.writes h rfl
  | feq | peq | pisinf | sverify => exact WritesT.writes h rfl
  | secenc => exact WritesSec.writes h

/-- What a command can answer: the record of a fault, or its completed writes (`40_system.md` R91). -/
theorem exec_next_cases {i : Instr} {s t : State} (h : exec i s = .next t) :
    (∃ e, t = s.takeFault e) ∨ ∃ s', Writes i s s' ∧ t = s'.complete := by
  rcases exec_cases i s with ⟨e, he⟩ | ⟨s', hw, he⟩ <;> rw [he] at h <;> cases h
  · exact .inl ⟨e, rfl⟩
  · exact .inr ⟨s', hw.writes, rfl⟩

/-- No write of a command touches the status bits but `T`, the fault record or the reset level. -/
theorem Writes.status_eq {i : Instr} {s s' : State} (h : Writes i s s') :
    s'.errf = s.errf ∧ s'.errcode = s.errcode ∧ s'.errcmd = s.errcmd ∧ s'.rst = s.rst := by
  cases h <;> exact ⟨rfl, rfl, rfl, rfl⟩

theorem Writes.t_eq {i : Instr} {s s' : State} (h : Writes i s s') (ht : writesT i = false) : s'.t = s.t := by
  cases h with
  | flag b ht' => cases ht.symm.trans ht'
  | _ => rfl

/-- A command that ends with `ERRF = 1` where there was no fault has taken one. -/
theorem exec_fault_of_errf {i : Instr} {s t : State} (h : exec i s = .next t) (hs : s.errf = false)
    (ht : t.errf = true) : ∃ e, t = s.takeFault e := by
  rcases exec_next_cases h with he | ⟨s', hw, rfl⟩
  · exact he
  · obtain ⟨herrf, -, -, -⟩ := hw.status_eq
    cases hs.symm.trans (herrf.symm.trans ht)

/-! ### Registers after a register write -/

theorem State.setF_f_get (s : State) (i r : Reg) (v : FE) : (s.setF i v).f[r] = if i = r then some v else s.f[r] := by
  simp [Fin.getElem_fin, Vector.getElem_set, Fin.ext_iff]

theorem State.setQ_q_get (s : State) (i r : Reg) (p : Pt) : (s.setQ i p).q[r] = if i = r then some p else s.q[r] := by
  simp [Fin.getElem_fin, Vector.getElem_set, Fin.ext_iff]

theorem State.setK_k_get (s : State) (i r : Reg) (v : KInt) : (s.setK i v).k[r] = if i = r then v else s.k[r] := by
  simp [Fin.getElem_fin, Vector.getElem_set, Fin.ext_iff]

/-- A command leaves the `F` registers that its row does not name. -/
theorem Writes.f_eq {i : Instr} {s s' : State} (h : Writes i s s') {r : Reg} (hr : writesF i ≠ some r) :
    s'.f[r] = s.f[r] := by
  cases h with
  | field rd v hrd _ => rw [State.setF_f_get, if_neg (by rintro rfl; exact hr hrd)]
  | _ => rfl

/-- A command leaves the `Q` registers that its row does not name. -/
theorem Writes.q_eq {i : Instr} {s s' : State} (h : Writes i s s') {r : Reg} (hr : writesQ i ≠ some r) :
    s'.q[r] = s.q[r] := by
  cases h with
  | point rd p hrd _ => rw [State.setQ_q_get, if_neg (by rintro rfl; exact hr hrd)]
  | _ => rfl

/-- A command leaves a `K` register, or its row names it and the new value has `neg = 0` (`10_state.md` R23). -/
theorem Writes.k_cases {i : Instr} {s s' : State} (h : Writes i s s') (r : Reg) :
    s'.k[r] = s.k[r] ∨ writesK i = some r ∧ s'.k[r].neg = false := by
  cases h with
  | integer rd m hrd =>
    rw [State.setK_k_get]
    split
    · next e => exact .inr ⟨e ▸ hrd, rfl⟩
    · exact .inl rfl
  | _ => exact .inl rfl

/-- A command leaves the bytes of SECBUF after those it writes. -/
theorem Writes.read_secbuf {i : Instr} {s s' : State} (h : Writes i s s') (hm : s.secbuf.wf) {j : Nat}
    (hj : writesSec i ≤ j) : s'.secbuf.read j = s.secbuf.read j := by
  cases h with
  | sec bytes hw _ =>
    rw [State.setSeclen_secbuf, State.setSecbuf_secbuf, Memory.read_writeBytes hm.1, dif_neg (by omega)]
  | _ => rfl

theorem Writes.sec_eq {i : Instr} {s s' : State} (h : Writes i s s') (h0 : writesSec i = 0) :
    s'.secbuf = s.secbuf ∧ s'.seclen = s.seclen := by
  cases h with
  | sec bytes hw hl => omega
  | _ => exact ⟨rfl, rfl⟩

/-- A valid `F` or `Q` register stays valid under the writes of a command (`10_state.md` R24). -/
theorem Writes.isSome {i : Instr} {s s' : State} (h : Writes i s s') (r : Reg) :
    (s.f[r].isSome = true → s'.f[r].isSome = true) ∧ (s.q[r].isSome = true → s'.q[r].isSome = true) := by
  cases h with
  | field rd v _ _ =>
    refine ⟨fun hf => ?_, id⟩
    rw [State.setF_f_get]
    split
    · rfl
    · exact hf
  | point rd p _ _ =>
    refine ⟨id, fun hq => ?_⟩
    rw [State.setQ_q_get]
    split
    · rfl
    · exact hq
  | _ => exact ⟨id, id⟩

/-! ### The port map by byte offset (`20_memory.md` R51) -/

theorem locOf_offsetKW (n : Reg) (i : Fin 8) : locOf (atOffset (offsetKW n i)) = .kw n i := by
  revert n i; decide

theorem locOf_offsetKS (n : Reg) : locOf (atOffset (offsetKS n)) = .ks n := by
  revert n; decide

theorem locOf_offsetSECW (j : Fin 17) : locOf (atOffset (offsetSECW j)) = .secw j := by
  revert j; decide

/-- The word location of an aligned offset. -/
theorem val_atOffset {off : Nat} (h : off < 0x1000) : (atOffset off).val = off / 4 := by
  simp only [atOffset, Fin.ofNat]
  omega

/-- An aligned offset that R51 does not name is reserved (R59). -/
theorem locOf_reserved {off : Nat} (h : off < 0x1000) (ha : off % 4 = 0) (hn : namedOffset off = false) :
    locOf (atOffset off) = .reserved := by
  simp only [namedOffset, Bool.or_eq_false_iff, Bool.and_eq_false_iff, decide_eq_false_iff_not] at hn
  unfold locOf
  simp only [val_atOffset h]
  iterate 7 rw [if_neg (by omega)]
  split
  · next hw =>
    have h8 : 8 < (off / 4 - 0x40) % 16 := by omega
    rw [kWindowLoc, dif_neg (by omega), if_neg (by omega)]
  · rw [dif_neg (by omega)]

/-! ### What the host can do -/

/-- Everything a host write can do (`20_memory.md` R53): nothing, be dropped, start a command, set `IE`, clear what
CLR names, or, while no command runs, change a `K` register or a word of SECBUF. -/
inductive HostWrites (s : State) (v : Word) : State → Prop
  | ignored : HostWrites s v s
  | dropped : HostWrites s v s.dropWrite
  | accepted (hb : s.busy = false) (he : s.errf = false) :
      HostWrites s v { s with pend := v, busy := true, done := false }
  | ctrl : HostWrites s v { s with ie := v.getLsbD 0 }
  | clr : HostWrites s v (s.clear v)
  | integer (n : Reg) (k : KInt) (hb : s.busy = false) : HostWrites s v (s.setK n k)
  | secbuf (j : Fin 17) (hb : s.busy = false) : HostWrites s v (s.setSecbuf (s.secbuf.setSecWord j v))

/-- An operand write is dropped while a command runs, else performed (R53, R64). -/
theorem HostWrites.operand {s s' : State} {v : Word} (h : s.busy = false → HostWrites s v s') :
    HostWrites s v (s.operandWrite s') := by
  cases hb : s.busy with
  | true => rw [operandWrite_busy s' hb]; exact .dropped
  | false => rw [operandWrite_idle s' hb]; exact h hb

theorem HostWrites.offer (s : State) (v : Word) : HostWrites s v (s.offer v) := by
  unfold State.offer
  split
  · exact .dropped
  · next h =>
    obtain ⟨hb, he⟩ := Bool.or_eq_false_iff.mp (Bool.eq_false_iff.mpr h)
    exact .accepted hb he

/-- A host write does what its location says. -/
theorem hostWrite_cases (s : State) (a : PortAddr) (v : Word) : HostWrites s v (s.hostWrite a v) := by
  unfold State.hostWrite
  cases locOf a with
  | id | status | seclen | errcmd | reserved => exact .ignored
  | cmd => exact .offer s v
  | ctrl => exact .ctrl
  | clr => exact .clr
  | kw n i => exact .operand (.integer n _)
  | ks n => exact .operand (.integer n _)
  | secw j => exact .operand (.secbuf j)

/-- A write to CLR clears exactly what its bits name (`10_state.md` R37). -/
theorem State.clear_eq (s : State) (v : Word) : s.clear v = { s with
    done := s.done && !v.getLsbD 1
    errf := s.errf && !v.getLsbD 2
    errcode := if v.getLsbD 2 then 0x00#8 else s.errcode
    errcmd := if v.getLsbD 2 then 0x00000000#32 else s.errcmd
    ovr := s.ovr && !v.getLsbD 4 } := by
  unfold State.clear State.clearFault
  generalize v.getLsbD 1 = b1, v.getLsbD 2 = b2, v.getLsbD 4 = b4
  cases b1 <;> cases b2 <;> cases b4 <;> simp

/-- A host write leaves `T`, the `F` and `Q` registers and the reset level (`10_state.md` R24, R31). -/
theorem HostWrites.frame {s s' : State} {v : Word} (h : HostWrites s v s') :
    s'.t = s.t ∧ s'.f = s.f ∧ s'.q = s.q ∧ s'.rst = s.rst := by
  cases h with
  | clr => rw [State.clear_eq]; exact ⟨rfl, rfl, rfl, rfl⟩
  | _ => exact ⟨rfl, rfl, rfl, rfl⟩

/-- Everything a pass of the loop on `STATUS` does: a word is recorded, the count of draws can move, and the pass can
be put back. -/
theorem pollStatus_state (s : State) (n : Nat) :
    ∃ d w l, s.pollStatus n = { s with draws := d, replies := w :: s.replies, inbox := l } := by
  obtain ⟨d, w, h⟩ := readReply_state s statusAddr
  unfold State.pollStatus
  rw [h]
  split
  · exact ⟨d, w, pollEvent n :: s.inbox, rfl⟩
  · exact ⟨d, w, s.inbox, rfl⟩

/-- A host action other than asserting reset leaves the `F` and `Q` registers. -/
theorem hostAct_registers {s : State} {x : Access} (hx : x ≠ .rstAssert) :
    (s.hostAct x).f = s.f ∧ (s.hostAct x).q = s.q := by
  cases x with
  | read a =>
    obtain ⟨d, w, h⟩ := readReply_state s a
    rw [State.hostAct, h]
    exact ⟨rfl, rfl⟩
  | write a v =>
    rw [State.hostAct]
    split
    · exact ⟨rfl, rfl⟩
    · obtain ⟨-, hf, hq, -⟩ := (hostWrite_cases s a v).frame
      exact ⟨hf, hq⟩
  | poll n =>
    obtain ⟨d, w, l, h⟩ := pollStatus_state s n
    rw [State.hostAct, h]
    exact ⟨rfl, rfl⟩
  | rstAssert => exact absurd rfl hx
  | rstRelease => exact ⟨rfl, rfl⟩

/-! ### The invariant, apart from the reset input -/

/-- The invariant but for its clause on `rst`. -/
structure State.Legal (s : State) : Prop where
  fields : s.FieldsValid
  points : s.PointsValid
  status : s.StatusLegal
  seclen : s.SeclenLegal
  secbuf : s.secbuf.wf

theorem State.inv_iff {s : State} : s.Inv ↔ s.Legal ∧ s.ResetHeld := by
  constructor
  · rintro ⟨hf, hq, hst, hlen, hbuf, hrst⟩
    exact ⟨⟨hf, hq, hst, hlen, hbuf⟩, hrst⟩
  · rintro ⟨⟨hf, hq, hst, hlen, hbuf⟩, hrst⟩
    exact ⟨hf, hq, hst, hlen, hbuf, hrst⟩

/-- With `rst` released the clause on `rst` says nothing. -/
theorem State.Legal.inv {s : State} (h : s.Legal) (hr : s.rst = false) : s.Inv :=
  State.inv_iff.mpr ⟨h, fun hr' => by cases hr.symm.trans hr'⟩

theorem State.reset_legal : State.reset.Legal where
  fields i u h := by simp [State.reset] at h
  points i p h := by simp [State.reset] at h
  status := by decide
  seclen := by decide
  secbuf := State.reset_secbuf_wf

/-- While a command runs `rst` is released and no fault is recorded. -/
theorem State.Inv.of_busy {s : State} (h : s.Inv) (hb : s.busy = true) : s.rst = false ∧ s.errf = false := by
  obtain ⟨hl, hrst⟩ := State.inv_iff.mp h
  constructor
  · by_contra hr
    have hidle : s.busy = false := congrArg State.busy (hrst (Bool.not_eq_false _ ▸ hr))
    cases hb.symm.trans hidle
  · by_contra he
    obtain ⟨-, herr, -⟩ := hl.status
    cases hb.symm.trans (herr (Bool.not_eq_false _ ▸ he)).1

/-- The host's own fields do not matter to the invariant. -/
theorem State.Inv.withHost {s : State} (h : s.Inv) (l : List HostEvent) (r : List Word) (d : Nat) :
    { s with inbox := l, replies := r, draws := d }.Inv := by
  obtain ⟨hl, hrst⟩ := State.inv_iff.mp h
  refine State.inv_iff.mpr ⟨{ hl with }, fun hr => ?_⟩
  exact congrArg (fun u : State => { u with inbox := l, replies := r, draws := d }) (hrst hr)

theorem State.assertReset_inv (s : State) : s.assertReset.Inv :=
  State.inv_iff.mpr ⟨{ State.reset_legal with }, fun _ => rfl⟩

/-! ### Each write keeps the invariant -/

theorem State.Legal.setF {s : State} (h : s.Legal) (i : Reg) {v : FE} (hv : v.Valid) : (s.setF i v).Legal where
  fields r u hu := by
    rw [State.setF_f_get] at hu
    split at hu
    · cases hu; exact hv
    · exact h.fields r u hu
  points := h.points
  status := h.status
  seclen := h.seclen
  secbuf := h.secbuf

theorem State.Legal.setQ {s : State} (h : s.Legal) (i : Reg) {p : Pt} (hp : p.Valid) : (s.setQ i p).Legal where
  fields := h.fields
  points r u hu := by
    rw [State.setQ_q_get] at hu
    split at hu
    · cases hu; exact hp
    · exact h.points r u hu
  status := h.status
  seclen := h.seclen
  secbuf := h.secbuf

theorem State.Legal.setSecbuf {s : State} (h : s.Legal) {m : Memory} (hm : m.wf) : (s.setSecbuf m).Legal :=
  { h with secbuf := hm }

theorem State.Legal.setSeclen {s : State} (h : s.Legal) {n : BitVec 7} (hn : n = 0#7 ∨ n = 33#7 ∨ n = 65#7) :
    (s.setSeclen n).Legal :=
  { h with seclen := hn }

/-- The writes of a command keep the invariant; a register's new value is valid because its sources are. -/
theorem Writes.legal {i : Instr} {s s' : State} (h : Writes i s s') (hs : s.Legal) : s'.Legal := by
  cases h with
  | nothing => exact hs
  | field rd v _ hv => exact hs.setF rd (hv hs.fields hs.points)
  | point rd p _ hp => exact hs.setQ rd (hp hs.fields hs.points)
  | integer => exact { hs with }
  | flag => exact { hs with }
  | sec bytes _ hl =>
    have hm : (Memory.writeBytes s.secbuf 0 bytes).wf := Memory.wf_writeBytes hs.secbuf (by rw [secSize]; omega)
    refine (hs.setSecbuf hm).setSeclen (.inr ?_)
    rcases hl with e | e <;> rw [e]
    · exact .inl rfl
    · exact .inr rfl

theorem State.Legal.complete {s : State} (h : s.Legal) (he : s.errf = false) : s.complete.Legal := by
  obtain ⟨-, -, hclean⟩ := h.status
  refine { h with status := ⟨?_, ?_, hclean⟩ }
  · rintro ⟨hb, -⟩
    cases hb
  · intro he'
    cases he.symm.trans he'

theorem CmdFault.code_ne_zero (e : CmdFault) : e.code ≠ 0x00#8 := by cases e <;> decide

theorem State.Legal.takeFault {s : State} (h : s.Legal) (e : CmdFault) : (s.takeFault e).Legal := by
  refine { h with status := ⟨?_, fun _ => ⟨rfl, e.code_ne_zero⟩, ?_⟩ }
  · rintro ⟨hb, -⟩
    cases hb
  · intro he
    cases he

/-- A command run from a busy state keeps the invariant. -/
theorem exec_inv {i : Instr} {s t : State} (hs : s.Inv) (hb : s.busy = true) (h : exec i s = .next t) : t.Inv := by
  obtain ⟨hr, he⟩ := hs.of_busy hb
  have hl := (State.inv_iff.mp hs).1
  rcases exec_next_cases h with ⟨e, rfl⟩ | ⟨s', hw, rfl⟩
  · exact (hl.takeFault e).inv hr
  · obtain ⟨herrf, -, -, hrst⟩ := hw.status_eq
    exact ((hw.legal hl).complete (herrf.trans he)).inv (hrst.trans hr)

theorem State.Legal.clear {s : State} (h : s.Legal) (v : Word) : (s.clear v).Legal := by
  rw [State.clear_eq]
  refine { h with status := ?_ }
  obtain ⟨hbd, herr, hclean⟩ := h.status
  refine ⟨fun ⟨hb, hd⟩ => hbd ⟨hb, (Bool.and_eq_true_iff.mp hd).1⟩, ?_, ?_⟩
  · cases v.getLsbD 2
    · simpa using herr
    · simp
  · cases v.getLsbD 2
    · simpa using hclean
    · simp

/-- What a host write does keeps the invariant. -/
theorem HostWrites.legal {s s' : State} {v : Word} (h : HostWrites s v s') (hs : s.Legal) : s'.Legal := by
  cases h with
  | ignored => exact hs
  | dropped | ctrl | integer => exact { hs with }
  | accepted hb he =>
    obtain ⟨-, -, hclean⟩ := hs.status
    refine { hs with status := ⟨?_, ?_, hclean⟩ }
    · rintro ⟨-, hd⟩
      cases hd
    · intro he'
      cases he.symm.trans he'
  | clr => exact hs.clear v
  | secbuf j _ => exact hs.setSecbuf (wf_setSecWord hs.secbuf j v)

/-- A host action keeps the invariant: while `rst` is asserted a write is ignored (`70_reset_and_hazards.md` R252). -/
theorem hostAct_inv {s : State} (hs : s.Inv) (x : Access) : (s.hostAct x).Inv := by
  cases x with
  | read a =>
    obtain ⟨d, w, h⟩ := readReply_state s a
    rw [State.hostAct, h]
    exact hs.withHost s.inbox (w :: s.replies) d
  | write a v =>
    rw [State.hostAct]
    split
    · exact hs
    · next hr =>
      have hw := hostWrite_cases s a v
      obtain ⟨-, -, -, hrst⟩ := hw.frame
      exact (hw.legal (State.inv_iff.mp hs).1).inv (hrst.trans (Bool.eq_false_iff.mpr hr))
  | poll n =>
    obtain ⟨d, w, l, h⟩ := pollStatus_state s n
    rw [State.hostAct, h]
    exact hs.withHost l (w :: s.replies) d
  | rstAssert => exact s.assertReset_inv
  | rstRelease => exact State.Legal.inv { (State.inv_iff.mp hs).1 with } rfl

/-- Settles O58: the host's turn by the cases of a host action, the core's by the kinds of writes of a command, which
runs only from a state with `rst` released and no fault recorded. -/
theorem everyStepKeepsInvariant : Obligations.EveryStepKeepsInvariant := by
  intro s t hs h
  rcases step_cases s with ⟨ev, rest, -, -, e⟩ | ⟨hb, i, -, e⟩ | ⟨hb, -, e⟩ | ⟨-, -, e⟩ <;> rw [e] at h
  · cases h
    exact hostAct_inv (hs.withHost rest s.replies s.draws) ev.access
  · exact exec_inv hs hb h
  · cases h
    exact ((State.inv_iff.mp hs).1.takeFault .illegalCommand).inv (hs.of_busy hb).1
  · cases h
    exact hs

/-- Settles O57. -/
theorem invariantAtReset : Obligations.InvariantAtReset := State.reset_legal.inv rfl

/-! ### `T` (`10_state.md` R31) -/

/-- Settles O12. -/
theorem onlyTestCommandsWriteT : Obligations.OnlyTestCommandsWriteT := by
  refine ⟨fun i s t hw h => ?_, fun i s t hs h ht => ?_, fun s a v => ⟨?_, ?_⟩, rfl⟩
  · rcases exec_next_cases h with ⟨e, rfl⟩ | ⟨s', hs', rfl⟩
    · rfl
    · exact hs'.t_eq hw
  · obtain ⟨e, rfl⟩ := exec_fault_of_errf h hs ht
    rfl
  · exact (hostWrite_cases s a v).frame.1
  · obtain ⟨d, h⟩ := hostRead_state s a
    rw [h]

/-! No source read sees `T`, and writing a register or SECBUF commutes with writing `T`. -/

@[simp] theorem State.readF_setT (s : State) (b : Bool) (r : Reg) : (s.setT b).readF r = s.readF r := rfl
@[simp] theorem State.readQ_setT (s : State) (b : Bool) (r : Reg) : (s.setT b).readQ r = s.readQ r := rfl
@[simp] theorem State.readK_setT (s : State) (b : Bool) (r : Reg) : (s.setT b).readK r = s.readK r := rfl
@[simp] theorem State.setT_setT (s : State) (b c : Bool) : (s.setT b).setT c = s.setT c := rfl
theorem State.setF_setT (s : State) (b : Bool) (r : Reg) (v : FE) : (s.setT b).setF r v = (s.setF r v).setT b := rfl
theorem State.setQ_setT (s : State) (b : Bool) (r : Reg) (p : Pt) : (s.setT b).setQ r p = (s.setQ r p).setT b := rfl
theorem State.setK_setT (s : State) (b : Bool) (r : Reg) (v : KInt) : (s.setT b).setK r v = (s.setK r v).setT b := rfl
theorem State.setSec_setT (s : State) (b : Bool) (m : Memory) (n : BitVec 7) :
    ((s.setT b).setSecbuf m).setSeclen n = ((s.setSecbuf m).setSeclen n).setT b := rfl

/-- A test command computes its flag from its sources: the outcome does not depend on `T`. -/
theorem exec_setT_of_test {i : Instr} (ht : writesT i = true) (s : State) :
    ∃ m : Except CmdFault Bool, ∀ b, exec i (s.setT b) = finish (s.setT b) (s.setT <$> m) := by
  cases i with
  | feq ra rb => exact ⟨do return feEq (← s.readF ra) (← s.readF rb), fun b => by simp [exec, execFeq]⟩
  | peq ra rb => exact ⟨do return ptEq (← s.readQ ra) (← s.readQ rb), fun b => by simp [exec, execPeq]⟩
  | pisinf ra => exact ⟨do return (← s.readQ ra).isIdentity, fun b => by simp [exec, execPisinf]⟩
  | sverify ra rb rc re =>
    exact ⟨do secpVerify (← s.readQ ra) (s.readK rb) (s.readK rc) (s.readK re), fun b => by simp [exec, execSverify]⟩
  | _ => cases ht

/-- Every other command carries `T` along: from a state with another `T` it computes the same, with that `T`. -/
theorem exec_setT_of_not_test {i : Instr} (ht : writesT i = false) (s : State) :
    ∃ m : Except CmdFault State, exec i s = finish s m ∧
      ∀ b, exec i (s.setT b) = finish (s.setT b) ((fun s' => s'.setT b) <$> m) := by
  cases i with
  | feq | peq | pisinf | sverify => cases ht
  | nop => exact ⟨.ok s, rfl, fun b => rfl⟩
  | sldg rd => exact ⟨.ok (s.setQ rd secpG), rfl, fun b => rfl⟩
  | sldn rd => exact ⟨.ok (s.setK rd (KInt.ofMag secpN)), rfl, fun b => rfl⟩
  | sldp rd => exact ⟨.ok (s.setK rd (KInt.ofMag secpP)), rfl, fun b => rfl⟩
  | fnew | fadd | fsub | fmul | fdiv | finv | fpow | fsqrt | pgetx | pgety | pgeta | pgetb =>
    refine ⟨_, rfl, fun b => ?_⟩
    simp [exec, execFnew, execFadd, execFsub, execFmul, execFdiv, execFinv, execFpow, execFsqrt, execPgetx, execPgety,
      execPgeta, execPgetb, State.setF_setT]
  | pnew | pinf | padd | pdbl | pmul | snew | smul | secdec =>
    refine ⟨_, rfl, fun b => ?_⟩
    simp [exec, execPnew, execPinf, execPadd, execPdbl, execPmul, execSnew, execSmul, execSecdec, State.setQ_setT]
  | fget | fgetp =>
    refine ⟨_, rfl, fun b => ?_⟩
    simp [exec, execFget, execFgetp, State.setK_setT]
  | secenc =>
    refine ⟨_, rfl, fun b => ?_⟩
    simp [exec, execSecenc, State.setSec_setT]

/-- What changing `T` before a command changes after it: in a fault and in a command that writes no `T` the kept `T`,
in a test command that completes nothing. -/
theorem exec_setT_cases (i : Instr) (s : State) (b : Bool) :
    (∃ e, exec i s = .next (s.takeFault e) ∧ exec i (s.setT b) = .next ((s.setT b).takeFault e)) ∨
    (writesT i = true ∧ ∃ c, exec i s = .next (s.setT c).complete ∧ exec i (s.setT b) = .next (s.setT c).complete) ∨
    (writesT i = false ∧ ∃ s' : State, exec i s = .next s'.complete ∧
      exec i (s.setT b) = .next (s'.setT b).complete) := by
  cases ht : writesT i with
  | true =>
    obtain ⟨m, hm⟩ := exec_setT_of_test ht s
    have h : exec i s = finish s (s.setT <$> m) := hm s.t
    cases m with
    | error e => exact .inl ⟨e, h, hm b⟩
    | ok c => exact .inr (.inl ⟨rfl, c, h, hm b⟩)
  | false =>
    obtain ⟨m, h, hm⟩ := exec_setT_of_not_test ht s
    cases m with
    | error e => exact .inl ⟨e, h, hm b⟩
    | ok s' => exact .inr (.inr ⟨rfl, s', h, hm b⟩)

/-- Settles O13: `exec_setT_cases`, clause by clause. -/
theorem noCommandReadsT : Obligations.NoCommandReadsT := by
  intro i s t b h
  rcases exec_setT_cases i s b with ⟨e, h1, h2⟩ | ⟨ht, c, h1, h2⟩ | ⟨ht, s', h1, h2⟩ <;> rw [h1] at h <;> cases h
  · exact ⟨_, h2, rfl, fun _ _ he => (by cases he), fun _ => rfl, fun _ _ => rfl⟩
  · refine ⟨_, h2, rfl, fun _ _ _ => rfl, fun hf => ?_, fun hs he => ?_⟩
    · cases ht.symm.trans hf
    · cases hs.symm.trans he
  · refine ⟨_, h2, rfl, fun htt => ?_, fun _ => rfl, fun _ _ => rfl⟩
    cases ht.symm.trans htt

/-! ### Frames (`10_state.md` R24, R38, R40) -/

/-- Settles O14: a fault keeps every register, and each kind of write keeps what it does not name. -/
theorem frameOfEveryCommand : Obligations.FrameOfEveryCommand := by
  intro i s t hm h
  rcases exec_next_cases h with ⟨e, rfl⟩ | ⟨s', hw, rfl⟩
  · exact ⟨fun _ _ => rfl, fun _ _ => rfl, fun _ _ => rfl, fun _ hne => absurd rfl hne, fun _ => rfl, fun _ _ => rfl,
      fun _ => ⟨rfl, rfl⟩⟩
  · refine ⟨fun r => hw.f_eq, fun r => hw.q_eq, fun r hr => ?_, fun r hne => ?_, hw.t_eq, fun j => hw.read_secbuf hm,
      hw.sec_eq⟩
    · exact (hw.k_cases r).resolve_right fun hk => hr hk.1
    · exact ((hw.k_cases r).resolve_left hne).2

/-- Settles O15: the host's actions but reset leave the `F` and `Q` registers, and a command only makes one valid. -/
theorem validBitsClearedOnlyByReset : Obligations.ValidBitsClearedOnlyByReset := by
  intro s t r h hx
  rcases step_cases s with ⟨ev, rest, hi, -, e⟩ | ⟨-, i, -, e⟩ | ⟨-, -, e⟩ | ⟨-, -, e⟩ <;> rw [e] at h
  · cases h
    have hne : ev.access ≠ .rstAssert := hx ev (by simp [hi])
    obtain ⟨hf, hq⟩ := hostAct_registers (s := { s with inbox := rest }) hne
    rw [State.hostTurn, hf, hq]
    exact ⟨id, id⟩
  · rcases exec_next_cases h with ⟨e, rfl⟩ | ⟨s', hw, rfl⟩
    · exact ⟨id, id⟩
    · exact hw.isSome r
  · cases h
    exact ⟨id, id⟩
  · cases h
    exact ⟨id, id⟩

/-! ### The port and the reset state (`10_state.md` R36, R37, R42, R43) -/

/-! A host write, by the location it addresses (`20_memory.md` R53). -/
theorem hostWrite_kw {s : State} {a : PortAddr} {n : Reg} {i : Fin 8} (v : Word) (h : locOf a = .kw n i) :
    s.hostWrite a v = s.operandWrite (s.setK n ⟨s.k[n].neg, setMagWord s.k[n].mag i v⟩) := by
  rw [State.hostWrite, h]

theorem hostWrite_ks {s : State} {a : PortAddr} {n : Reg} (v : Word) (h : locOf a = .ks n) :
    s.hostWrite a v = s.operandWrite (s.setK n ⟨v.getLsbD 0, s.k[n].mag⟩) := by
  rw [State.hostWrite, h]

theorem hostWrite_secw {s : State} {a : PortAddr} {j : Fin 17} (v : Word) (h : locOf a = .secw j) :
    s.hostWrite a v = s.operandWrite (s.setSecbuf (s.secbuf.setSecWord j v)) := by
  rw [State.hostWrite, h]

theorem hostWrite_reserved {s : State} {a : PortAddr} (v : Word) (h : locOf a = .reserved) : s.hostWrite a v = s := by
  rw [State.hostWrite, h]

/-- The bytes of word `j` of SECBUF are those of the addresses with quotient `j` by 4, the last word having one. -/
theorem mem_secWord_iff (j : Fin 17) (a : Nat) :
    (4 * j.val ≤ a ∧ a - 4 * j.val < secWordLen j) ↔ (a / 4 = j.val ∧ a < 65) := by
  have hj := j.isLt
  rw [secWordLen]
  split <;> omega

/-- SECBUF after a word write, by address (R53, R55). -/
theorem read_setSecWord_div {m : Memory} (hm : m.wf) (j : Fin 17) (v : Word) (a : Nat) :
    (m.setSecWord j v).read a = if a / 4 = j.val ∧ a < 65 then v.extractLsb' (8 * (a % 4)) 8 else m.read a := by
  rw [read_setSecWord hm]
  simp only [mem_secWord_iff]
  split
  · next h =>
    have e : a - 4 * j.val = a % 4 := by omega
    rw [e]
  · rfl

/-- Settles O54. -/
theorem hostWriteStoresByMap : Obligations.HostWriteStoresByMap := by
  intro s v
  refine ⟨rfl, fun n i hb => ?_, fun n hb => ?_, fun j hb hm => ?_, fun n i j hb => ⟨?_, ?_, ?_⟩,
    fun off hlt ha hoff => ?_⟩
  · refine ⟨_, ?_, fun b => getLsbD_setMagWord s.k[n].mag i v b⟩
    rw [hostWrite_kw v (locOf_offsetKW n i), operandWrite_idle _ hb, State.setK]
  · rw [hostWrite_ks v (locOf_offsetKS n), operandWrite_idle _ hb, State.setK]
  · refine ⟨_, ?_, read_setSecWord_div hm j v⟩
    rw [hostWrite_secw v (locOf_offsetSECW j), operandWrite_idle _ hb, State.setSecbuf]
  · rw [hostWrite_kw v (locOf_offsetKW n i), operandWrite_busy _ hb, State.dropWrite]
  · rw [hostWrite_ks v (locOf_offsetKS n), operandWrite_busy _ hb, State.dropWrite]
  · rw [hostWrite_secw v (locOf_offsetSECW j), operandWrite_busy _ hb, State.dropWrite]
  · rcases hoff with hn | rfl | rfl | rfl | rfl
    · exact hostWrite_reserved v (locOf_reserved hlt ha hn)
    all_goals rfl

/-- Settles O55. -/
theorem clrClearsNamedBits : Obligations.ClrClearsNamedBits := fun s v => ⟨s.clear_eq v, rfl⟩

/-- Bit 1 of the `STATUS` word is `DONE` (R52). -/
theorem getLsbD_statusWord_one (s : State) : s.statusWord.getLsbD 1 = s.done := by
  simp only [State.statusWord, flagBit, BitVec.getLsbD_or, BitVec.getLsbD_shiftLeft, BitVec.getLsbD_setWidth]
  cases s.busy <;> cases s.done <;> cases s.errf <;> cases s.t <;> cases s.ovr <;> simp

theorem getLsbD_flagBit_self (b : Bool) : (flagBit b 0).getLsbD 0 = b := by
  cases b <;> rfl

/-- Settles O56. -/
theorem irqIsDoneAndEnabled : Obligations.IrqIsDoneAndEnabled := by
  intro s
  have hstatus : (s.hostRead (atOffset 0x008)).1 = s.statusWord := rfl
  have hctrl : (s.hostRead (atOffset 0x00C)).1 = flagBit s.ie 0 := rfl
  rw [hstatus, hctrl, getLsbD_statusWord_one, getLsbD_flagBit_self, State.irq]

/-- Settles O50. -/
theorem resetStateIsTheManuals : Obligations.ResetStateIsTheManuals :=
  ⟨by decide, rfl, rfl, rfl, rfl, rfl, rfl, rfl, rfl, rfl, fun _ => rfl, rfl, rfl⟩

end Sys2Proof.Machine
end

section
/-!
PROOFS of the family `20_memory.md`. First a host action on its turn, a host read by its location, and the words of the
port as numbers; then runs of host accesses and the statements KLOAD, KREAD, SECLOAD and SECREAD.
-/

namespace Sys2Proof.Machine

/-! ### A host action on its turn (`40_system.md` R90, `20_memory.md` R52) -/

/-- The host's next action is taken when no command is pending, or when its tag puts it before the completion. -/
theorem step_host {s : State} {ev : HostEvent} {rest : List HostEvent} (hi : s.inbox = ev :: rest)
    (h : s.busy = false ∨ ev.arrival = .whileBusy) : step s = .next (s.hostTurn ev.access rest) := by
  have ht : s.turn = .host ev.access rest := by
    rw [State.turn, hi]
    rcases h with h | h <;> simp [h]
  rw [step, ht]

/-- A machine with no action and no command keeps its state (`60_exceptions.md` R233). -/
theorem step_idle {s : State} (hi : s.inbox = []) (hb : s.busy = false) : step s = .next s := by
  have ht : s.turn = .idle := by simp [State.turn, hi, hb]
  rw [step, ht]

theorem hostAct_write {s : State} (a : PortAddr) (v : Word) (hr : s.rst = false) :
    s.hostAct (.write a v) = s.hostWrite a v := by
  simp [State.hostAct, hr]

theorem hostAct_read {s : State} (a : PortAddr) (hr : s.rst = false) :
    s.hostAct (.read a) = { (s.hostRead a).2 with replies := (s.hostRead a).1 :: s.replies } := by
  obtain ⟨d, hd⟩ := hostRead_state s a
  simp [State.hostAct, State.readReply, State.portRead, hr, State.reply, hd]

/-- Settles O7. -/
theorem stepTakesHostActionsInOrder : Obligations.StepTakesHostActionsInOrder :=
  ⟨fun _ _ _ hi h => step_host hi h, fun _ a v hr => ⟨hostAct_write a v hr, hostAct_read a hr⟩,
    fun _ n hr => pollStatus_eq n hr, fun _ hi hb => step_idle hi hb⟩

/-! ### Host reads (`20_memory.md` R52, R64) -/

/-- A `K` window holds nine operand words, the rest of it is reserved (`20_memory.md` R51). -/
theorem isOperand_kWindowLoc (n : Reg) (i : Nat) : (kWindowLoc n i).isOperand = decide (i ≤ 8) := by
  unfold kWindowLoc
  split
  · next h => exact (decide_eq_true h.le).symm
  · split
    · next h => exact (decide_eq_true h.le).symm
    · exact (decide_eq_false (by omega)).symm

/-- The seven words below the windows are no operand words. -/
theorem isOperand_locOf_low {a : PortAddr} (h : a.val < 7) : (locOf a).isOperand = false := by
  obtain ⟨a, ha⟩ := a
  dsimp only at h
  interval_cases a <;> rfl

/-- A location is an operand word exactly when its offset lies in one of the two windows (`20_memory.md` R51, R64). -/
theorem isOperand_locOf (a : PortAddr) : (locOf a).isOperand = operandOffset (4 * a.val) := by
  have ha := a.isLt
  rw [Bool.eq_iff_iff]
  simp only [operandOffset, namedOffset, Bool.and_eq_true, Bool.or_eq_true, decide_eq_true_eq]
  by_cases hlow : a.val < 7
  · rw [isOperand_locOf_low hlow, Bool.false_eq_true, false_iff]
    omega
  · unfold locOf
    dsimp only
    iterate 7 rw [if_neg (by omega)]
    split
    · rw [isOperand_kWindowLoc, decide_eq_true_eq]
      omega
    · split
      · exact iff_of_true rfl (by omega)
      · exact iff_of_false Bool.false_ne_true (by omega)

/-- A read answers the value of the location, and changes nothing, unless it is of an operand word while a command
runs. -/
theorem hostRead_value {s : State} {a : PortAddr} (h : s.busy = false ∨ (locOf a).isOperand = false) :
    s.hostRead a = (s.portValue (locOf a), s) := by
  have hc : ((locOf a).isOperand && s.busy) = false := by
    rcases h with h | h <;> simp [h]
  simp [State.hostRead, hc]

/-- A read of an operand word while a command runs is a free draw (R64). -/
theorem hostRead_draw {s : State} {a : PortAddr} (hb : s.busy = true) (ha : (locOf a).isOperand = true) :
    s.hostRead a = (Config.busyRead s.draws, { s with draws := s.draws + 1 }) := by
  simp [State.hostRead, hb, ha]

/-- Settles O53. -/
theorem hostReadChangesNothing : Obligations.HostReadChangesNothing := by
  intro s a
  simp only [← isOperand_locOf]
  exact ⟨fun h => by rw [hostRead_value h], hostRead_draw⟩

/-! ### The words a read returns, as numbers (`20_memory.md` R52, R54, R55) -/

/-- Putting eight bits below a word of at most 24 bits. -/
theorem toNat_or_shiftLeft_eight {lo hi : Word} (hlo : lo.toNat < 2 ^ 8) (hhi : hi.toNat < 2 ^ 24) :
    (lo ||| (hi <<< 8)).toNat = lo.toNat + 2 ^ 8 * hi.toNat := by
  have hshift : (hi <<< 8).toNat = 2 ^ 8 * hi.toNat := by
    rw [BitVec.toNat_shiftLeft, Nat.shiftLeft_eq]
    omega
  rw [BitVec.toNat_or, hshift, Nat.or_comm, ← Nat.two_pow_add_eq_or_of_lt hlo, Nat.add_comm]

theorem toNat_flagBit_zero (b : Bool) : (flagBit b 0).toNat = b.toNat := by cases b <;> rfl

/-- The `STATUS` word as a number (`20_memory.md` R52). -/
theorem toNat_statusWord (s : State) : s.statusWord.toNat = s.busy.toNat + 2 * s.done.toNat + 4 * s.errf.toNat +
    8 * s.t.toNat + 16 * s.ovr.toNat + 256 * s.errcode.toNat := by
  have hflags : ∀ b d e t o : Bool,
      (flagBit b 0 ||| flagBit d 1 ||| flagBit e 2 ||| flagBit t 3 ||| flagBit o 4).toNat =
        b.toNat + 2 * d.toNat + 4 * e.toNat + 8 * t.toNat + 16 * o.toNat := by decide
  have hcode : (s.errcode.setWidth 32).toNat = s.errcode.toNat := by
    rw [BitVec.toNat_setWidth]; omega
  have := s.busy.toNat_le
  have := s.done.toNat_le
  have := s.errf.toNat_le
  have := s.t.toNat_le
  have := s.ovr.toNat_le
  rw [State.statusWord, toNat_or_shiftLeft_eight (by rw [hflags]; omega) (by omega), hflags, hcode]
  rfl

/-- Word `i` of a magnitude as a number (R54). -/
theorem toNat_magWord (m : U256) (i : Fin 8) : (magWord m i).toNat = m.toNat / 2 ^ (32 * i.val) % 2 ^ 32 := by
  rw [magWord, BitVec.extractLsb'_toNat, Nat.shiftRight_eq_div_pow]

/-- A word built from at most four bytes is the number with those bytes as digits, the first lowest (R55). -/
theorem toNat_bytesWord (bs : List Byte) (hl : bs.length ≤ 4) :
    (bytesWord bs).toNat = Nat.ofDigits (2 ^ 8) (bs.map BitVec.toNat) := by
  induction bs with
  | nil => rfl
  | cons b bs ih =>
    simp only [List.length_cons] at hl
    have hbs : Nat.ofDigits (2 ^ 8) (bs.map BitVec.toNat) < 2 ^ 24 := by
      calc _ < (2 ^ 8) ^ (bs.map BitVec.toNat).length :=
            Nat.ofDigits_lt_base_pow_length (by decide) fun _ h => by
              obtain ⟨x, -, rfl⟩ := List.mem_map.mp h
              exact x.isLt
        _ ≤ (2 ^ 8) ^ 3 := Nat.pow_le_pow_right (by decide) (by rw [List.length_map]; omega)
    have hb : (b.setWidth 32).toNat = b.toNat := by
      rw [BitVec.toNat_setWidth]; omega
    rw [bytesWord, toNat_or_shiftLeft_eight (by omega) (by rw [ih (by omega)]; exact hbs), ih (by omega), hb]
    rfl

theorem secWordLen_le (j : Fin 17) : secWordLen j ≤ 4 := by
  rw [secWordLen]
  split <;> omega

/-- A word of SECBUF is the number with its bytes as digits, the first lowest (R55). -/
theorem toNat_secWord (m : Memory) (j : Fin 17) :
    (m.secWord j).toNat = Nat.ofDigits (2 ^ 8) ((m.readBytes (4 * j.val) (secWordLen j)).map BitVec.toNat) :=
  toNat_bytesWord _ (by rw [Memory.length_readBytes]; exact secWordLen_le j)

/-- Settles O52. -/
theorem hostReadReturnsMappedValue : Obligations.HostReadReturnsMappedValue := by
  intro s
  refine ⟨rfl, rfl, rfl, toNat_statusWord s, toNat_flagBit_zero s.ie, ?_, rfl,
    fun hb => ⟨fun n i => ?_, fun n => ?_, fun j hj => ?_, ?_⟩, fun off hlt ha hn => ?_⟩
  · exact BitVec.toNat_setWidth_of_le (by decide)
  · rw [hostRead_value (.inl hb), locOf_offsetKW]
    exact toNat_magWord _ i
  · rw [hostRead_value (.inl hb), locOf_offsetKS]
    exact toNat_flagBit_zero _
  · rw [hostRead_value (.inl hb), locOf_offsetSECW, State.portValue, toNat_secWord, secWordLen, if_neg (by omega)]
    simp only [Memory.readBytes, List.map_cons, List.map_nil, Nat.ofDigits_cons, Nat.ofDigits_nil, Nat.add_assoc,
      Nat.reduceAdd]
    omega
  · rw [hostRead_value (.inl hb), locOf_offsetSECW, State.portValue, toNat_secWord]
    simp [secWordLen, Memory.readBytes]
  · rw [hostRead_value (.inr (by rw [locOf_reserved hlt ha hn]; rfl)), locOf_reserved hlt ha hn]
    rfl

/-! ### Runs of host accesses while no command runs (`30_encoding.md` R78) -/

/-- `k` steps lead from `s` to `t`. -/
def Runs (k : Nat) (s t : State) : Prop := Host.Core.run Sys2Proof.core k s = .next t

theorem Runs.refl (s : State) : Runs 0 s s := rfl

theorem Runs.cons {k : Nat} {s t u : State} (h : step s = .next t) (hk : Runs k t u) : Runs (k + 1) s u := by
  simp only [Runs, Host.Core.run]
  rw [show Sys2Proof.core.step s = .next t from h]
  exact hk

theorem Runs.trans {j k : Nat} {s t u : State} (hj : Runs j s t) (hk : Runs k t u) : Runs (j + k) s u := by
  induction j generalizing s with
  | zero =>
    cases hj
    rwa [Nat.zero_add]
  | succ j ih =>
    simp only [Runs, Host.Core.run] at hj
    rw [Nat.add_right_comm]
    split at hj
    · next s' hs => exact Runs.cons hs (ih hj)
    · cases hj
    · cases hj

/-- The state with these pending actions of the host. -/
def State.withInbox (s : State) (l : List HostEvent) : State := { s with inbox := l }

/-- The state after these words have been returned to the host, in this order. -/
def State.replyAll (s : State) (ws : List Word) : State := { s with replies := ws.reverse ++ s.replies }

theorem State.replyAll_reply (s : State) (w : Word) (ws : List Word) :
    (s.reply w).replyAll ws = s.replyAll (w :: ws) := by
  simp [State.replyAll, State.reply]

theorem State.lastReplies_replyAll (s : State) (ws : List Word) : (s.replyAll ws).lastReplies ws.length = ws := by
  simp [State.lastReplies, State.replyAll]

/-- A write that waits for the completion of a command, if there is one. -/
def writeEvent (a : PortAddr) (v : Word) : HostEvent := ⟨.afterCompletion, .write a v⟩

/-- A read that waits for the completion of a command, if there is one. -/
def readEvent (a : PortAddr) : HostEvent := ⟨.afterCompletion, .read a⟩

theorem portAddr_aligned {off : Nat} (h : off < 0x1000) (ha : off % 4 = 0) : portAddr off = some (atOffset off) := by
  have hoff : off % 4 = 0 ∧ off / 4 < 1024 := by omega
  rw [portAddr, dif_pos hoff]
  exact congrArg some (Fin.ext (val_atOffset h).symm)

theorem hostWR_aligned {off : Nat} (h : off < 0x1000) (ha : off % 4 = 0) (v : Word) :
    hostWR off v = [writeEvent (atOffset off) v] := by
  rw [hostWR, hostAt, portAddr_aligned h ha]
  rfl

theorem hostRD_aligned {off : Nat} (h : off < 0x1000) (ha : off % 4 = 0) :
    hostRD off = [readEvent (atOffset off)] := by
  rw [hostRD, hostAt, portAddr_aligned h ha]
  rfl

/-- With no command running the host's next write is performed. -/
theorem step_write {s : State} (hb : s.busy = false) (hr : s.rst = false) (a : PortAddr) (v : Word)
    (rest : List HostEvent) :
    step (s.withInbox (writeEvent a v :: rest)) = .next ((s.withInbox rest).hostWrite a v) :=
  (step_host (s := s.withInbox (writeEvent a v :: rest)) rfl (.inl hb)).trans
    (congrArg _ (hostAct_write (s := s.withInbox rest) a v hr))

/-- With no command running the host's next read answers the value of its location. -/
theorem step_read {s : State} (hb : s.busy = false) (hr : s.rst = false) (a : PortAddr) (rest : List HostEvent) :
    step (s.withInbox (readEvent a :: rest)) = .next ((s.reply (s.portValue (locOf a))).withInbox rest) := by
  refine (step_host (s := s.withInbox (readEvent a :: rest)) rfl (.inl hb)).trans (congrArg _ ?_)
  refine (hostAct_read (s := s.withInbox rest) a hr).trans ?_
  rw [hostRead_value (s := s.withInbox rest) (.inl hb)]
  rfl

/-- Reads answer the values of their locations, in order. -/
theorem runs_reads {s : State} (hb : s.busy = false) (hr : s.rst = false) (as : List PortAddr) :
    Runs as.length (s.withInbox (as.map readEvent))
      ((s.replyAll (as.map fun a => s.portValue (locOf a))).withInbox []) := by
  induction as generalizing s with
  | nil => exact Runs.refl _
  | cons a as ih =>
    rw [List.map_cons, List.map_cons, ← State.replyAll_reply]
    exact Runs.cons (step_read hb hr a _) (ih (s := s.reply (s.portValue (locOf a))) hb hr)

/-! ### KLOAD and KREAD -/

/-- Two magnitudes with the same eight words are equal (`20_memory.md` R54). -/
theorem eq_of_magWord_eq {m m' : U256} (h : ∀ i, magWord m i = magWord m' i) : m = m' := by
  apply BitVec.eq_of_getLsbD_eq
  intro b hb
  have hword := congrArg (fun w => w.getLsbD (b % 32)) (h ⟨b / 32, by omega⟩)
  have hlt : b % 32 < 32 := by omega
  simpa only [getLsbD_magWord, hlt, decide_true, Bool.true_and, Nat.div_add_mod] using hword

/-- The words that KLOAD writes are those of the magnitude (`30_encoding.md` R78). -/
theorem magWord_ofNat (x : Nat) (i : Fin 8) :
    magWord (BitVec.ofNat 256 x) i = BitVec.ofNat 32 (x >>> (32 * i.val)) := by
  apply BitVec.eq_of_getLsbD_eq
  intro b hb
  have hlt : 32 * i.val + b < 256 := by omega
  simp only [getLsbD_magWord, BitVec.getLsbD_ofNat, Nat.testBit_shiftRight, hb, hlt, decide_true, Bool.true_and]

/-- A magnitude after writes of the words `w` at the indices `is`. -/
def setMagWords (w : Fin 8 → Word) (is : List (Fin 8)) (m : U256) : U256 :=
  is.foldl (fun m i => setMagWord m i (w i)) m

theorem magWord_setMagWords (w : Fin 8 → Word) (is : List (Fin 8)) (m : U256) (j : Fin 8) :
    magWord (setMagWords w is m) j = if j ∈ is then w j else magWord m j := by
  induction is generalizing m with
  | nil => rfl
  | cons i is ih =>
    refine (ih (setMagWord m i (w i))).trans ?_
    rw [magWord_setMagWord]
    by_cases hji : j = i
    · subst hji; simp
    · simp [hji, Ne.symm hji]

/-- Writing all eight words of `x` makes the magnitude `x`. -/
theorem setMagWords_finRange (x : Nat) (m : U256) :
    setMagWords (fun i => BitVec.ofNat 32 (x >>> (32 * i.val))) (List.finRange 8) m = BitVec.ofNat 256 x := by
  refine eq_of_magWord_eq fun j => ?_
  rw [magWord_setMagWords, if_pos (List.mem_finRange j), magWord_ofNat]

theorem State.setK_self (s : State) (n : Reg) : s.setK n s.k[n] = s := by
  simp [State.setK]

theorem State.setK_setK (s : State) (n : Reg) (v v' : KInt) : (s.setK n v).setK n v' = s.setK n v' := by
  simp [State.setK]

theorem step_writeKW {s : State} (hb : s.busy = false) (hr : s.rst = false) (n : Reg) (i : Fin 8) (v : Word)
    (rest : List HostEvent) : step (s.withInbox (writeEvent (atOffset (offsetKW n i)) v :: rest)) =
      .next ((s.setK n ⟨s.k[n].neg, setMagWord s.k[n].mag i v⟩).withInbox rest) := by
  rw [step_write hb hr, hostWrite_kw v (locOf_offsetKW n i), operandWrite_idle (s := s.withInbox rest) _ hb]
  rfl

theorem step_writeKS {s : State} (hb : s.busy = false) (hr : s.rst = false) (n : Reg) (v : Word)
    (rest : List HostEvent) : step (s.withInbox (writeEvent (atOffset (offsetKS n)) v :: rest)) =
      .next ((s.setK n ⟨v.getLsbD 0, s.k[n].mag⟩).withInbox rest) := by
  rw [step_write hb hr, hostWrite_ks v (locOf_offsetKS n), operandWrite_idle (s := s.withInbox rest) _ hb]
  rfl

/-- Writes to words of `K[n]` set them. -/
theorem runs_writeKW {s : State} (hb : s.busy = false) (hr : s.rst = false) (n : Reg) (w : Fin 8 → Word)
    (is : List (Fin 8)) (rest : List HostEvent) :
    Runs is.length (s.withInbox (is.map (fun i => writeEvent (atOffset (offsetKW n i)) (w i)) ++ rest))
      ((s.setK n ⟨s.k[n].neg, setMagWords w is s.k[n].mag⟩).withInbox rest) := by
  induction is generalizing s with
  | nil => rw [setMagWords, List.foldl_nil, State.setK_self]; exact Runs.refl _
  | cons i is ih =>
    have hrest := ih (s := s.setK n ⟨s.k[n].neg, setMagWord s.k[n].mag i (w i)⟩) hb hr
    rw [State.setK_setK, State.setK_k_get, if_pos rfl] at hrest
    exact Runs.cons (step_writeKW hb hr n i (w i) _) hrest

/-- KLOAD writes the eight words of the magnitude, then the sign. -/
theorem hostKLOAD_eq (n : Reg) (v : Int) : hostKLOAD n v =
    (List.finRange 8).map (fun i =>
        writeEvent (atOffset (offsetKW n i)) (BitVec.ofNat 32 (v.natAbs >>> (32 * i.val)))) ++
      [writeEvent (atOffset (offsetKS n)) (flagBit (decide (v < 0)) 0)] := by
  have hword (i : Fin 8) (x : Word) : hostWR (kOffset n i) x = [writeEvent (atOffset (offsetKW n i)) x] :=
    hostWR_aligned (by rw [kOffset]; omega) (by rw [kOffset]; omega) x
  have hsign (x : Word) : hostWR (kOffset n 8) x = [writeEvent (atOffset (offsetKS n)) x] :=
    hostWR_aligned (by rw [kOffset]; omega) (by rw [kOffset]; omega) x
  rw [hostKLOAD, hsign, ← List.map_coe_finRange_eq_range, List.flatMap_map]
  simp only [hword, ← List.map_eq_flatMap, flagBit, decide_eq_true_eq, BitVec.shiftLeft_zero]

/-- KLOAD makes `K[n]` the sign and the magnitude of the integer. -/
theorem runs_hostKLOAD {s : State} (hb : s.busy = false) (hr : s.rst = false) (n : Reg) (v : Int)
    (rest : List HostEvent) : Runs 9 (s.withInbox (hostKLOAD n v ++ rest))
      ((s.setK n ⟨decide (v < 0), BitVec.ofNat 256 v.natAbs⟩).withInbox rest) := by
  have hwords := runs_writeKW hb hr n (fun i => BitVec.ofNat 32 (v.natAbs >>> (32 * i.val))) (List.finRange 8)
    (writeEvent (atOffset (offsetKS n)) (flagBit (decide (v < 0)) 0) :: rest)
  rw [setMagWords_finRange] at hwords
  have hsign := step_writeKS (s := s.setK n ⟨s.k[n].neg, BitVec.ofNat 256 v.natAbs⟩) hb hr n
    (flagBit (decide (v < 0)) 0) rest
  rw [State.setK_setK, State.setK_k_get, if_pos rfl, getLsbD_flagBit_self] at hsign
  rw [hostKLOAD_eq, List.append_assoc]
  exact hwords.trans (Runs.cons hsign (Runs.refl _))

/-- The addresses that KREAD reads: the eight words of `K[n]`, then its sign word. -/
def kAddrs (n : Reg) : List PortAddr :=
  (List.finRange 8).map (fun i => atOffset (offsetKW n i)) ++ [atOffset (offsetKS n)]

theorem hostKREAD_eq (n : Reg) : hostKREAD n = (kAddrs n).map readEvent := by
  revert n
  decide

/-- The words that KREAD returns. -/
theorem portValue_kAddrs (s : State) (n : Reg) : (kAddrs n).map (fun a => s.portValue (locOf a)) =
    (List.finRange 8).map (magWord s.k[n].mag) ++ [flagBit s.k[n].neg 0] := by
  simp only [kAddrs, List.map_append, List.map_map, Function.comp_def, List.map_cons, List.map_nil, locOf_offsetKW,
    locOf_offsetKS]
  rfl

/-- The value of the first `n` words of a number (R78). -/
theorem wordsValue_words (x n : Nat) :
    wordsValue ((List.range n).map fun i => BitVec.ofNat 32 (x >>> (32 * i))) = x % 2 ^ (32 * n) := by
  induction n generalizing x with
  | zero => exact (Nat.mod_one x).symm
  | succ n ih =>
    have hpow : 2 ^ (32 * (n + 1)) = 2 ^ 32 * 2 ^ (32 * n) := by rw [Nat.mul_succ, Nat.add_comm, Nat.pow_add]
    have htail (i : Nat) : x >>> (32 * (i + 1)) = x >>> 32 >>> (32 * i) := by
      rw [← Nat.shiftRight_add, Nat.mul_succ, Nat.add_comm]
    rw [hpow, Nat.mod_mul, ← Nat.shiftRight_eq_div_pow, ← ih, List.range_succ_eq_map, List.map_cons, List.map_map,
      wordsValue, BitVec.toNat_ofNat]
    simp only [Function.comp_def, htail, Nat.mul_zero, Nat.shiftRight_zero]

/-- The value of the eight words of a magnitude is the magnitude (R54, R78). -/
theorem wordsValue_magWords (m : U256) : wordsValue ((List.finRange 8).map (magWord m)) = m.toNat := by
  have hword (i : Fin 8) : magWord m i = BitVec.ofNat 32 (m.toNat >>> (32 * i.val)) := by
    rw [← magWord_ofNat, BitVec.ofNat_toNat, BitVec.setWidth_eq]
  have hvalue := wordsValue_words m.toNat 8
  rw [← List.map_coe_finRange_eq_range, List.map_map, Nat.mod_eq_of_lt m.isLt] at hvalue
  rw [funext hword]
  exact hvalue

/-- The value of KREAD from the nine words of `k` is `k` as an integer (R54, R78). -/
theorem kreadValue_words (k : KInt) :
    kreadValue ((List.finRange 8).map (magWord k.mag) ++ [flagBit k.neg 0]) = k.toInt := by
  have hlen : ((List.finRange 8).map (magWord k.mag)).length = 8 := by simp
  rw [kreadValue, List.take_left' hlen, wordsValue_magWords, List.getD_append_right _ _ _ _ hlen.le, hlen]
  exact congrArg (fun b : Bool => if b then _ else _) (getLsbD_flagBit_self k.neg)

theorem toInt_natAbs {v : Int} (h : v.natAbs < 2 ^ 256) :
    (⟨decide (v < 0), BitVec.ofNat 256 v.natAbs⟩ : KInt).toInt = v := by
  rw [KInt.toInt, BitVec.toNat_ofNat, Nat.mod_eq_of_lt h]
  simp only [decide_eq_true_eq]
  split <;> omega

/-! ### SECLOAD and SECREAD -/

/-- Byte `i` of a word built from bytes, 0 where there is none (`20_memory.md` R55). -/
theorem extract_bytesWord_getD (bs : List Byte) (hl : bs.length ≤ 4) (i : Nat) :
    (bytesWord bs).extractLsb' (8 * i) 8 = bs.getD i 0#8 := by
  by_cases hi : i < bs.length
  · rw [extract_bytesWord bs hl i hi, List.getD_eq_getElem _ _ hi]
  · rw [List.getD_eq_default _ _ (by omega)]
    apply BitVec.eq_of_getLsbD_eq
    intro b hb
    rw [BitVec.getLsbD_extractLsb', getLsbD_bytesWord_high bs _ (by omega)]
    simp

/-- SECBUF after SECLOAD has written `n` words from word `j` on (`30_encoding.md` R78). -/
def Memory.loadWords : Nat → Nat → List Byte → Memory → Memory
  | 0, _, _, m => m
  | n + 1, j, bytes, m =>
    loadWords n (j + 1) (bytes.drop 4) (m.setSecWord (Fin.ofNat 17 j) (bytesWord (bytes.take 4)))

theorem Memory.wf_loadWords (n j : Nat) (bytes : List Byte) {m : Memory} (hm : m.wf) :
    (Memory.loadWords n j bytes m).wf := by
  induction n generalizing j bytes m with
  | zero => exact hm
  | succ n ih => exact ih _ _ (wf_setSecWord hm _ _)

/-- Inside the words written SECBUF holds the bytes, padded with 0, and elsewhere what it held. -/
theorem Memory.read_loadWords {n j : Nat} (hj : j + n ≤ 17) (bytes : List Byte) {m : Memory} (hm : m.wf) (a : Nat) :
    (Memory.loadWords n j bytes m).read a =
      if j ≤ a / 4 ∧ a / 4 < j + n ∧ a < 65 then bytes.getD (a - 4 * j) 0#8 else m.read a := by
  induction n generalizing j bytes m with
  | zero => rw [if_neg (by omega)]; rfl
  | succ n ih =>
    have hval : (Fin.ofNat 17 j).val = j := Nat.mod_eq_of_lt (by omega)
    rw [Memory.loadWords, ih (by omega) _ (wf_setSecWord hm _ _), read_setSecWord_div hm, hval,
      extract_bytesWord_getD _ (List.length_take_le 4 bytes)]
    by_cases hfirst : a / 4 = j ∧ a < 65
    · have hmod : a - 4 * j = a % 4 := by omega
      have hlt : a % 4 < 4 := by omega
      rw [if_neg (by omega), if_pos hfirst, if_pos (by omega), hmod]
      simp [List.getD_eq_getElem?_getD, hlt]
    · rw [if_neg hfirst]
      by_cases hlater : j + 1 ≤ a / 4 ∧ a / 4 < j + 1 + n ∧ a < 65
      · have hoff : 4 + (a - 4 * (j + 1)) = a - 4 * j := by omega
        rw [if_pos hlater, if_pos (by omega)]
        simp [List.getD_eq_getElem?_getD, List.getElem?_drop, hoff]
      · rw [if_neg hlater, if_neg (by omega)]

theorem step_writeSECW {s : State} (hb : s.busy = false) (hr : s.rst = false) (j : Fin 17) (v : Word)
    (rest : List HostEvent) : step (s.withInbox (writeEvent (atOffset (offsetSECW j)) v :: rest)) =
      .next ((s.setSecbuf (s.secbuf.setSecWord j v)).withInbox rest) := by
  rw [step_write hb hr, hostWrite_secw v (locOf_offsetSECW j), operandWrite_idle (s := s.withInbox rest) _ hb]
  rfl

theorem runs_hostSECLOADfrom {n j : Nat} (hj : j + n ≤ 17) (bytes : List Byte) {s : State} (hb : s.busy = false)
    (hr : s.rst = false) (rest : List HostEvent) :
    Runs n (s.withInbox (hostSECLOADfrom .afterCompletion n j bytes ++ rest))
      ((s.setSecbuf (Memory.loadWords n j bytes s.secbuf)).withInbox rest) := by
  induction n generalizing j bytes s with
  | zero => exact Runs.refl _
  | succ n ih =>
    have hval : offsetSECW (Fin.ofNat 17 j) = 0x400 + 4 * j := by
      rw [offsetSECW, Fin.val_ofNat, Nat.mod_eq_of_lt (by omega)]
    rw [hostSECLOADfrom, hostWR_aligned (by omega) (by omega), ← hval]
    exact Runs.cons (step_writeSECW hb hr _ _ _) (ih (by omega) _ (s := s.setSecbuf _) hb hr)

theorem Memory.readBytes_add (m : Memory) (j n k : Nat) :
    m.readBytes j (n + k) = m.readBytes j n ++ m.readBytes (j + n) k := by
  induction n generalizing j with
  | zero => rw [Nat.zero_add]; rfl
  | succ n ih =>
    rw [Nat.add_right_comm]
    simp only [Memory.readBytes, ih, List.cons_append]
    rw [Nat.add_right_comm, Nat.add_assoc j n 1]

/-- Above its 65 bytes SECBUF reads 0. -/
theorem Memory.read_of_size_le {m : Memory} (hm : m.wf) {a : Nat} (ha : secSize ≤ a) : m.read a = 0#8 :=
  Memory.read_of_not_mem fun c hc h => absurd (hm.2 c hc).1 (by omega)

/-- The four bytes of word `j` are those of SECBUF from address `4·j` on (`20_memory.md` R55). -/
theorem wordBytes_secWord {m : Memory} (hm : m.wf) (j : Fin 17) :
    wordBytes (m.secWord j) 4 = m.readBytes (4 * j.val) 4 := by
  refine List.ext_getElem (by rw [length_wordBytes, Memory.length_readBytes]) fun i hi hi' => ?_
  rw [getElem_wordBytes, Memory.getElem_readBytes]
  by_cases hlen : i < secWordLen j
  · exact extract_secWord m j i hlen
  · have hlast : 65 ≤ 4 * j.val + i := by
      rw [length_wordBytes] at hi
      rw [secWordLen] at hlen
      split at hlen <;> omega
    have hbytes : (m.readBytes (4 * j.val) (secWordLen j)).length = secWordLen j := Memory.length_readBytes _ _ _
    rw [Memory.read_of_size_le hm hlast, Memory.secWord,
      extract_bytesWord_getD _ (by rw [hbytes]; exact secWordLen_le j), List.getD_eq_default _ _ (by omega)]

/-- The addresses of the first `k` words of SECBUF. -/
def secAddrs (k : Nat) : List PortAddr := (List.range k).map fun j => atOffset (0x400 + 4 * j)

theorem hostSECREAD_eq {n : Nat} (hn : n ≤ 65) : hostSECREAD n = (secAddrs (secWords n)).map readEvent := by
  rw [hostSECREAD, secAddrs, List.map_map, List.map_eq_flatMap]
  refine List.flatMap_congr fun j hj => ?_
  have hlt := List.mem_range.mp hj
  rw [secWords] at hlt
  exact hostRD_aligned (by omega) (by omega)

/-- The bytes of the first `k` words are those of SECBUF. -/
theorem wordBytes_secAddrs {s : State} (hm : s.secbuf.wf) {k : Nat} (hk : k ≤ 17) :
    ((secAddrs k).map fun a => s.portValue (locOf a)).flatMap (fun w => wordBytes w 4) =
      s.secbuf.readBytes 0 (4 * k) := by
  induction k with
  | zero => rfl
  | succ k ih =>
    have hword : wordBytes (s.portValue (locOf (atOffset (0x400 + 4 * k)))) 4 = s.secbuf.readBytes (4 * k) 4 := by
      rw [show locOf (atOffset (0x400 + 4 * k)) = .secw ⟨k, hk⟩ from locOf_offsetSECW ⟨k, hk⟩]
      exact wordBytes_secWord hm ⟨k, hk⟩
    rw [Nat.mul_succ, Memory.readBytes_add, Nat.zero_add, ← ih (by omega), ← hword]
    simp [secAddrs, List.range_succ]

/-- The bytes that SECREAD gives are those of SECBUF from byte 0 on. -/
theorem secreadBytes_secAddrs {s : State} (hm : s.secbuf.wf) {n : Nat} (hn : n ≤ 65) :
    secreadBytes n ((secAddrs (secWords n)).map fun a => s.portValue (locOf a)) = s.secbuf.readBytes 0 n := by
  have hsplit : 4 * secWords n = n + (4 * secWords n - n) := by rw [secWords]; omega
  rw [secreadBytes, wordBytes_secAddrs hm (by rw [secWords]; omega), hsplit, Memory.readBytes_add]
  exact List.take_left' (Memory.length_readBytes _ _ _)

/-- After SECLOAD SECBUF holds the string from byte 0 on. -/
theorem readBytes_loadWords {bytes : List Byte} (hl : bytes.length ≤ 65) {m : Memory} (hm : m.wf) :
    (Memory.loadWords (secWords bytes.length) 0 bytes m).readBytes 0 bytes.length = bytes := by
  have hwords : secWords bytes.length ≤ 17 := by rw [secWords]; omega
  refine List.ext_getElem (Memory.length_readBytes _ _ _) fun i _ hi => ?_
  have hin : 0 ≤ (0 + i) / 4 ∧ (0 + i) / 4 < 0 + secWords bytes.length ∧ 0 + i < 65 := by
    rw [secWords]; omega
  rw [Memory.getElem_readBytes, Memory.read_loadWords (by omega) bytes hm, if_pos hin, Nat.zero_add]
  exact List.getD_eq_getElem _ _ hi

/-- From a state with no command running, KLOAD then KREAD (`30_encoding.md` R78). -/
theorem runs_kload_kread {s : State} (hb : s.busy = false) (hr : s.rst = false) (n : Reg) {v : Int}
    (hv : v.natAbs < 2 ^ 256) : ∃ t, Runs 18 (s.withInbox (hostKLOAD n v ++ hostKREAD n)) t ∧
      t.inbox = [] ∧ t.kreadResult = v ∧ t.k[n].toInt = v := by
  have hload := runs_hostKLOAD hb hr n v (hostKREAD n)
  set s1 := s.setK n ⟨decide (v < 0), BitVec.ofNat 256 v.natAbs⟩ with hs1
  have hk : s1.k[n].toInt = v := by
    rw [hs1, State.setK_k_get, if_pos rfl, toInt_natAbs hv]
  have hread := runs_reads (s := s1) hb hr (kAddrs n)
  rw [← hostKREAD_eq] at hread
  refine ⟨_, hload.trans hread, rfl, ?_, hk⟩
  have hreplies := s1.lastReplies_replyAll ((kAddrs n).map fun a => s1.portValue (locOf a))
  refine (congrArg kreadValue hreplies).trans ?_
  rw [portValue_kAddrs, kreadValue_words, hk]

/-- From a state with no command running, SECLOAD then SECREAD (`30_encoding.md` R78). -/
theorem runs_secload_secread {s : State} (hb : s.busy = false) (hr : s.rst = false) (hm : s.secbuf.wf)
    {bytes : List Byte} (hl : bytes.length ≤ 65) :
    ∃ t, Runs (2 * secWords bytes.length) (s.withInbox (hostSECLOAD bytes ++ hostSECREAD bytes.length)) t ∧
      t.inbox = [] ∧ t.secreadResult bytes.length = bytes ∧ t.secbuf.readBytes 0 bytes.length = bytes := by
  have hwords : secWords bytes.length ≤ 17 := by rw [secWords]; omega
  have hload := runs_hostSECLOADfrom (n := secWords bytes.length) (j := 0) (by omega) bytes hb hr
    (hostSECREAD bytes.length)
  set s1 := s.setSecbuf (Memory.loadWords (secWords bytes.length) 0 bytes s.secbuf) with hs1
  have hbytes : s1.secbuf.readBytes 0 bytes.length = bytes := readBytes_loadWords hl hm
  have hread := runs_reads (s := s1) hb hr (secAddrs (secWords bytes.length))
  have hlen : (secAddrs (secWords bytes.length)).length = secWords bytes.length := by simp [secAddrs]
  rw [← hostSECREAD_eq hl, hlen] at hread
  rw [Nat.two_mul]
  refine ⟨_, hload.trans hread, rfl, ?_, hbytes⟩
  have hreplies := s1.lastReplies_replyAll ((secAddrs (secWords bytes.length)).map fun a => s1.portValue (locOf a))
  rw [List.length_map, hlen] at hreplies
  refine (congrArg (secreadBytes bytes.length) hreplies).trans ?_
  rw [secreadBytes_secAddrs (Memory.wf_loadWords _ _ _ hm) hl, hbytes]

/-- Settles O60. -/
theorem hostStatementsReadBack : Obligations.HostStatementsReadBack := fun _ hb hr hm =>
  ⟨fun n _ hv => runs_kload_kread hb hr n hv, fun _ hl => runs_secload_secread hb hr hm hl⟩

end Sys2Proof.Machine
end

section
/-!
PROOFS of the family `30_encoding.md`. First the encoder against the opcode map: the row of a command, and the fields
of a command built from a row. Then the map as R73 prints it, the core's turn, and the loop on `STATUS` of ISSUE. After
each of these the statements it settles.
-/

namespace Sys2Proof

/-! ### The word of a command decodes to the command (`30_encoding.md` R77, R79) -/

theorem Instr.fields_op (i : Instr) : i.fields.op = i.opcode := by
  cases i <;> rfl

/-- Every command has its row in the map: its opcode, its shape, and operands that are read back from its word (R73). -/
theorem exists_row (i : Instr) :
    ∃ r ∈ opcodeMap, r.op = i.opcode ∧ r.fmt = i.format ∧ r.build (operandsOf (encode i)) = i := by
  have key : ∃ r, opcodeMap.find? (fun r : Row => r.op == i.opcode) = some r ∧ r.fmt = i.format ∧
      r.build (operandsOf i.fields.word) = i := by
    rw [operandsOf_word]
    cases i with
    | secenc ra c =>
      have hflag : (if c then 1#4 else 0#4).getLsbD 0 = c := by cases c <;> rfl
      exact ⟨_, rfl, rfl, congrArg₂ Instr.secenc (regField_low ra) hflag⟩
    | _ => exact ⟨_, rfl, rfl, by simp only [Instr.fields, mkFields, regField_low]⟩
  obtain ⟨r, hfind, hfmt, hbuild⟩ := key
  have hop := List.find?_some hfind
  exact ⟨r, List.mem_of_find?_eq_some hfind, eq_of_beq hop, hfmt, hbuild⟩

/-- The word of a command matches every row with its opcode and its shape (R71, R72). -/
theorem Row.isMatch_encode {r : Row} {i : Instr} (hop : r.op = i.opcode) (hfmt : r.fmt = i.format) :
    r.isMatch (encode i) = true := by
  have hfits : i.fields.fits i.format = true := Laws.Shape.all i
  rw [encode, Row.isMatch_word, i.fields_op, hop, hfmt, hfits, beq_self_eq_true, Bool.and_true]

/-- Settles O2: the word of a command matches the command's row, which reads the operands back. -/
theorem decodeInvertsEncode : Obligations.DecodeInvertsEncode := by
  intro i
  obtain ⟨r, hr, hop, hfmt, hbuild⟩ := exists_row i
  rw [decode_of_match hr (Row.isMatch_encode hop hfmt), hbuild]

theorem decode_of_encode_eq {w : Word} {i : Instr} (h : encode i = w) : decode w = .command i :=
  h ▸ decodeInvertsEncode i

/-- Settles O1: each of the printed words is the word of its command. -/
theorem manualExampleWordsDecode : Obligations.ManualExampleWordsDecode := by
  refine ⟨?_, ?_, ?_, ?_, ?_, ?_, ?_, ?_, ?_, ?_, ?_, ?_⟩ <;> exact decode_of_encode_eq rfl

/-! ### A legal word is the word of its command (`30_encoding.md` R71, R79) -/

/-- The 4-bit field of a register operand: its index if the shape uses the field, else 0 (R71). -/
def operandField (used : Bool) (r : Reg) : BitVec 4 := if used then regField r else 0#4

/-- The flags of a shape: `C` in bit 0 of shape `AF`, else 0 (R71). -/
def Format.flags (c : Bool) : Format → BitVec 4
  | .af => if c then 1#4 else 0#4
  | .z | .d | .a | .da | .ab | .dab | .dce | .dabce | .abce => 0#4

/-- The fields that an opcode and a shape make of operands (R70, R71). -/
def Fields.ofOperands (op : BitVec 8) (fmt : Format) (o : Operands) : Fields where
  op := op
  rd := operandField fmt.usesRd o.rd
  ra := operandField fmt.usesRa o.ra
  rb := operandField fmt.usesRb o.rb
  rc := operandField fmt.usesRcRe o.rc
  re := operandField fmt.usesRcRe o.re
  fl := fmt.flags o.c

/-- A row's command has the row's opcode and the operand fields of the row's shape (R73). -/
theorem fields_build {r : Row} (hr : r ∈ opcodeMap) (o : Operands) :
    (r.build o).fields = Fields.ofOperands r.op r.fmt o := by
  have hmap : opcodeMap.map (fun r => (r.build o).fields) =
      opcodeMap.map (fun r => Fields.ofOperands r.op r.fmt o) := rfl
  exact List.map_inj_left.mp hmap r hr

/-- A register field that its mask allows is given by its three low bits. -/
theorem operandField_low (used : Bool) (x : BitVec 4) (h : x &&& fieldMask used = 0#4) :
    operandField used (x.extractLsb' 0 3).toFin = x := by
  revert used x; decide

/-- Flags that the shape's mask allows are given by bit 0. -/
theorem Format.flags_getLsbD_zero (fmt : Format) (x : BitVec 4) (h : x &&& fmt.flMask = 0#4) :
    fmt.flags (x.getLsbD 0) = x := by
  revert x; cases fmt <;> decide

/-- Fields that fit a shape are made by the shape from the operands of their word: every other bit is fixed (R71). -/
theorem Fields.ofOperands_operandsOf {f : Fields} {fmt : Format} (h : f.fits fmt = true) :
    Fields.ofOperands f.op fmt (operandsOf f.word) = f := by
  simp only [Fields.fits, Bool.and_eq_true, beq_iff_eq] at h
  obtain ⟨⟨⟨⟨⟨hrd, hra⟩, hrb⟩, hrc⟩, hre⟩, hfl⟩ := h
  rw [operandsOf_word, Fields.ofOperands, operandField_low _ _ hrd, operandField_low _ _ hra,
    operandField_low _ _ hrb, operandField_low _ _ hrc, operandField_low _ _ hre, Format.flags_getLsbD_zero _ _ hfl]

/-- A word that decodes matches a row of the map, and is that row's command (R79). -/
theorem exists_row_of_decode {w : Word} {i : Instr} (h : decode w = .command i) :
    ∃ r ∈ opcodeMap, r.isMatch w = true ∧ r.build (operandsOf w) = i := by
  by_contra hno
  have hill : decode w = .illegal := decode_illegal_iff.mpr fun r hr => by
    by_contra hm
    rw [Bool.not_eq_false] at hm
    exact hno ⟨r, hr, hm, Decoded.command.inj ((decode_of_match hr hm).symm.trans h)⟩
  cases hill.symm.trans h

/-- Settles O3: the fields of the word fit the shape of its row, so the command's fields are the word's. -/
theorem encodeInvertsDecode : Obligations.EncodeInvertsDecode := by
  intro w i h
  obtain ⟨r, hr, hm, rfl⟩ := exists_row_of_decode h
  obtain ⟨hop, hfits⟩ := (Row.isMatch_iff r w).mp hm
  calc encode (r.build (operandsOf w))
      = (Fields.ofOperands (Fields.ofWord w).op r.fmt (operandsOf (Fields.ofWord w).word)).word := by
        rw [encode, fields_build hr, hop, Fields.word_ofWord]
    _ = w := by rw [Fields.ofOperands_operandsOf hfits, Fields.word_ofWord]

end Sys2Proof

namespace Sys2Proof.Machine

/-! ### The map as R73 prints it -/

/-- The operands of a word, each as the number in the bits R79 names. -/
def wordOperands (w : Word) : Operands :=
  ⟨wordReg w 20, wordReg w 16, wordReg w 12, wordReg w 8, wordReg w 4, w.getLsbD 0⟩

theorem toFin_extractLsb'_three (w : Word) (lo : Nat) : (w.extractLsb' lo 3).toFin = wordReg w lo := by
  apply Fin.ext
  rw [BitVec.val_toFin, BitVec.extractLsb'_toNat, Nat.shiftRight_eq_div_pow]
  rfl

theorem operandsOf_eq_wordOperands (w : Word) : operandsOf w = wordOperands w := by
  simp only [operandsOf, toFin_extractLsb'_three, wordOperands]

/-- A row of the map in the form in which R73 prints it: `match`, `mask`, command. -/
def printedRow (r : Row) : TableRow := ⟨r.pattern, r.fmt.mask, fun w => r.build (wordOperands w)⟩

/-- The printed table is the decoder's map, row by row. -/
theorem commandTable_eq : commandTable = opcodeMap.map printedRow := rfl

theorem mem_commandTable {t : TableRow} : t ∈ commandTable ↔ ∃ r ∈ opcodeMap, printedRow r = t := by
  rw [commandTable_eq, List.mem_map]

theorem printedRow_matches {r : Row} {w : Word} : (printedRow r).Matches w ↔ r.isMatch w = true :=
  beq_iff_eq.symm

/-- A word that matches no printed row is illegal (R75). -/
theorem decode_illegal_of_no_row {w : Word} (h : ∀ r ∈ commandTable, ¬r.Matches w) : decode w = .illegal :=
  decode_illegal_iff.mpr fun r hr => Bool.eq_false_iff.mpr fun hm =>
    h (printedRow r) (mem_commandTable.mpr ⟨r, hr, rfl⟩) (printedRow_matches.mpr hm)

/-- Settles O4: the printed rows are those of the decoder's map, whose opcodes are distinct. -/
theorem decodeFollowsPrintedTable : Obligations.DecodeFollowsPrintedTable := by
  refine ⟨fun w t ht hm => ?_, fun w t ht t' ht' hm hm' => ?_, fun w => decode_illegal_of_no_row⟩
  · obtain ⟨r, hr, rfl⟩ := mem_commandTable.mp ht
    rw [decode_of_match hr (printedRow_matches.mp hm), operandsOf_eq_wordOperands]
    rfl
  · obtain ⟨r, hr, rfl⟩ := mem_commandTable.mp ht
    obtain ⟨r', hr', rfl⟩ := mem_commandTable.mp ht'
    obtain ⟨hop, -⟩ := (Row.isMatch_iff r w).mp (printedRow_matches.mp hm)
    obtain ⟨hop', -⟩ := (Row.isMatch_iff r' w).mp (printedRow_matches.mp hm')
    rw [row_unique hr hr' (hop.symm.trans hop')]

/-! ### The core's turn (`40_system.md` R91) -/

/-- With a command pending and the host waiting, the step is the command, or the fault of an illegal word. -/
theorem step_core_cases {s : State} (hb : s.busy = true) (hw : s.HostWaits) :
    (∃ i, decode s.pend = .command i ∧ step s = exec i s) ∨
    (decode s.pend = .illegal ∧ step s = .next (s.takeFault .illegalCommand)) := by
  rcases step_cases s with ⟨ev, rest, hi, hbusy, -⟩ | ⟨-, hc⟩ | ⟨-, hill⟩ | ⟨hidle, -⟩
  · have hafter : ev.arrival = .afterCompletion := hw ev (by simp [hi])
    cases hafter.symm.trans (hbusy hb)
  · exact .inl hc
  · exact .inr hill
  · cases hb.symm.trans hidle

theorem step_illegal {s : State} (hb : s.busy = true) (hw : s.HostWaits) (hd : decode s.pend = .illegal) :
    step s = .next (s.takeFault .illegalCommand) := by
  rcases step_core_cases hb hw with ⟨i, hi, -⟩ | ⟨-, h⟩
  · cases hd.symm.trans hi
  · exact h

/-- Settles O5. -/
theorem illegalWordIsAcceptedAndFaults : Obligations.IllegalWordIsAcceptedAndFaults := by
  intro s w hno hb he hw
  have haccept : s.hostWrite (atOffset 0x004) w = { s with pend := w, busy := true, done := false } :=
    offer_accepted w hb he
  refine ⟨haccept, ?_⟩
  rw [haccept]
  exact step_illegal rfl hw (decode_illegal_of_no_row hno)

/-- No write of a command touches the host's pending actions. -/
theorem Writes.inbox_eq {i : Instr} {s s' : State} (h : Writes i s s') : s'.inbox = s.inbox := by
  cases h <;> rfl

/-- The core's step ends the pending command, legal or not, and leaves the host's pending actions and the reset level
(R91, R92). -/
theorem step_core_ends {s : State} (hb : s.busy = true) (hw : s.HostWaits) :
    ∃ u, step s = .next u ∧ u.busy = false ∧ u.rst = s.rst ∧ u.inbox = s.inbox := by
  rcases step_core_cases hb hw with ⟨i, -, hstep⟩ | ⟨-, hstep⟩ <;> rw [hstep]
  · rcases exec_cases i s with ⟨e, he⟩ | ⟨s', hwr, he⟩ <;> rw [he]
    · exact ⟨_, rfl, rfl, rfl, rfl⟩
    · obtain ⟨-, -, -, hrst⟩ := hwr.writes.status_eq
      exact ⟨_, rfl, rfl, hrst, hwr.writes.inbox_eq⟩
  · exact ⟨_, rfl, rfl, rfl, rfl⟩

/-! ### The loop on `STATUS` (`30_encoding.md` R78) -/

theorem pollStatus_busy {s : State} (hb : s.busy = true) (hr : s.rst = false) (n : Nat) :
    s.pollStatus n = (s.reply s.statusWord).withInbox (pollEvent n :: s.inbox) := by
  rw [pollStatus_eq n hr, if_pos hb]
  rfl

theorem pollStatus_idle {s : State} (hb : s.busy = false) (hr : s.rst = false) (n : Nat) :
    s.pollStatus n = s.reply s.statusWord := by
  rw [pollStatus_eq n hr, if_neg (Bool.eq_false_iff.mp hb)]
  rfl

/-- A pass of the loop while the command runs: `STATUS` is recorded and the loop goes on. -/
theorem step_poll_busy {s : State} (hb : s.busy = true) (hr : s.rst = false) (n : Nat) (rest : List HostEvent) :
    step (s.withInbox (pollEvent (n + 1) :: rest)) =
      .next ((s.reply s.statusWord).withInbox (pollEvent n :: rest)) :=
  (step_host (s := s.withInbox (pollEvent (n + 1) :: rest)) rfl (.inr rfl)).trans
    (congrArg _ (pollStatus_busy (s := s.withInbox rest) hb hr n))

/-- The last pass of the loop: no command runs, `STATUS` is recorded and the loop is over. -/
theorem step_poll_idle {s : State} (hb : s.busy = false) (hr : s.rst = false) (n : Nat) (rest : List HostEvent) :
    step (s.withInbox (pollEvent n :: rest)) = .next ((s.reply s.statusWord).withInbox rest) := by
  have hpoll : ∃ m, (pollEvent n).access = .poll m := by cases n <;> exact ⟨_, rfl⟩
  obtain ⟨m, hm⟩ := hpoll
  rw [step_host (s := s.withInbox (pollEvent n :: rest)) rfl (.inl hb), hm]
  exact congrArg _ (pollStatus_idle (s := s.withInbox rest) hb hr m)

/-- While a command runs, `n` passes of the loop record `n` times the same `STATUS`. -/
theorem runs_poll {s : State} (hb : s.busy = true) (hr : s.rst = false) (n : Nat) (rest : List HostEvent) :
    Runs n (s.withInbox (pollEvent n :: rest))
      ((s.replyAll (List.replicate n s.statusWord)).withInbox (pollEvent 0 :: rest)) := by
  induction n generalizing s with
  | zero => exact Runs.refl _
  | succ n ih =>
    rw [List.replicate_succ, ← State.replyAll_reply]
    exact Runs.cons (step_poll_busy hb hr n rest) (ih (s := s.reply s.statusWord) hb hr)

theorem withInbox_offer (s : State) (l : List HostEvent) (w : Word) :
    (s.withInbox l).offer w = (s.offer w).withInbox l := by
  rw [State.offer, State.offer, apply_ite (State.withInbox · l)]
  rfl

/-- The first step of ISSUE offers the word (R78, R90). -/
theorem step_hostISSUEword {s : State} (hb : s.busy = false) (hr : s.rst = false) (w : Word) (n : Nat)
    (rest : List HostEvent) :
    step (s.withInbox (hostISSUEword w n ++ rest)) = .next ((s.offer w).withInbox (pollEvent n :: rest)) :=
  (step_write hb hr (atOffset 0x004) w (pollEvent n :: rest)).trans (congrArg _ (withInbox_offer s _ w))

/-- ISSUE of an accepted word, up to the core's turn: the word is accepted, and `n` reads find `BUSY = 1`. -/
theorem runs_issue_accepted {s : State} (hb : s.busy = false) (he : s.errf = false) (hr : s.rst = false) (w : Word)
    (n : Nat) (rest : List HostEvent) :
    Runs (n + 1) (s.withInbox (hostISSUEword w n ++ rest))
      (((s.offer w).replyAll (List.replicate n (s.offer w).statusWord)).withInbox (pollEvent 0 :: rest)) := by
  have hoffer := offer_accepted w hb he
  refine Runs.cons (step_hostISSUEword hb hr w n rest) (runs_poll ?_ ?_ n rest) <;> rw [hoffer]
  exact hr

/-- While the loop on `STATUS` waits for the completion: the core's step, then the last pass. -/
theorem runs_completion {s : State} (hb : s.busy = true) (hr : s.rst = false) (rest : List HostEvent) :
    ∃ u, step (s.withInbox (pollEvent 0 :: rest)) = .next u ∧ u.busy = false ∧
      Runs 2 (s.withInbox (pollEvent 0 :: rest)) ((u.reply u.statusWord).withInbox rest) := by
  have hwaits : (s.withInbox (pollEvent 0 :: rest)).HostWaits := fun ev hev => by
    cases hev
    rfl
  obtain ⟨u, hstep, hub, hur, hui⟩ := step_core_ends (s := s.withInbox (pollEvent 0 :: rest)) hb hwaits
  have hu : u.withInbox (pollEvent 0 :: rest) = u := congrArg (fun l => u.withInbox l) hui.symm
  have hlast := step_poll_idle hub (hur.trans hr) 0 rest
  rw [hu] at hlast
  exact ⟨u, hstep, hub, Runs.cons hstep (Runs.cons hlast (Runs.refl _))⟩

/-- Settles O59: acceptance, the loop while the command runs, the core's step, and the last pass of the loop; or the
drop and one pass. -/
theorem issueReadsStatusUntilNotBusy : Obligations.IssueReadsStatusUntilNotBusy := by
  intro s w n rest hb hr
  refine ⟨fun he => ?_, fun he => ?_⟩
  · have hissue := runs_issue_accepted hb he hr w n rest
    rw [offer_accepted w hb he] at hissue
    set a : State := { s with pend := w, busy := true, done := false }
    obtain ⟨u, hstep, hub, hend⟩ :=
      runs_completion (s := a.replyAll (List.replicate n a.statusWord)) rfl hr rest
    refine ⟨_, u, ?_, hissue, hstep, hub, hissue.trans hend⟩
    rw [State.replyAll, List.reverse_replicate]
    rfl
  · have hoffer := step_hostISSUEword hb hr w n rest
    rw [offer_dropped w (.inr he)] at hoffer
    have hlast := step_poll_idle (s := s.dropWrite) hb hr n rest
    exact ⟨_, Runs.cons hoffer (Runs.cons hlast (Runs.refl _)), rfl, rfl⟩

end Sys2Proof.Machine
end

section
/-!
PROOFS of the family `40_system.md`. First the core's turn and the end of a command; then the reads of the sources; then
the host's turns before a pending command, which come to an end because each one lowers `hostWork`.
-/

namespace Sys2Proof.Machine

/-! ### The core's turn (`40_system.md` R91) -/

/-- Settles O6. -/
theorem stepExecutesPendingCommand : Obligations.StepExecutesPendingCommand := by
  intro s i hb hw hd
  rcases step_core_cases hb hw with ⟨j, hj, hstep⟩ | ⟨hill, -⟩
  · cases hd.symm.trans hj
    exact hstep
  · cases hd.symm.trans hill

/-! ### Acceptance (`40_system.md` R90) -/

/-- The location at `CMD` is the one whose writes are offers. -/
theorem hostWrite_cmd (s : State) (w : Word) : s.hostWrite (atOffset 0x004) w = s.offer w := rfl

/-- Settles O8. -/
theorem commandWriteIsAcceptedOrDropped : Obligations.CommandWriteIsAcceptedOrDropped := by
  intro s w
  rw [hostWrite_cmd]
  split
  · next h => exact offer_dropped w h
  · next h =>
    obtain ⟨hb, he⟩ := not_or.mp h
    exact offer_accepted w (Bool.eq_false_iff.mpr hb) (Bool.eq_false_iff.mpr he)

/-! ### The end of a command (`40_system.md` R91, R95) -/

/-- Settles O18: `finish` of the unchanged state. -/
theorem nopOnlyCompletes : Obligations.NopOnlyCompletes := fun s => finish_ok s s

/-- No write of a command touches the dropped-write flag, the interrupt enable, the accepted word or the host's
fields. -/
theorem Writes.host_eq {i : Instr} {s s' : State} (h : Writes i s s') :
    s'.ovr = s.ovr ∧ s'.ie = s.ie ∧ s'.pend = s.pend ∧ s'.replies = s.replies ∧ s'.draws = s.draws := by
  cases h <;> exact ⟨rfl, rfl, rfl, rfl, rfl⟩

/-- Settles O9: a command records a fault, or completes with writes that touch no status bit but `T`. -/
theorem everyCommandEndsInOneStep : Obligations.EveryCommandEndsInOneStep := by
  intro i s
  rcases exec_cases i s with ⟨e, he⟩ | ⟨s', hw, he⟩
  · exact ⟨_, he, rfl, rfl, rfl, rfl, rfl, rfl, rfl, rfl, rfl, .inl ⟨e, rfl⟩⟩
  · obtain ⟨herrf, hcode, hcmd, hrst⟩ := hw.writes.status_eq
    obtain ⟨hovr, hie, hpend, hreplies, hdraws⟩ := hw.writes.host_eq
    exact ⟨_, he, rfl, rfl, hovr, hie, hpend, hrst, hw.writes.inbox_eq, hreplies, hdraws, .inr ⟨herrf, hcode, hcmd⟩⟩

/-! ### Invalid sources (`40_system.md` R93) -/

/-- A source read, and what follows it, raises `Uninit` if that source is invalid or what follows raises it for a later
one; for either register file. -/
theorem read_bind_uninit {α β : Type} {file : Reg → Option β} {read : Reg → Except CmdFault β}
    (hsome : ∀ {r v}, file r = some v → read r = .ok v) (hnone : ∀ {r}, file r = none → read r = .error .uninit)
    {r : Reg} {rs : List Reg} {k : β → Except CmdFault α} (h : ∃ x ∈ r :: rs, file x = none)
    (hk : ∀ v, (∃ x ∈ rs, file x = none) → k v = .error .uninit) : read r >>= k = .error .uninit := by
  cases hr : file r with
  | none => rw [hnone hr]; rfl
  | some v =>
    rw [hsome hr]
    obtain ⟨x, hx, hn⟩ := h
    rcases List.mem_cons.mp hx with rfl | hx
    · cases hr.symm.trans hn
    · exact hk v ⟨x, hx, hn⟩

theorem readF_bind_uninit {α : Type} {s : State} {r : Reg} {rs : List Reg} {k : FE → Except CmdFault α}
    (h : ∃ x ∈ r :: rs, s.f[x] = none) (hk : ∀ u, (∃ x ∈ rs, s.f[x] = none) → k u = .error .uninit) :
    s.readF r >>= k = .error .uninit :=
  read_bind_uninit (file := (s.f[·])) State.readF_some State.readF_none h hk

theorem readQ_bind_uninit {α : Type} {s : State} {r : Reg} {rs : List Reg} {k : Pt → Except CmdFault α}
    (h : ∃ x ∈ r :: rs, s.q[x] = none) (hk : ∀ p, (∃ x ∈ rs, s.q[x] = none) → k p = .error .uninit) :
    s.readQ r >>= k = .error .uninit :=
  read_bind_uninit (file := (s.q[·])) State.readQ_some State.readQ_none h hk

/-- A command reads its `F` sources before anything else. -/
theorem exec_invalid_f {i : Instr} {s : State} (h : ∃ r ∈ sourcesF i, s.f[r] = none) :
    exec i s = finish s (.error .uninit) := by
  have hnil : ¬∃ r ∈ ([] : List Reg), s.f[r] = none := by simp
  cases i with
  | finv | fpow | fsqrt | fget | fgetp =>
    exact congrArg (finish s) (readF_bind_uninit h fun _ h => absurd h hnil)
  | fadd | fsub | fmul | fdiv | feq | pinf =>
    exact congrArg (finish s) (readF_bind_uninit h fun _ h => readF_bind_uninit h fun _ h => absurd h hnil)
  | pnew =>
    exact congrArg (finish s) (readF_bind_uninit h fun _ h => readF_bind_uninit h fun _ h =>
      readF_bind_uninit h fun _ h => readF_bind_uninit h fun _ h => absurd h hnil)
  | _ => exact absurd h hnil

/-- A command reads its `Q` sources before anything else. -/
theorem exec_invalid_q {i : Instr} {s : State} (h : ∃ r ∈ sourcesQ i, s.q[r] = none) :
    exec i s = finish s (.error .uninit) := by
  have hnil : ¬∃ r ∈ ([] : List Reg), s.q[r] = none := by simp
  cases i with
  | pdbl | pmul | pisinf | pgetx | pgety | pgeta | pgetb | smul | secenc | sverify =>
    exact congrArg (finish s) (readQ_bind_uninit h fun _ h => absurd h hnil)
  | padd | peq =>
    exact congrArg (finish s) (readQ_bind_uninit h fun _ h => readQ_bind_uninit h fun _ h => absurd h hnil)
  | _ => exact absurd h hnil

/-- Settles O16. -/
theorem invalidSourceRaisesUninit : Obligations.InvalidSourceRaisesUninit := fun _ _ h =>
  h.elim exec_invalid_f exec_invalid_q

/-! ### The host's turns before a pending command (`40_system.md` R92) -/

theorem hostWork_lt_cons (ev : HostEvent) (rest : List HostEvent) : hostWork rest < hostWork (ev :: rest) := by
  cases h : ev.access <;> simp [hostWork, h]

theorem hostWork_cons_poll {ev : HostEvent} {n : Nat} (h : ev.access = .poll n) (rest : List HostEvent) :
    hostWork (ev :: rest) = n + 1 + hostWork rest := by
  simp [hostWork, h]

/-- The command that is pending in `s` is pending in `t`, with the registers and bytes it was accepted with. -/
structure SameCommand (s t : State) : Prop where
  busy : t.busy = true
  pend : t.pend = s.pend
  f : t.f = s.f
  q : t.q = s.q
  k : t.k = s.k
  secbuf : t.secbuf = s.secbuf

theorem SameCommand.refl {s : State} (hb : s.busy = true) : SameCommand s s := ⟨hb, rfl, rfl, rfl, rfl, rfl⟩

theorem SameCommand.trans {s t u : State} (h : SameCommand s t) (h' : SameCommand t u) : SameCommand s u where
  busy := h'.busy
  pend := h'.pend.trans h.pend
  f := h'.f.trans h.f
  q := h'.q.trans h.q
  k := h'.k.trans h.k
  secbuf := h'.secbuf.trans h.secbuf

/-- The host's waiting is over: it is the core's turn, or the host asserts the reset input (`70_reset_and_hazards.md`
R252). -/
def CommandDue (t : State) : Prop :=
  t.HostWaits ∨ ∃ ev rest, t.inbox = ev :: rest ∧ ev.arrival = .whileBusy ∧ ev.access = .rstAssert

/-- A turn of the host other than reset keeps the pending command. After it the host waits, or it has less to do than
before: the last pass of its loop on `STATUS` is put back to wait for the completion. -/
theorem hostTurn_progress {s : State} {ev : HostEvent} (rest : List HostEvent) (hb : s.busy = true)
    (hx : ev.access ≠ .rstAssert) :
    SameCommand s (s.hostTurn ev.access rest) ∧ ((s.hostTurn ev.access rest).HostWaits ∨
      hostWork (s.hostTurn ev.access rest).inbox < hostWork (ev :: rest)) := by
  obtain ⟨hbusy, hpend, hf, hq, hk, hsec, hinbox⟩ := hostAct_busy (s := s.withInbox rest) hb hx
  refine ⟨⟨hbusy, hpend, hf, hq, hk, hsec⟩, ?_⟩
  rw [show s.hostTurn ev.access rest = (s.withInbox rest).hostAct ev.access from rfl, State.HostWaits]
  rcases hinbox with hin | ⟨n, hpoll, hin⟩ <;> rw [hin]
  · exact .inr (hostWork_lt_cons ev rest)
  · cases n with
    | zero =>
      left
      rintro _ ⟨⟩
      rfl
    | succ n =>
      right
      rw [hostWork_cons_poll hpoll, hostWork_cons_poll (ev := pollEvent (n + 1)) rfl]
      exact Nat.add_lt_add_right (Nat.lt_succ_self (n + 1)) (hostWork rest)

/-- While the host does not wait, its next action comes before the completion. -/
theorem hostWaits_or_acts (s : State) :
    s.HostWaits ∨ ∃ ev rest, s.inbox = ev :: rest ∧ ev.arrival = .whileBusy := by
  cases hi : s.inbox with
  | nil => exact .inl (by simp [State.HostWaits, hi])
  | cons ev rest =>
    cases harr : ev.arrival with
    | whileBusy => exact .inr ⟨ev, rest, rfl, harr⟩
    | afterCompletion => exact .inl (by simp [State.HostWaits, hi, harr])

/-- A pending command comes due within the turns the host can take, by induction on them. -/
theorem runs_to_commandDue {s : State} (hb : s.busy = true) :
    ∃ k ≤ hostWork s.inbox, ∃ t, Runs k s t ∧ SameCommand s t ∧ CommandDue t := by
  induction hm : hostWork s.inbox using Nat.strong_induction_on generalizing s with
  | _ m ih =>
    have now (h : CommandDue s) : ∃ k ≤ m, ∃ t, Runs k s t ∧ SameCommand s t ∧ CommandDue t :=
      ⟨0, Nat.zero_le m, s, Runs.refl s, .refl hb, h⟩
    rcases hostWaits_or_acts s with hw | ⟨ev, rest, hi, harr⟩
    · exact now (.inl hw)
    by_cases hx : ev.access = .rstAssert
    · exact now (.inr ⟨ev, rest, hi, harr, hx⟩)
    have hstep := step_host hi (.inr harr)
    rw [hi] at hm
    obtain ⟨hsame, hwait | hless⟩ := hostTurn_progress rest hb hx
    · have hpos : 0 < m := hm ▸ Nat.zero_lt_of_lt (hostWork_lt_cons ev rest)
      exact ⟨1, hpos, _, Runs.cons hstep (Runs.refl _), hsame, .inl hwait⟩
    · obtain ⟨k, hk, t, hruns, hsame', hdue⟩ := ih _ (hm ▸ hless) hsame.busy rfl
      exact ⟨k + 1, by omega, t, Runs.cons hstep hruns, hsame.trans hsame', hdue⟩

/-- Settles O17. -/
theorem pendingCommandIsExecuted : Obligations.PendingCommandIsExecuted := by
  intro s hb
  obtain ⟨n, hn, t, hruns, ⟨hbusy, hpend, hf, hq, hk, hsec⟩, hdue⟩ := runs_to_commandDue hb
  refine ⟨n, hn, t, hruns, hbusy, hpend, hf, hq, hk, hsec, ?_⟩
  rw [← hpend]
  rcases hdue with hw | ⟨ev, rest, hi, harr, hx⟩
  · exact .inl ⟨hw, fun i hd => stepExecutesPendingCommand t i hbusy hw hd, step_illegal hbusy hw⟩
  · refine .inr ⟨ev, rest, hi, hx, ?_⟩
    rw [step_host hi (.inr harr), hx]
    rfl

end Sys2Proof.Machine
end

section
/-!
PROOFS of the family `41_field.md`, and of SNEW. First the end of a command that computes a field element, and the
outcome of each field command from the values of its sources. Then the statements, each after the arithmetic it needs.
-/

namespace Sys2Proof.Machine

/-! ### The end of a command with a field result (`40_system.md` R91, R94) -/

/-- The end of a command, run from `s`, whose pseudocode ends with `F[rd] <- r`. -/
def State.finishF (s : State) (rd : Reg) (r : Except CmdFault FE) : Result :=
  finish s (r >>= fun w => pure (s.setF rd w))

theorem finishF_error (s : State) (rd : Reg) (e : CmdFault) : s.finishF rd (.error e) = .next (s.faulted e.code) := rfl

/-- A number narrowed to 256 bits is the number of the register. -/
theorem finishF_ofNat (s : State) (rd : Reg) (n : Nat) (p : U256) :
    s.finishF rd (.ok ⟨BitVec.ofNat 256 n, p⟩) = .next (s.endF rd n p) := by
  rw [State.endF, BitVec.ofInt_natCast]
  rfl

theorem finishF_ok (s : State) (rd : Reg) (n p : U256) : s.finishF rd (.ok ⟨n, p⟩) = .next (s.endF rd n.toNat p) := by
  rw [← finishF_ofNat, BitVec.ofNat_toNat, BitVec.setWidth_eq]

theorem finishF_power (s : State) (rd : Reg) (b n m : Nat) (p : U256) :
    s.finishF rd (.ok ⟨BitVec.ofNat 256 (b ^ n % m), p⟩) = .next (s.endF rd ((b : Int) ^ n % m) p) := by
  rw [finishF_ofNat, Int.natCast_emod, Nat.cast_pow]

theorem finishF_residue (s : State) (rd : Reg) (x : Int) {p : U256} (hp : 0 < p.toNat) :
    s.finishF rd (.ok (residue x p)) = .next (s.endF rd (x % p.toNat) p) := by
  rw [residue, finishF_ofNat, Int.toNat_of_nonneg (Int.emod_nonneg _ (by omega))]

/-! ### Each field command, from the values of its sources (R111 to R121) -/

/-- A read of a valid register continues with its value (`40_system.md` R93). -/
theorem readF_bind {α : Type} {s : State} {r : Reg} {u : FE} (h : s.f[r] = some u) (k : FE → Except CmdFault α) :
    s.readF r >>= k = k u := by
  rw [State.readF_some h]
  rfl

theorem exec_fnew (s : State) (rd ra rb : Reg) :
    exec (.fnew rd ra rb) s = s.finishF rd (feNew s.k[ra].toInt s.k[rb].toInt) := rfl

section
variable {s : State} {ra rb : Reg} {u v : FE} (rd : Reg) (hu : s.f[ra] = some u) (hv : s.f[rb] = some v)
include hu

theorem exec_finv : exec (.finv rd ra) s = s.finishF rd (feInv u) := congrArg (finish s) (readF_bind hu _)

theorem exec_fpow (rb : Reg) : exec (.fpow rd ra rb) s = s.finishF rd (fePow u s.k[rb].toInt) :=
  congrArg (finish s) (readF_bind hu _)

theorem exec_fsqrt : exec (.fsqrt rd ra) s = s.finishF rd (feSqrt u) := congrArg (finish s) (readF_bind hu _)

theorem exec_fget : exec (.fget rd ra) s = .next (s.endK rd u.num) := congrArg (finish s) (readF_bind hu _)

theorem exec_fgetp : exec (.fgetp rd ra) s = .next (s.endK rd u.prime) := congrArg (finish s) (readF_bind hu _)

include hv

theorem exec_fadd : exec (.fadd rd ra rb) s = s.finishF rd (feAdd u v) :=
  congrArg (finish s) ((readF_bind hu _).trans (readF_bind hv _))

theorem exec_fsub : exec (.fsub rd ra rb) s = s.finishF rd (feSub u v) :=
  congrArg (finish s) ((readF_bind hu _).trans (readF_bind hv _))

theorem exec_fmul : exec (.fmul rd ra rb) s = s.finishF rd (feMul u v) :=
  congrArg (finish s) ((readF_bind hu _).trans (readF_bind hv _))

theorem exec_fdiv : exec (.fdiv rd ra rb) s = s.finishF rd (feDiv u v) :=
  congrArg (finish s) ((readF_bind hu _).trans (readF_bind hv _))

theorem exec_feq : exec (.feq ra rb) s = .next (s.endT (feEq u v)) :=
  show _ = finish s (.ok (s.setT (feEq u v))) from congrArg (finish s) ((readF_bind hu _).trans (readF_bind hv _))

end

/-- Settles O26. -/
theorem feqFgetFgetpResults : Obligations.FeqFgetFgetpResults := by
  intro s rd ra rb u v hu hv
  refine ⟨?_, exec_fget rd hu, exec_fgetp rd hu⟩
  rw [exec_feq hu hv, feEq, Bool.decide_and, ← beq_eq_decide, ← beq_eq_decide]

/-! ### Construction (R100) -/

theorem ofInt_eq_ofNat_toNat {x : Int} (h : 0 ≤ x) : BitVec.ofInt 256 x = BitVec.ofNat 256 x.toNat := by
  rw [← BitVec.ofInt_natCast, Int.toNat_of_nonneg h]

/-- Settles O19: `fe_new` answers on `[0, p)` and nowhere else. -/
theorem fnewConstructsOrRangeError : Obligations.FnewConstructsOrRangeError := by
  intro s rd ra rb
  rw [exec_fnew]
  constructor
  · intro h0 hlt
    rw [feNew_ok_iff.mpr ⟨⟨h0, hlt⟩, rfl⟩, finishF_ofNat, Int.toNat_of_nonneg h0,
      ofInt_eq_ofNat_toNat (h0.trans hlt.le)]
  · intro h
    rw [feNew_error_iff.mpr ⟨rfl, by omega⟩]
    exact finishF_error s rd _

/-! ### Sum, difference, product (R102, R103, R104) -/

/-- Settles O20. -/
theorem fieldSumDifferenceProduct : Obligations.FieldSumDifferenceProduct := by
  intro s rd ra rb u v hu hv hvalid _
  rw [exec_fadd rd hu hv, exec_fsub rd hu hv, exec_fmul rd hu hv]
  refine ⟨fun hp => ?_, fun hp => ?_⟩
  · rw [feAdd_ok hp, feSub_ok hp, feMul_ok hp]
    exact ⟨finishF_residue s rd _ hvalid.pos, finishF_residue s rd _ hvalid.pos, finishF_residue s rd _ hvalid.pos⟩
  · rw [feAdd_error hp, feSub_error hp, feMul_error hp]
    exact ⟨finishF_error s rd _, finishF_error s rd _, finishF_error s rd _⟩

/-! ### The Fermat inverse and the quotient (R107, R108) -/

theorem ne_one_of_two_le {p : U256} (h : 2 ≤ p.toNat) : p ≠ 1#256 := by
  rintro rfl
  simp at h

theorem fermatPower_zero {v : U256} {p : Nat} (h0 : v = 0#256) (hp : 3 ≤ p) : (v.toNat : Int) ^ (p - 2) % p = 0 := by
  rw [h0, BitVec.toNat_zero, Nat.cast_zero, zero_pow (by omega), Int.zero_emod]

/-- Over 2 the exponent is 0, and `0^0 = 1` (`00_scope.md` R8; log entry 4). -/
theorem fermatPower_zero_two {v : U256} {p : Nat} (h0 : v = 0#256) (hp : p = 2) :
    (v.toNat : Int) ^ (p - 2) % p = 1 := by
  subst h0 hp
  rfl

/-- Settles O22: the formula; its value at zero; over a prime, Fermat's theorem. -/
theorem finvIsFermatInverse : Obligations.FinvIsFermatInverse := by
  intro s rd ra u hu hvalid
  rw [exec_finv rd hu]
  have formula (h1 : u.prime ≠ 1#256) : s.finishF rd (feInv u) =
      .next (s.endF rd ((u.num.toNat : Int) ^ (u.prime.toNat - 2) % u.prime.toNat) u.prime) := by
    rw [feInv_ok h1, finishF_power]
  refine ⟨fun h1 => ?_, formula, fun h0 h3 => ?_, fun h0 h2 => ?_, fun hp h0 => ?_⟩
  · rw [feInv_error h1]
    exact finishF_error s rd _
  · rw [formula (ne_one_of_two_le (by omega)), fermatPower_zero h0 h3]
  · rw [formula (ne_one_of_two_le (by omega)), fermatPower_zero_two h0 h2]
  · obtain ⟨w, hw, hlt, hinv⟩ := feInv_zmod hvalid hp h0
    refine ⟨w.toNat, ?_, hlt, ?_⟩
    · rw [← finishF_ok, hw]
    · rw [mul_comm, ← Nat.mod_eq_of_lt hp.one_lt, ← ZMod.natCast_eq_natCast_iff']
      push_cast
      exact hinv

theorem feDiv_eq_residue {u v : FE} (hu : u.Valid) (hp : u.prime = v.prime) (h1 : u.prime ≠ 1#256) :
    feDiv u v = .ok (residue ((u.num.toNat : Int) * ((v.num.toNat : Int) ^ (u.prime.toNat - 2) % u.prime.toNat))
      u.prime) := by
  obtain ⟨w, hw, -, hdiv⟩ := feDiv_ok hp h1
  rw [feInv_ok (hp ▸ h1), ← hp] at hw
  cases hw
  have hlt := (Nat.mod_lt (v.num.toNat ^ (u.prime.toNat - 2)) hu.pos).trans u.prime.isLt
  rw [hdiv, BitVec.toNat_ofNat, Nat.mod_eq_of_lt hlt, Int.natCast_emod, Nat.cast_pow]

/-- Settles O21: the formula, and its value when the divisor is zero. -/
theorem fdivMultipliesByFermatPower : Obligations.FdivMultipliesByFermatPower := by
  intro s rd ra rb u v hu hv hvalid _
  rw [exec_fdiv rd hu hv]
  have formula (hp : u.prime = v.prime) (h1 : u.prime ≠ 1#256) : s.finishF rd (feDiv u v) = .next (s.endF rd
      (((u.num.toNat : Int) * ((v.num.toNat : Int) ^ (u.prime.toNat - 2) % u.prime.toNat)) % u.prime.toNat)
      u.prime) := by
    rw [feDiv_eq_residue hvalid hp h1, finishF_residue s rd _ hvalid.pos]
  refine ⟨formula, fun hp h1 => ?_, fun hp => ?_, fun hp h0 h3 => ?_, fun hp h0 h2 => ?_⟩
  · rw [feDiv_error_modulus hp (hp ▸ h1)]
    exact finishF_error s rd _
  · rw [feDiv_error_compat hp]
    exact finishF_error s rd _
  · rw [formula hp (ne_one_of_two_le (by omega)), fermatPower_zero h0 h3, mul_zero, Int.zero_emod]
  · have hlt : (u.num.toNat : Int) < u.prime.toNat := Int.ofNat_lt.mpr hvalid
    rw [formula hp (ne_one_of_two_le (by omega)), fermatPower_zero_two h0 h2, mul_one,
      Int.emod_eq_of_lt (Int.natCast_nonneg _) hlt]

/-! ### Powers (R106) -/

/-- Settles O23. -/
theorem fpowNormalisesExponent : Obligations.FpowNormalisesExponent := by
  intro s rd ra rb u hu hvalid
  rw [exec_fpow rd hu]
  refine ⟨fun h1 => ?_, fun h1 => ?_⟩
  · rw [fePow_error _ h1]
    exact finishF_error s rd _
  · have hne : (u.prime.toNat : Int) - 1 ≠ 0 := fun h => h1 (BitVec.eq_of_toNat_eq (by simp; omega))
    refine ⟨(s.k[rb].toInt % ((u.prime.toNat : Int) - 1)).toNat, Int.toNat_of_nonneg (Int.emod_nonneg _ hne), ?_⟩
    rw [fePow_ok _ h1, finishF_power]

/-! ### The square root (R109) -/

/-- Settles O24. -/
theorem fsqrtIsUncheckedPower : Obligations.FsqrtIsUncheckedPower := by
  intro s rd ra u hu _
  rw [exec_fsqrt rd hu]
  refine ⟨fun h => ?_, fun h => ?_⟩
  · rw [feSqrt_error h]
    exact finishF_error s rd _
  · rw [feSqrt_ok h, finishF_power]

theorem isSquare_natCast_zmod_iff {n p : Nat} [NeZero p] (hn : n < p) :
    IsSquare (n : ZMod p) ↔ ∃ y : Nat, y * y % p = n := by
  have key (y : Nat) : (n : ZMod p) = y * y ↔ y * y % p = n := by
    rw [← Nat.cast_mul, ZMod.natCast_eq_natCast_iff', Nat.mod_eq_of_lt hn, eq_comm]
  constructor
  · rintro ⟨z, hz⟩
    exact ⟨z.val, (key _).mp (by rwa [ZMod.natCast_zmod_val])⟩
  · rintro ⟨y, hy⟩
    exact ⟨y, (key y).mpr hy⟩

/-- The square of the power `(p + 1)/4` is `a` times Euler's criterion. -/
theorem sqrtPower_mul_self {p : Nat} (hp : p % 4 = 3) (a : ZMod p) :
    a ^ ((p + 1) / 4) * a ^ ((p + 1) / 4) = a ^ (p / 2) * a := by
  rw [← pow_add, ← pow_succ]
  congr 1
  omega

/-- Over a prime the power `(p + 1)/4` squares to a square, and to the negative of a non-square. -/
theorem sqrtPower_mul_self_cases {p : Nat} [Fact p.Prime] (hp : p % 4 = 3) (a : ZMod p) :
    (IsSquare a → a ^ ((p + 1) / 4) * a ^ ((p + 1) / 4) = a) ∧
    (¬IsSquare a → a ^ ((p + 1) / 4) * a ^ ((p + 1) / 4) = -a) := by
  rw [sqrtPower_mul_self hp]
  by_cases ha : a = 0
  · subst ha
    exact ⟨fun _ => mul_zero _, fun h => absurd IsSquare.zero h⟩
  · rw [ZMod.euler_criterion p ha]
    refine ⟨fun h => by rw [h, one_mul], fun h => ?_⟩
    rw [(ZMod.pow_div_two_eq_neg_one_or_one p ha).resolve_left h, neg_one_mul]

/-- Settles O25: Euler's criterion. -/
theorem fsqrtSquaresToPlusOrMinus : Obligations.FsqrtSquaresToPlusOrMinus := by
  intro s rd ra u hu hvalid hp h4
  have : Fact u.prime.toNat.Prime := ⟨hp⟩
  obtain ⟨hsq, hnsq⟩ := sqrtPower_mul_self_cases h4 (u.num.toNat : ZMod u.prime.toNat)
  rw [isSquare_natCast_zmod_iff hvalid] at hsq hnsq
  refine ⟨u.num.toNat ^ ((u.prime.toNat + 1) / 4) % u.prime.toNat, Nat.mod_lt _ hp.pos, ?_, fun h => ?_, fun h => ?_⟩
  · rw [exec_fsqrt rd hu, feSqrt_ok h4, finishF_ofNat]
  · rw [← Nat.mod_eq_of_lt hvalid, ← ZMod.natCast_eq_natCast_iff']
    simpa using hsq h
  · rw [← Nat.dvd_iff_mod_eq_zero, ← ZMod.natCast_eq_zero_iff]
    simpa [add_eq_zero_iff_eq_neg] using hnsq h

/-! ### Product and quotient together (R123) -/

/-- Over a prime, a product divided by a non-zero factor is the other factor. -/
theorem feDiv_product {u v : FE} (hu : u.Valid) (hv : v.Valid) (hpq : u.prime = v.prime) (hp : u.prime.toNat.Prime)
    (h0 : v.num ≠ 0#256) : feDiv (residue ((u.num.toNat : Int) * v.num.toNat) u.prime) v = .ok u := by
  obtain ⟨a, p⟩ := u
  obtain ⟨b, q⟩ := v
  obtain rfl : p = q := hpq
  have : Fact p.toNat.Prime := ⟨hp⟩
  obtain ⟨m, hdiv, hm, hmul⟩ := feDiv_zmod (u := (residue ((a.toNat : Int) * b.toNat) p).num) hv hp h0
  rw [residue_zmod _ hp.pos, Int.cast_mul, Int.cast_natCast, Int.cast_natCast] at hmul
  have hb : (b.toNat : ZMod p.toNat) ≠ 0 := fun h => h0 ((zmod_eq_iff hv (m := 0#256) hp.pos).mp (by simpa using h))
  obtain rfl : m = a := (zmod_eq_iff hm hu).mp (mul_right_cancel₀ hb hmul)
  exact hdiv

/-- Fermat's theorem for a valid element. -/
theorem FE.Valid.pow_prime_sub_one {v : FE} (hv : v.Valid) (hp : v.prime.toNat.Prime) (h0 : v.num ≠ 0#256) :
    v.num.toNat ^ (v.prime.toNat - 1) % v.prime.toNat = 1 := by
  have hne : v.num.toNat ≠ 0 := fun h => h0 (BitVec.eq_of_toNat_eq (by simpa using h))
  rw [Nat.ModEq.pow_card_sub_one_eq_one hp (Nat.coprime_of_lt_prime hne hv hp).symm, Nat.mod_eq_of_lt hp.one_lt]

/-- Settles O27: FDIV gets the product and `F1`, and answers `F0`; the exponent `prime − 1` is normalised to 0. -/
theorem productDividedGivesBack : Obligations.ProductDividedGivesBack := by
  intro s u v hu hv hu' hv' hpq hp h0
  have hpv : v.prime.toNat.Prime := hpq ▸ hp
  refine ⟨?_, hv'.pow_prime_sub_one hpv h0, fun rd rb hk => ?_⟩
  · let w : FE := residue ((u.num.toNat : Int) * v.num.toNat) u.prime
    let t1 : State := (s.setF 2 w).complete
    let t2 : State := (t1.setF 3 u).complete
    have h12 : t1.f[(2 : Reg)] = some w := s.setF_f_get 2 2 w
    have h11 : t1.f[(1 : Reg)] = some v := (s.setF_f_get 2 1 w).trans hv
    have h23 : t2.f[(3 : Reg)] = some u := t1.setF_f_get 3 3 u
    have h20 : t2.f[(0 : Reg)] = some u := (t1.setF_f_get 3 0 u).trans ((s.setF_f_get 2 0 w).trans hu)
    refine ⟨t1, t2, _, ?_, ?_, exec_feq h23 h20, feEq_iff.mpr rfl⟩
    · rw [exec_fmul 2 hu hv, feMul_ok hpq]
      rfl
    · rw [exec_fdiv 3 h12 h11, feDiv_product hu' hv' hpq hp h0]
      rfl
  · rw [exec_fpow rd hv, fePow_ok _ (ne_one_of_two_le hpv.two_le), hk, Int.emod_self, finishF_ofNat, Int.toNat_zero,
      pow_zero, Nat.mod_eq_of_lt hpv.one_lt]
    rfl

/-! ### SNEW (`43_secp256k1.md` R162, R170) -/

theorem exec_snew (s : State) (rd ra rb : Reg) : exec (.snew rd ra rb) s =
    finish s (secpNew s.k[ra].toInt s.k[rb].toInt >>= fun P => pure (s.setQ rd P)) := rfl

theorem secpNew_rangeError {x y : Int} (h : ¬(0 ≤ x ∧ x < secpP.toNat ∧ 0 ≤ y ∧ y < secpP.toNat)) :
    secpNew x y = .error .rangeError := by
  unfold secpNew
  by_cases hx : 0 ≤ x ∧ x < secpP.toNat
  · rw [feNew_ok_iff.mpr ⟨hx, rfl⟩, feNew_error_iff.mpr ⟨rfl, fun hy => h ⟨hx.1, hx.2, hy⟩⟩]
    rfl
  · rw [feNew_error_iff.mpr ⟨rfl, hx⟩]
    rfl

theorem feNew_ofInt {n : Int} {p : U256} (h0 : 0 ≤ n) (hn : n < p.toNat) :
    feNew n p.toNat = .ok ⟨BitVec.ofInt 256 n, p⟩ := by
  rw [feNew_ok_iff.mpr ⟨⟨h0, hn⟩, rfl⟩, ofInt_eq_ofNat_toNat h0, Int.toNat_natCast, BitVec.ofNat_toNat,
    BitVec.setWidth_eq]

theorem toNat_ofInt_of_lt {n : Int} {p : U256} (h0 : 0 ≤ n) (hn : n < p.toNat) :
    ((BitVec.ofInt 256 n).toNat : Int) = n := by
  have := p.isLt
  rw [ofInt_eq_ofNat_toNat h0, BitVec.toNat_ofNat, Nat.mod_eq_of_lt (by omega), Int.toNat_of_nonneg h0]

/-- `ptNew_eq` for integer coordinates in range, the curve equation in integers. -/
theorem ptNew_ofInt {x y : Int} {a b p : U256} (hx0 : 0 ≤ x) (hx : x < p.toNat) (hy0 : 0 ≤ y) (hy : y < p.toNat) :
    ptNew ⟨BitVec.ofInt 256 x, p⟩ ⟨BitVec.ofInt 256 y, p⟩ ⟨a, p⟩ ⟨b, p⟩ =
      if y * y % p.toNat = (x * x * x + a.toNat * x + b.toNat) % p.toNat
      then .ok ⟨.affine (BitVec.ofInt 256 x) (BitVec.ofInt 256 y), a, b, p⟩ else .error .invalidPoint := by
  have hcurve : OnCurve (BitVec.ofInt 256 x).toNat (BitVec.ofInt 256 y).toNat a.toNat b.toNat p.toNat ↔
      y * y % p.toNat = (x * x * x + a.toNat * x + b.toNat) % p.toNat := by
    rw [OnCurve, ← Int.natCast_inj]
    push_cast
    rw [toNat_ofInt_of_lt hx0 hx, toNat_ofInt_of_lt hy0 hy]
  rw [ptNew_eq (by omega)]
  simp only [hcurve]

/-- On coordinates in range `secp_new` is the check of the curve equation (R130, R162). -/
theorem secpNew_eq {x y : Int} (hx0 : 0 ≤ x) (hx : x < secpP.toNat) (hy0 : 0 ≤ y) (hy : y < secpP.toNat) :
    secpNew x y = if y * y % secpP.toNat = (x * x * x + 7) % secpP.toNat
      then .ok ⟨.affine (BitVec.ofInt 256 x) (BitVec.ofInt 256 y), 0#256, 7#256, secpP⟩
      else .error .invalidPoint := by
  have h := ptNew_ofInt (a := 0#256) (b := 7#256) hx0 hx hy0 hy
  rw [show ((0#256).toNat : Int) * x = 0 from zero_mul x, add_zero] at h
  unfold secpNew
  rw [feNew_ofInt hx0 hx, feNew_ofInt hy0 hy]
  exact h

/-- Settles O42. -/
theorem snewConstructsPoint : Obligations.SnewConstructsPoint := by
  rintro s rd ra rb x y rfl rfl
  rw [exec_snew]
  refine ⟨fun h => ?_, fun hx0 hx hy0 hy h => ?_, fun hx0 hx hy0 hy h => ?_⟩
  · rw [secpNew_rangeError h]
    rfl
  · rw [secpNew_eq hx0 hx hy0 hy, if_neg h]
    rfl
  · rw [secpNew_eq hx0 hx hy0 hy, if_pos h]
    rfl

end Sys2Proof.Machine
end

section
/-!
PROOFS of the family `42_point.md`, and of SMUL. First the end of a command that computes a point, and the outcome of
each point command from the values of its sources. Then the arithmetic of the chord and the tangent on residues, which
ties `pt_add` and `pt_mul` to the group law in integers; then the same sums in Mathlib's group of the curve.
-/

namespace Sys2Proof.Machine

/-! ### The end of a command with a point result (`40_system.md` R91, R94) -/

/-- The end of a command, run from `s`, whose pseudocode ends with `Q[rd] <- r`. -/
def State.finishQ (s : State) (rd : Reg) (r : Except CmdFault Pt) : Result :=
  finish s (r >>= fun p => pure (s.setQ rd p))

theorem finishQ_ok (s : State) (rd : Reg) (p : Pt) : s.finishQ rd (.ok p) = .next (s.endQ rd p) := rfl

theorem finishQ_error (s : State) (rd : Reg) (e : CmdFault) : s.finishQ rd (.error e) = .next (s.faulted e.code) := rfl

/-- The outcome of a point function with the code of its fault, as `endPoint` takes it. -/
def codedPoint (r : Except CmdFault Pt) : Except (BitVec 8) Pt := r.mapError CmdFault.code

theorem finishQ_eq_endPoint (s : State) (rd : Reg) (r : Except CmdFault Pt) :
    s.finishQ rd r = .next (s.endPoint rd (codedPoint r)) := by
  cases r with
  | error e => rfl
  | ok p => rfl

/-! ### Each point command, from the values of its sources (R137 to R147, `43_secp256k1.md` R171) -/

/-- A read of a valid register continues with its value (`40_system.md` R93). -/
theorem readQ_bind {α : Type} {s : State} {r : Reg} {p : Pt} (h : s.q[r] = some p) (k : Pt → Except CmdFault α) :
    s.readQ r >>= k = k p := by
  rw [State.readQ_some h]
  rfl

theorem exec_pnew {s : State} {ra rb rc re : Reg} {x y a b : FE} (rd : Reg) (hx : s.f[ra] = some x)
    (hy : s.f[rb] = some y) (ha : s.f[rc] = some a) (hb : s.f[re] = some b) :
    exec (.pnew rd ra rb rc re) s = s.finishQ rd (ptNew x y a b) :=
  congrArg (finish s) <|
    (readF_bind hx _).trans <| (readF_bind hy _).trans <| (readF_bind ha _).trans (readF_bind hb _)

theorem exec_pinf {s : State} {rc re : Reg} {a b : FE} (rd : Reg) (ha : s.f[rc] = some a) (hb : s.f[re] = some b) :
    exec (.pinf rd rc re) s = s.finishQ rd (ptInf a b) :=
  congrArg (finish s) ((readF_bind ha _).trans (readF_bind hb _))

section
variable {s : State} {ra rb : Reg} {P R : Pt} (rd : Reg) (hP : s.q[ra] = some P) (hR : s.q[rb] = some R)
include hP

theorem exec_pdbl : exec (.pdbl rd ra) s = s.finishQ rd (ptAdd P P) := congrArg (finish s) (readQ_bind hP _)

theorem exec_pmul (rb : Reg) : exec (.pmul rd ra rb) s = s.finishQ rd (ptMul P s.k[rb].toInt) :=
  congrArg (finish s) (readQ_bind hP _)

theorem exec_smul (rb : Reg) :
    exec (.smul rd ra rb) s = s.finishQ rd (requireSecp P >>= fun _ => secpMul P s.k[rb].toInt) :=
  congrArg (finish s) ((readQ_bind hP _).trans (bind_assoc _ _ _).symm)

theorem exec_pisinf : exec (.pisinf ra) s = .next (s.endT P.isIdentity) := congrArg (finish s) (readQ_bind hP _)

theorem exec_pgeta : exec (.pgeta rd ra) s = s.finishF rd (.ok P.aFE) := congrArg (finish s) (readQ_bind hP _)

theorem exec_pgetb : exec (.pgetb rd ra) s = s.finishF rd (.ok P.bFE) := congrArg (finish s) (readQ_bind hP _)

theorem exec_pgetx : exec (.pgetx rd ra) s = s.finishF rd (Prod.fst <$> P.affineCoords) :=
  congrArg (finish s) ((readQ_bind hP _).trans (by rw [bind_map_left]))

theorem exec_pgety : exec (.pgety rd ra) s = s.finishF rd (Prod.snd <$> P.affineCoords) :=
  congrArg (finish s) ((readQ_bind hP _).trans (by rw [bind_map_left]))

include hR

theorem exec_padd : exec (.padd rd ra rb) s = s.finishQ rd (ptAdd P R) :=
  congrArg (finish s) ((readQ_bind hP _).trans (readQ_bind hR _))

theorem exec_peq : exec (.peq ra rb) s = .next (s.endT (ptEq P R)) :=
  show _ = finish s (.ok (s.setT (ptEq P R))) from
    congrArg (finish s) ((readQ_bind hP _).trans (readQ_bind hR _))

end

/-! ### Construction (R130, R131) -/

/-- Over one prime PNEW is the check of the curve equation. -/
theorem exec_pnew_of_pos {s : State} {ra rb rc re : Reg} {x y a b p : U256} (rd : Reg) (hx : s.f[ra] = some ⟨x, p⟩)
    (hy : s.f[rb] = some ⟨y, p⟩) (ha : s.f[rc] = some ⟨a, p⟩) (hb : s.f[re] = some ⟨b, p⟩) (hp : 0 < p.toNat) :
    exec (.pnew rd ra rb rc re) s = .next
      (if OnCurve x.toNat y.toNat a.toNat b.toNat p.toNat then s.endQ rd ⟨.affine x y, a, b, p⟩
        else s.faulted 0x04#8) := by
  rw [exec_pnew rd hx hy ha hb, ptNew_eq hp]
  split
  · exact finishQ_ok s rd _
  · exact finishQ_error s rd _

/-- Settles O28. -/
theorem pnewValidatesPoint : Obligations.PnewValidatesPoint := by
  rintro s rd ra rb rc re ⟨x, p⟩ ⟨y, py⟩ ⟨a, pa⟩ ⟨b, pb⟩ hx hy ha hb hvalid
  constructor
  · intro hne
    rw [exec_pnew rd hx hy ha hb, ptNew_incompatible hne]
    exact finishQ_error s rd _
  · rintro ⟨⟩ ⟨⟩ ⟨⟩
    exact exec_pnew_of_pos rd hx hy ha hb hvalid.pos

/-- Settles O29. -/
theorem pnewCompletesOnCurve : Obligations.PnewCompletesOnCurve := by
  intro s rd ra rb rc re x y a b p hx hy ha hb hp hcurve
  rw [exec_pnew_of_pos rd hx hy ha hb hp, if_pos hcurve]

theorem ptInf_ok {a b : FE} (h : a.prime = b.prime) : ptInf a b = .ok ⟨.identity, a.num, b.num, a.prime⟩ := by
  rw [ptInf, feCompat_ok h]
  rfl

theorem ptInf_error {a b : FE} (h : a.prime ≠ b.prime) : ptInf a b = .error .incompatibleField := by
  rw [ptInf, feCompat_error h]
  rfl

/-- Settles O30. -/
theorem pinfMakesIdentity : Obligations.PinfMakesIdentity := by
  intro s rd rc re a b ha hb
  rw [exec_pinf rd ha hb]
  refine ⟨fun h => ?_, fun h => ?_⟩
  · rw [ptInf_ok h, finishQ_ok]
  · rw [ptInf_error h]
    exact finishQ_error s rd _

/-! ### Tests and parts (R136, R142 to R147) -/

theorem ptEq_eq_decide (P R : Pt) : ptEq P R = decide (P = R) := by
  obtain ⟨c, a, b, p⟩ := P
  obtain ⟨d, a', b', p'⟩ := R
  rw [Bool.eq_iff_iff, decide_eq_true_iff, ptEq, Bool.and_eq_true, sameCurve_iff, Pt.mk.injEq]
  cases c with
  | identity =>
    cases d with
    | identity => simp
    | affine x' y' => simp
  | affine x y =>
    cases d with
    | identity => simp
    | affine x' y' =>
      simp only [Pt.coordFE, Bool.and_eq_true, feEq_iff, FE.mk.injEq, Coords.affine.injEq]
      tauto

theorem isIdentity_eq_decide (P : Pt) : P.isIdentity = decide (P.coords = .identity) := by
  unfold Pt.isIdentity
  cases P.coords with
  | identity => rfl
  | affine x y => rfl

/-- Settles O39. -/
theorem peqPisinfResults : Obligations.PeqPisinfResults := by
  intro s ra rb P R hP hR
  rw [exec_peq hP hR, exec_pisinf hP, ptEq_eq_decide, isIdentity_eq_decide]
  exact ⟨rfl, rfl⟩

theorem affineCoords_affine {P : Pt} {x y : U256} (h : P.coords = .affine x y) :
    P.affineCoords = .ok (P.coordFE x, P.coordFE y) := by
  rw [Pt.affineCoords, h]

theorem affineCoords_identity {P : Pt} (h : P.coords = .identity) : P.affineCoords = .error .identityCoordinate := by
  rw [Pt.affineCoords, h]

/-- Settles O40. -/
theorem pointPartsReadOut : Obligations.PointPartsReadOut := by
  intro s rd ra P hP
  rw [exec_pgeta rd hP, exec_pgetb rd hP, exec_pgetx rd hP, exec_pgety rd hP]
  refine ⟨rfl, rfl, fun x y h => ?_, fun h => ?_⟩
  · rw [affineCoords_affine h]
    exact ⟨rfl, rfl⟩
  · rw [affineCoords_identity h]
    exact ⟨finishF_error s rd _, finishF_error s rd _⟩

/-! ### Field functions on residues -/

section
variable {p : U256} (hp : 0 < p.toNat) (x y : Int)
include hp

theorem residue_congr {x y : Int} (h : (x : ZMod p.toNat) = y) : residue x p = residue y p :=
  (residue_eq_iff hp).mpr ((ZMod.intCast_eq_intCast_iff' x y p.toNat).mp h)

theorem feAdd_residue : feAdd (residue x p) (residue y p) = .ok (residue (x + y) p) := by
  rw [feAdd_ok (by rfl), residue_prime, residue_congr hp]
  simp only [Int.cast_add, Int.cast_natCast, residue_zmod _ hp]

theorem feSub_residue : feSub (residue x p) (residue y p) = .ok (residue (x - y) p) := by
  rw [feSub_ok (by rfl), residue_prime, residue_congr hp]
  simp only [Int.cast_sub, Int.cast_natCast, residue_zmod _ hp]

theorem feMul_residue : feMul (residue x p) (residue y p) = .ok (residue (x * y) p) := by
  rw [feMul_ok (by rfl), residue_prime, residue_congr hp]
  simp only [Int.cast_mul, Int.cast_natCast, residue_zmod _ hp]

theorem feScale_residue (c : Nat) : feScale c (residue x p) = residue (c * x) p :=
  residue_congr hp (by push_cast; rw [residue_zmod x hp])

theorem feDiv_residue (h1 : p ≠ 1#256) :
    feDiv (residue x p) (residue y p) = .ok (residue (fermatQuotient x y p.toNat) p) := by
  rw [feDiv_eq_residue (residue_valid x hp) (by rfl) h1, residue_prime, residue_congr hp]
  simp only [fermatQuotient, Int.cast_mul, ZMod.intCast_mod, Int.cast_pow, Int.cast_natCast,
    residue_zmod _ hp]

/-! ### The chord and the tangent on residues (R132) -/

/-- Both end in the validating constructor, with the third point on the line of slope `m`. -/
theorem ptChord_residue (h1 : p ≠ 1#256) (x1 y1 x2 y2 : Int) (a b : FE) {m : Int}
    (hm : m = fermatQuotient (y2 - y1) (x2 - x1) p.toNat) :
    ptChord (residue x1 p) (residue y1 p) (residue x2 p) (residue y2 p) a b =
      ptNew (residue (m * m - x1 - x2) p) (residue (m * (x1 - (m * m - x1 - x2)) - y1) p) a b := by
  simp only [ptChord, feSub_residue hp, feMul_residue hp, feDiv_residue hp _ _ h1, ← hm, bind, Except.bind]

theorem ptTangent_residue (h1 : p ≠ 1#256) (x1 y1 a : Int) (b : FE) {m : Int}
    (hm : m = fermatQuotient (3 * (x1 * x1) + a) (2 * y1) p.toNat) :
    ptTangent (residue x1 p) (residue y1 p) (residue a p) b =
      ptNew (residue (m * m - x1 - x1) p) (residue (m * (x1 - (m * m - x1 - x1)) - y1) p) (residue a p) b := by
  have hm' : fermatQuotient (((3 : Nat) : Int) * (x1 * x1) + a) (((2 : Nat) : Int) * y1) p.toNat = m := hm.symm
  have h2 : m * m - ((2 : Nat) : Int) * x1 = m * m - x1 - x1 := by push_cast; ring
  simp only [ptTangent, feScale_residue hp, feAdd_residue hp, feSub_residue hp, feMul_residue hp,
    feDiv_residue hp _ _ h1, hm', h2, bind, Except.bind]

end

/-! ### PADD and PDBL are the group law in integers (R132, R134) -/

theorem residue_eq_ofInt (x : Int) {p : U256} (hp : 0 < p.toNat) :
    residue x p = ⟨BitVec.ofInt 256 (x % p.toNat), p⟩ := by
  rw [ofInt_eq_ofNat_toNat (Int.emod_nonneg _ (by omega))]
  rfl

/-- The validating constructor at the third point of the line of slope `m`. -/
theorem ptNew_thirdPoint {P : Pt} (hp : 0 < P.prime.toNat) (x1 y1 x2 m : Int) :
    codedPoint (ptNew (residue (m * m - x1 - x2) P.prime) (residue (m * (x1 - (m * m - x1 - x2)) - y1) P.prime)
      P.aFE P.bFE) = thirdPoint P x1 y1 x2 m := by
  have hp' : (P.prime.toNat : Int) ≠ 0 := by omega
  have hlt (x : Int) : x % (P.prime.toNat : Int) < P.prime.toNat := Int.emod_lt_of_pos x (by omega)
  have hy : residue (m * (x1 - (m * m - x1 - x2)) - y1) P.prime =
      residue (m * (x1 - (m * m - x1 - x2) % P.prime.toNat) - y1) P.prime :=
    residue_congr hp (by push_cast; rfl)
  rw [hy, residue_eq_ofInt _ hp, residue_eq_ofInt _ hp, Pt.aFE, Pt.bFE,
    ptNew_ofInt (Int.emod_nonneg _ hp') (hlt _) (Int.emod_nonneg _ hp') (hlt _)]
  unfold thirdPoint
  dsimp only
  split <;> rfl

theorem groupLaw_incompatible {P R : Pt} (h : ¬SameCurve P R) : groupLaw P R = .error 0x03#8 := if_pos h

theorem groupLaw_identity_left {P R : Pt} (h : SameCurve P R) (hP : P.coords = .identity) : groupLaw P R = .ok R := by
  rw [groupLaw, if_neg (not_not.mpr h), hP]

theorem groupLaw_identity_right {P R : Pt} (h : SameCurve P R) (hP : P.coords ≠ .identity)
    (hR : R.coords = .identity) : groupLaw P R = .ok P := by
  rw [groupLaw, if_neg (not_not.mpr h), hR]
  cases hc : P.coords with
  | identity => exact absurd hc hP
  | affine x y => rfl

theorem groupLaw_affine {P R : Pt} {x1 y1 x2 y2 : U256} (h : SameCurve P R) (hP : P.coords = .affine x1 y1)
    (hR : R.coords = .affine x2 y2) : groupLaw P R =
      if x1 = x2 ∧ y1 ≠ y2 then .ok (ptIdentityOf P)
      else if x1 ≠ x2 then thirdPoint P x1.toNat y1.toNat x2.toNat
        (fermatQuotient ((y2.toNat : Int) - y1.toNat) ((x2.toNat : Int) - x1.toNat) P.prime.toNat)
      else if y1 = 0#256 then .ok (ptIdentityOf P)
      else thirdPoint P x1.toNat y1.toNat x1.toNat
        (fermatQuotient (3 * ((x1.toNat : Int) * x1.toNat) + P.a.toNat) (2 * (y1.toNat : Int)) P.prime.toNat) := by
  have h0 : (y1.toNat : Int) = 0 ↔ y1 = 0#256 := by rw [Int.natCast_eq_zero, BitVec.toNat_eq]; rfl
  rw [groupLaw, if_neg (not_not.mpr h), hP, hR]
  simp only [ne_eq, Int.natCast_inj, BitVec.toNat_inj, h0]
  rfl

/-- Below 1 there are no two numbers. -/
theorem ne_one_of_ne {p x y : U256} (hx : x.toNat < p.toNat) (hy : y.toNat < p.toNat) (hne : x ≠ y) : p ≠ 1#256 := by
  rintro rfl
  exact hne (BitVec.eq_of_toNat_eq ((Nat.lt_one_iff.mp hx).trans (Nat.lt_one_iff.mp hy).symm))

/-- The group law of the commands is the group law in integers, over any modulus. -/
theorem codedPoint_ptAdd {P R : Pt} (hP : P.Valid) (hR : R.Valid) : codedPoint (ptAdd P R) = groupLaw P R := by
  by_cases h : SameCurve P R
  · rcases ptAdd_cases h with ⟨hPc, e⟩ | ⟨hPc, hRc, e⟩ | ⟨x1, y1, x2, y2, hPc, hRc, hcase⟩
    · rw [e, groupLaw_identity_left h hPc]
      rfl
    · rw [e, groupLaw_identity_right h hPc hRc]
      rfl
    · obtain ⟨ha, -, hcP⟩ := hP
      obtain ⟨-, -, hcR⟩ := hR
      rw [hPc] at hcP
      rw [hRc, ← h.2.2] at hcR
      obtain ⟨hx1, hy1, -⟩ := hcP
      obtain ⟨hx2, hy2, -⟩ := hcR
      have hpos : 0 < P.prime.toNat := by omega
      rw [groupLaw_affine h hPc hRc]
      rcases hcase with ⟨hx, hy, e⟩ | ⟨hx, e⟩ | ⟨hx, hy, h0, e⟩ | ⟨hx, hy, h0, e⟩
      · rw [e, if_pos ⟨hx, hy⟩]
        rfl
      · have h1 := ne_one_of_ne hx1 hx2 hx
        rw [e, if_neg (fun h => hx h.1), if_pos hx, ← residue_self hx1, ← residue_self hy1, ← residue_self hx2,
          ← residue_self hy2, ptChord_residue hpos h1 _ _ _ _ _ _ rfl, ptNew_thirdPoint hpos]
      · rw [e, if_neg (fun h => h.2 hy), if_neg (not_not.mpr hx), if_pos h0]
        rfl
      · have h1 := ne_one_of_ne (y := 0#256) hy1 hpos h0
        rw [e, if_neg (fun h => h.2 hy), if_neg (not_not.mpr hx), if_neg h0, ← residue_self hx1, ← residue_self hy1,
          Pt.aFE, ← residue_self ha, ptTangent_residue hpos h1 _ _ _ _ rfl, residue_self ha]
        exact ptNew_thirdPoint hpos _ _ _ _
  · rw [ptAdd_incompatible h, groupLaw_incompatible h]
    rfl

/-- Settles O31. -/
theorem paddFollowsGroupLaw : Obligations.PaddFollowsGroupLaw := by
  intro s rd ra rb P R hP hR hvP hvR
  rw [exec_padd rd hP hR, finishQ_eq_endPoint, codedPoint_ptAdd hvP hvR]

/-- Settles O32. -/
theorem pdblAddsPointToItself : Obligations.PdblAddsPointToItself := by
  intro s rd ra P hP hv
  have hlaw : exec (.pdbl rd ra) s = .next (s.endPoint rd (groupLaw P P)) := by
    rw [exec_pdbl rd hP, finishQ_eq_endPoint, codedPoint_ptAdd hv hv]
  refine ⟨hlaw, fun hc => ?_, fun x hc => ?_⟩
  · rw [hlaw, groupLaw_identity_left ⟨rfl, rfl, rfl⟩ hc]
    rfl
  · rw [hlaw, groupLaw_affine ⟨rfl, rfl, rfl⟩ hc hc, if_neg (fun h => h.2 rfl), if_neg (not_not.mpr rfl), if_pos rfl]
    rfl

/-! ### PMUL is double-and-add over the bits of the scalar (R135) -/

theorem bits_of_ne_zero {k : Nat} (h : k ≠ 0) : k.bits = decide (k % 2 = 1) :: (k / 2).bits := by
  rcases Nat.even_or_odd' k with ⟨c, rfl | rfl⟩
  · rw [Nat.bit0_bits c (by omega), Nat.mul_mod_right, Nat.mul_div_cancel_left c two_pos]
    rfl
  · rw [Nat.bit1_bits, show (2 * c + 1) % 2 = 1 by omega, show (2 * c + 1) / 2 = c by omega]
    rfl

/-- A pass of the loop: the bit's sum, then the doubling. -/
theorem doubleAndAddBit_eq {res cur : Pt} (hr : res.Valid) (hc : cur.Valid) (k : Nat) :
    doubleAndAddBit (res, cur) (decide (k % 2 = 1)) =
      (codedPoint (ptMulBit res cur k) >>= fun r => codedPoint (ptAdd cur cur) >>= fun c => pure (r, c)) := by
  rw [codedPoint_ptAdd hc hc]
  unfold doubleAndAddBit ptMulBit
  by_cases hk : k % 2 = 1
  · simp only [hk, decide_true, if_true, codedPoint_ptAdd hr hc]
  · simp only [hk, decide_false, Bool.false_eq_true, if_false]
    rfl

/-- The loop, with fuel for the bits of the scalar, from any valid result and summand. -/
theorem codedPoint_ptMulLoop {fuel k : Nat} {res cur : Pt} (hk : k < 2 ^ fuel) (hr : res.Valid) (hc : cur.Valid) :
    codedPoint (ptMulLoop fuel res cur k) = (k.bits.foldlM doubleAndAddBit (res, cur) >>= fun rc => pure rc.1) := by
  induction fuel generalizing res cur k with
  | zero =>
    obtain rfl : k = 0 := by omega
    rw [Nat.zero_bits]
    rfl
  | succ fuel ih =>
    rw [ptMulLoop]
    split
    · next h0 =>
      rw [h0, Nat.zero_bits]
      rfl
    · next h0 =>
      rw [bits_of_ne_zero h0, List.foldlM_cons, doubleAndAddBit_eq hr hc]
      cases hr' : ptMulBit res cur k with
      | error e => rfl
      | ok r' =>
        cases hc' : ptAdd cur cur with
        | error e => rfl
        | ok c' =>
          exact ih (k := k / 2) (by rw [pow_succ] at hk; omega) (ptMulBit_valid hr hc hr').1 (ptAdd_valid hc hc hc').1

theorem ptMul_neg {P : Pt} {k : Int} (h : k < 0) : ptMul P k = .error .invalidArgument := if_pos h

theorem ptMul_zero (P : Pt) : ptMul P 0 = .ok (ptIdentityOf P) := rfl

theorem ptMul_one (P : Pt) : ptMul P 1 = .ok P := rfl

/-- The scalar multiple of the commands is double-and-add with the group law in integers. -/
theorem codedPoint_ptMul {P : Pt} (hP : P.Valid) (k : Int) : codedPoint (ptMul P k) = scalarMultiple P k := by
  unfold ptMul scalarMultiple
  split
  · rfl
  · split
    · rfl
    · exact codedPoint_ptMulLoop Nat.lt_log2_self (ptIdentityOf_valid hP) hP

/-- Settles O33. -/
theorem pmulIsDoubleAndAdd : Obligations.PmulIsDoubleAndAdd := by
  intro s rd ra rb P hP hv
  rw [exec_pmul rd hP]
  refine ⟨?_, fun hk => ?_, fun hk => ?_, fun hk => ?_⟩
  · rw [finishQ_eq_endPoint, codedPoint_ptMul hv]
  · rw [ptMul_neg hk]
    exact finishQ_error s rd _
  · rw [hk, ptMul_zero]
    exact finishQ_ok s rd _
  · rw [hk, ptMul_one, finishQ_ok]

/-! ### Over odd primes the sums complete (R132, R149, R221) -/

/-- A point command that answers a valid point of a curve completes with it. -/
theorem finishQ_completes {s : State} {rd : Reg} {P : Pt} {r : Except CmdFault Pt} (hok : ∃ S, r = .ok S)
    (hvalid : ∀ {S}, r = .ok S → S.Valid ∧ SameCurve P S) :
    ∃ S, s.finishQ rd r = .next (s.endQ rd S) ∧ S.Valid ∧ S.a = P.a ∧ S.b = P.b ∧ S.prime = P.prime := by
  obtain ⟨S, hS⟩ := hok
  obtain ⟨hv, ha, hb, hp⟩ := hvalid hS
  exact ⟨S, by rw [hS, finishQ_ok], hv, ha.symm, hb.symm, hp.symm⟩

/-- Settles O34. -/
theorem pointArithmeticCompletesOverOddPrimes : Obligations.PointArithmeticCompletesOverOddPrimes := by
  intro s rd ra rb P R hP hv hp h2
  rw [exec_pdbl rd hP, exec_pmul rd hP]
  refine ⟨fun hR hvR ha hb hpr => ?_, ?_, fun hk => ?_⟩
  · rw [exec_padd rd hP hR]
    exact finishQ_completes (ptAdd_ok hv hvR ⟨ha, hb, hpr⟩ hp h2) (ptAdd_valid hv hvR)
  · exact finishQ_completes (ptAdd_ok hv hv ⟨rfl, rfl, rfl⟩ hp h2) (ptAdd_valid hv hv)
  · exact finishQ_completes (ptMul_ok hv hk hp h2) (ptMul_valid hv)

/-- The point `(0, 1)` of `y² = x³ + x + 1` over 2. -/
def doublesOffCurve : Pt := ⟨.affine 0#256 1#256, 1#256, 1#256, 2#256⟩

theorem doublesOffCurve_valid : doublesOffCurve.Valid :=
  ⟨by decide, by decide, by decide, by decide, by decide⟩

/-- The slope `1/0` over 2 is `1 · 0^0 = 1`, and the third point `(1, 0)` is off the curve. -/
theorem ptAdd_doublesOffCurve : ptAdd doublesOffCurve doublesOffCurve = .error .invalidPoint := by decide +kernel

/-- Refutes O35: over prime 2 doubling the point `(0, 1)` of `y² = x³ + x + 1` records `InvalidPoint`. -/
theorem not_doublingNeverInvalidOverAnyPrime : ¬ Obligations.DoublingNeverInvalidOverAnyPrime := by
  intro h
  let s : State := State.reset.setQ 0 doublesOffCurve
  have hq : s.q[(0 : Reg)] = some doublesOffCurve := State.reset.setQ_q_get 0 0 doublesOffCurve
  refine h s 1 0 doublesOffCurve hq doublesOffCurve_valid Nat.prime_two ?_
  rw [exec_pdbl 1 hq, ptAdd_doublesOffCurve]
  exact finishQ_error s 1 _

/-! ### The identity and the negated point (R148) -/

theorem SameCurve.eq_of_coords {P R : Pt} (h : SameCurve P R) (hc : P.coords = R.coords) : P = R := by
  obtain ⟨c, a, b, p⟩ := P
  obtain ⟨d, a', b', p'⟩ := R
  obtain ⟨rfl, rfl, rfl⟩ := h
  obtain rfl : c = d := hc
  rfl

/-- Modulo an odd number only 0 is its own negative. -/
theorem eq_zero_of_eq_neg_emod {y p : Nat} (hodd : p % 2 = 1) (hy : y < p) (h : (y : Int) = -(y : Int) % p) :
    y = 0 := by
  by_contra h0
  have hneg : -(y : Int) % p = p - y := by
    rw [← Int.add_emod_right, Int.emod_eq_of_lt (by omega) (by omega)]
    ring
  omega

/-- Settles O38. -/
theorem identityAndNegatedPoint : Obligations.IdentityAndNegatedPoint := by
  intro s rd ra rb P R hP hR hvP hvR ha hb hp
  have h : SameCurve P R := ⟨ha.symm, hb.symm, hp.symm⟩
  rw [exec_padd rd hP hR, finishQ_eq_endPoint, codedPoint_ptAdd hvP hvR]
  refine ⟨fun hRc => ?_, fun x y y' hodd hPc hRc hy' => ?_⟩
  · by_cases hPc : P.coords = .identity
    · obtain rfl : P = R := h.eq_of_coords (hPc.trans hRc.symm)
      rw [groupLaw_identity_left h hPc]
      rfl
    · rw [groupLaw_identity_right h hPc hRc]
      rfl
  · obtain ⟨-, -, hc⟩ := hvP
    rw [hPc] at hc
    obtain ⟨-, hy, -⟩ := hc
    rw [groupLaw_affine h hPc hRc]
    by_cases hyy : y = y'
    · have h0 : y = 0#256 := BitVec.eq_of_toNat_eq (eq_zero_of_eq_neg_emod hodd hy (hyy ▸ hy'))
      rw [if_neg (fun h => h.2 hyy), if_neg (not_not.mpr rfl), if_pos h0]
      rfl
    · rw [if_pos ⟨rfl, hyy⟩]
      rfl

/-! ### SMUL (`43_secp256k1.md` R163, R171) -/

theorem requireSecp_error {P : Pt} (h : ¬(P.a = 0#256 ∧ P.b = 7#256 ∧ P.prime = secpP)) :
    requireSecp P = .error .incompatibleCurve :=
  if_neg fun hs => h ((sameCurve_iff (R := secpG)).mp hs)

theorem requireSecp_ok {P : Pt} (h : P.a = 0#256 ∧ P.b = 7#256 ∧ P.prime = secpP) : requireSecp P = .ok () :=
  if_pos ((sameCurve_iff (R := secpG)).mpr h)

/-- Settles O43: the field prime of secp256k1 is an odd prime, so no sum on the way faults. -/
theorem smulReducesScalarAndCompletes : Obligations.SmulReducesScalarAndCompletes := by
  intro s rd ra rb P hP hv
  rw [exec_smul rd hP]
  refine ⟨fun h => ?_, fun ha hb hp => ?_⟩
  · rw [requireSecp_error h]
    exact finishQ_error s rd _
  · have hprime : P.prime.toNat.Prime := hp ▸ secpP_prime
    have h2 : P.prime.toNat ≠ 2 := by rw [hp]; decide
    obtain ⟨S, hS⟩ := ptMul_ok hv (k := s.k[rb].toInt % secpN.toNat) (Int.emod_nonneg _ (by decide)) hprime h2
    obtain ⟨hvS, ha', hb', hp'⟩ := ptMul_valid hv hS
    refine ⟨S, ?_, ?_, hvS, ha'.symm.trans ha, hb'.symm.trans hb, hp'.symm.trans hp⟩
    · rw [requireSecp_ok ⟨ha, hb, hp⟩, ← finishQ_ok, ← hS]
      rfl
    · rw [← codedPoint_ptMul hv, hS]
      rfl

/-! ### Sums in Mathlib's group of the curve, over an odd prime (R132, R135) -/

section
variable {p a b : U256}

theorem represents_identity_iff {X : (curve p a b).Point} : Represents p a b .identity X ↔ X = 0 := by
  refine ⟨?_, fun h => .inl ⟨rfl, h⟩⟩
  rintro (⟨-, h⟩ | ⟨x, y, h, ⟨⟩, -⟩)
  exact h

theorem represents_affine_iff {x y : U256} {X : (curve p a b).Point} : Represents p a b (.affine x y) X ↔
    ∃ h, X = .some (x.toNat : ZMod p.toNat) (y.toNat : ZMod p.toNat) h := by
  refine ⟨?_, fun ⟨h, hX⟩ => .inr ⟨x, y, h, rfl, hX⟩⟩
  rintro (⟨⟨⟩, -⟩ | ⟨_, _, h, ⟨⟩, hX⟩)
  exact ⟨h, hX⟩

theorem represents_some {x y : U256} {x' y' : ZMod p.toNat} {h : (curve p a b).Nonsingular x' y'}
    (hx : (x.toNat : ZMod p.toNat) = x') (hy : (y.toNat : ZMod p.toNat) = y') :
    Represents p a b (.affine x y) (.some x' y' h) := by
  subst hx hy
  exact represents_affine_iff.mpr ⟨h, rfl⟩

/-! Mathlib's formulas on this curve, whose other coefficients are 0. -/

theorem negY_curve (x y : ZMod p.toNat) : (curve p a b).negY x y = -y := by
  simp [WeierstrassCurve.Affine.negY]

theorem addX_curve (x1 x2 m : ZMod p.toNat) : (curve p a b).addX x1 x2 m = m * m - x1 - x2 := by
  simp [WeierstrassCurve.Affine.addX, pow_two]

theorem addY_curve (x1 x2 y1 m : ZMod p.toNat) :
    (curve p a b).addY x1 x2 y1 m = m * (x1 - (m * m - x1 - x2)) - y1 := by
  rw [WeierstrassCurve.Affine.addY, negY_curve, WeierstrassCurve.Affine.negAddY, addX_curve]
  ring

variable [Fact p.toNat.Prime]

/-- Over a prime the document's quotient is division (Fermat). -/
theorem fermatQuotient_zmod (u : Int) {v : Int} (hv : (v : ZMod p.toNat) ≠ 0) :
    ((fermatQuotient u v p.toNat : Int) : ZMod p.toNat) = u / v := by
  have hp : p.toNat.Prime := Fact.out
  have hpow : (v : ZMod p.toNat) ^ (p.toNat - 2) * v = 1 := by
    rw [← pow_succ, show p.toNat - 2 + 1 = p.toNat - 1 by have := hp.two_le; omega, ZMod.pow_card_sub_one_eq_one hv]
  rw [fermatQuotient, ZMod.intCast_mod, Int.cast_mul, Int.cast_pow, eq_div_iff hv, mul_assoc, hpow, mul_one]

/-- The third point of the commands is Mathlib's sum for the line of the same slope. -/
theorem ptNew_represents_sum {x1 y1 x2 : U256} {m : Int} {S : Pt} {slope : ZMod p.toNat}
    (hm : (m : ZMod p.toNat) = slope)
    {h : (curve p a b).Nonsingular ((curve p a b).addX x1.toNat x2.toNat slope)
      ((curve p a b).addY x1.toNat x2.toNat y1.toNat slope)}
    (hS : ptNew (residue (m * m - x1.toNat - x2.toNat) p)
      (residue (m * (x1.toNat - (m * m - x1.toNat - x2.toNat)) - y1.toNat) p) ⟨a, p⟩ ⟨b, p⟩ = .ok S) :
    ∃ e, S = ⟨e, a, b, p⟩ ∧ Represents p a b e (.some _ _ h) := by
  have hp : 0 < p.toNat := (Fact.out : p.toNat.Prime).pos
  rw [ptNew_residue hp] at hS
  split at hS
  · cases hS
    refine ⟨_, rfl, represents_some ?_ ?_⟩
    · rw [residue_zmod _ hp, addX_curve, ← hm]
      push_cast
      rfl
    · rw [residue_zmod _ hp, addY_curve, ← hm]
      push_cast
      rfl
  · cases hS

theorem natCast_ne_zero_zmod {y : U256} (hy : y.toNat < p.toNat) (h0 : y ≠ 0#256) : (y.toNat : ZMod p.toNat) ≠ 0 := by
  have hp : 0 < p.toNat := (Fact.out : p.toNat.Prime).pos
  intro h
  exact h0 ((zmod_eq_iff hy (m := 0#256) hp).mp (by simpa using h))

theorem two_ne_zero_zmod (h2 : p.toNat ≠ 2) : (2 : ZMod p.toNat) ≠ 0 := by
  have hp : p.toNat.Prime := Fact.out
  intro h
  have hd : p.toNat ∣ 2 := (ZMod.natCast_eq_zero_iff 2 p.toNat).mp (by exact_mod_cast h)
  exact h2 ((Nat.prime_dvd_prime_iff_eq hp Nat.prime_two).mp hd)

/-- The chord is the group's sum of points with different `x`. -/
theorem ptChord_represents {x1 y1 x2 y2 : U256} (hx1 : x1.toNat < p.toNat) (hy1 : y1.toNat < p.toNat)
    (hx2 : x2.toNat < p.toNat) (hy2 : y2.toNat < p.toNat) (hne : x1 ≠ x2)
    (h1 : (curve p a b).Nonsingular (x1.toNat : ZMod p.toNat) (y1.toNat : ZMod p.toNat))
    (h2 : (curve p a b).Nonsingular (x2.toNat : ZMod p.toNat) (y2.toNat : ZMod p.toNat)) {S : Pt}
    (hS : ptChord ⟨x1, p⟩ ⟨y1, p⟩ ⟨x2, p⟩ ⟨y2, p⟩ ⟨a, p⟩ ⟨b, p⟩ = .ok S) :
    ∃ e, S = ⟨e, a, b, p⟩ ∧ Represents p a b e (.some _ _ h1 + .some _ _ h2) := by
  have hp : p.toNat.Prime := Fact.out
  have hx : (x1.toNat : ZMod p.toNat) ≠ x2.toNat := fun h => hne ((zmod_eq_iff hx1 hx2).mp h)
  rw [← residue_self hx1, ← residue_self hy1, ← residue_self hx2, ← residue_self hy2,
    ptChord_residue hp.pos (ne_one_of_two_le hp.two_le) _ _ _ _ _ _ rfl] at hS
  rw [WeierstrassCurve.Affine.Point.add_of_X_ne hx]
  refine ptNew_represents_sum ?_ hS
  rw [fermatQuotient_zmod _ (by push_cast; exact sub_ne_zero.mpr hx.symm), WeierstrassCurve.Affine.slope_of_X_ne hx,
    ← neg_div_neg_eq]
  push_cast
  simp only [neg_sub]

/-- The tangent is the group's double of a point with `y ≠ 0`. -/
theorem ptTangent_represents {x y : U256} (ha : a.toNat < p.toNat) (hx : x.toNat < p.toNat) (hy : y.toNat < p.toNat)
    (h2 : p.toNat ≠ 2) (h0 : y ≠ 0#256)
    (h : (curve p a b).Nonsingular (x.toNat : ZMod p.toNat) (y.toNat : ZMod p.toNat)) {S : Pt}
    (hS : ptTangent ⟨x, p⟩ ⟨y, p⟩ ⟨a, p⟩ ⟨b, p⟩ = .ok S) :
    ∃ e, S = ⟨e, a, b, p⟩ ∧ Represents p a b e (.some _ _ h + .some _ _ h) := by
  have hp : p.toNat.Prime := Fact.out
  have h2y : (2 : ZMod p.toNat) * y.toNat ≠ 0 := mul_ne_zero (two_ne_zero_zmod h2) (natCast_ne_zero_zmod hy h0)
  have hneg : (y.toNat : ZMod p.toNat) ≠ (curve p a b).negY x.toNat y.toNat := by
    rw [negY_curve]
    exact fun h => h2y (by linear_combination h)
  rw [← residue_self hx, ← residue_self hy, ← residue_self ha,
    ptTangent_residue hp.pos (ne_one_of_two_le hp.two_le) _ _ _ _ rfl, residue_self ha] at hS
  rw [WeierstrassCurve.Affine.Point.add_self_of_Y_ne hneg]
  refine ptNew_represents_sum ?_ hS
  rw [fermatQuotient_zmod _ (by push_cast; exact h2y), WeierstrassCurve.Affine.slope_of_Y_ne rfl hneg, negY_curve]
  push_cast
  congr 1 <;> ring

/-- Over an odd prime `pt_add` answers the group's sum. -/
theorem ptAdd_represents {c d : Coords} {X Y : (curve p a b).Point} (h2 : p.toNat ≠ 2)
    (hc : (⟨c, a, b, p⟩ : Pt).Valid) (hd : (⟨d, a, b, p⟩ : Pt).Valid) (hX : Represents p a b c X)
    (hY : Represents p a b d Y) :
    ∃ e, ptAdd ⟨c, a, b, p⟩ ⟨d, a, b, p⟩ = .ok ⟨e, a, b, p⟩ ∧ Represents p a b e (X + Y) := by
  have hp : p.toNat.Prime := Fact.out
  have hsame : SameCurve (⟨c, a, b, p⟩ : Pt) ⟨d, a, b, p⟩ := ⟨rfl, rfl, rfl⟩
  suffices h : ∀ S, ptAdd ⟨c, a, b, p⟩ ⟨d, a, b, p⟩ = .ok S → ∃ e, S = ⟨e, a, b, p⟩ ∧ Represents p a b e (X + Y) by
    obtain ⟨S, hS⟩ := ptAdd_ok hc hd hsame hp h2
    obtain ⟨e, rfl, he⟩ := h S hS
    exact ⟨e, hS, he⟩
  intro S hS
  rcases ptAdd_cases hsame with ⟨hPc, e⟩ | ⟨-, hRc, e⟩ | ⟨x1, y1, x2, y2, hPc, hRc, hcase⟩
  · obtain rfl : c = .identity := hPc
    cases e.symm.trans hS
    rw [represents_identity_iff.mp hX, zero_add]
    exact ⟨d, rfl, hY⟩
  · obtain rfl : d = .identity := hRc
    cases e.symm.trans hS
    rw [represents_identity_iff.mp hY, add_zero]
    exact ⟨c, rfl, hX⟩
  · obtain rfl : c = .affine x1 y1 := hPc
    obtain rfl : d = .affine x2 y2 := hRc
    obtain ⟨h1, rfl⟩ := represents_affine_iff.mp hX
    obtain ⟨h2', rfl⟩ := represents_affine_iff.mp hY
    obtain ⟨ha, -, hx1, hy1, -⟩ := hc
    obtain ⟨-, -, hx2, hy2, -⟩ := hd
    rcases hcase with ⟨rfl, hy, e⟩ | ⟨hx, e⟩ | ⟨rfl, rfl, rfl, e⟩ | ⟨rfl, rfl, h0, e⟩
    · cases e.symm.trans hS
      have hne : (y1.toNat : ZMod p.toNat) ≠ y2.toNat := fun h => hy ((zmod_eq_iff hy1 hy2).mp h)
      have hneg := (WeierstrassCurve.Affine.Y_eq_of_X_eq h1.1 h2'.1 rfl).resolve_left hne
      rw [WeierstrassCurve.Affine.Point.add_of_Y_eq rfl hneg]
      exact ⟨.identity, rfl, represents_identity_iff.mpr rfl⟩
    · exact ptChord_represents hx1 hy1 hx2 hy2 hx h1 h2' (e.symm.trans hS)
    · cases e.symm.trans hS
      rw [WeierstrassCurve.Affine.Point.add_self_of_Y_eq (by rw [negY_curve]; simp)]
      exact ⟨.identity, rfl, represents_identity_iff.mpr rfl⟩
    · exact ptTangent_represents ha hx1 hy1 h2 h0 h1 (e.symm.trans hS)

/-- The bit of the scalar adds the summand once or not at all. -/
theorem ptMulBit_represents {k : Nat} {c d : Coords} {X Y : (curve p a b).Point} (h2 : p.toNat ≠ 2)
    (hc : (⟨c, a, b, p⟩ : Pt).Valid) (hd : (⟨d, a, b, p⟩ : Pt).Valid) (hX : Represents p a b c X)
    (hY : Represents p a b d Y) :
    ∃ e, ptMulBit ⟨c, a, b, p⟩ ⟨d, a, b, p⟩ k = .ok ⟨e, a, b, p⟩ ∧ Represents p a b e (X + (k % 2) • Y) := by
  unfold ptMulBit
  split
  · next h1 =>
    rw [h1, one_nsmul]
    exact ptAdd_represents h2 hc hd hX hY
  · next h1 =>
    rw [Nat.mod_two_ne_one.mp h1, zero_nsmul, add_zero]
    exact ⟨c, rfl, hX⟩

/-- Over an odd prime the loop answers the group's sum of the result and `k` times the summand. -/
theorem ptMulLoop_represents {fuel k : Nat} {c d : Coords} {X Y : (curve p a b).Point} (h2 : p.toNat ≠ 2)
    (hk : k < 2 ^ fuel) (hc : (⟨c, a, b, p⟩ : Pt).Valid) (hd : (⟨d, a, b, p⟩ : Pt).Valid)
    (hX : Represents p a b c X) (hY : Represents p a b d Y) :
    ∃ e, ptMulLoop fuel ⟨c, a, b, p⟩ ⟨d, a, b, p⟩ k = .ok ⟨e, a, b, p⟩ ∧ Represents p a b e (X + k • Y) := by
  induction fuel generalizing c d X Y k with
  | zero =>
    obtain rfl : k = 0 := by omega
    exact ⟨c, rfl, by rwa [zero_nsmul, add_zero]⟩
  | succ fuel ih =>
    rw [ptMulLoop]
    split
    · next h0 => exact ⟨c, rfl, by rwa [h0, zero_nsmul, add_zero]⟩
    · obtain ⟨r, hr, hrX⟩ := ptMulBit_represents h2 hc hd hX hY (k := k)
      obtain ⟨d', hd', hdY⟩ := ptAdd_represents h2 hd hd hY hY
      obtain ⟨e, he, heZ⟩ := ih (k := k / 2) (by rw [pow_succ] at hk; omega) (ptMulBit_valid hc hd hr).1
        (ptAdd_valid hd hd hd').1 hrX hdY
      refine ⟨e, by rw [hr, hd']; exact he, ?_⟩
      have hsum : X + k • Y = X + (k % 2) • Y + (k / 2) • (Y + Y) := by
        rw [add_assoc, ← two_nsmul, ← mul_smul, ← add_smul, Nat.mod_add_div']
      rw [hsum]
      exact heZ

/-- Over an odd prime `pt_mul` by `k ≥ 0` answers `k` times the point. -/
theorem ptMul_represents {k : Nat} {c : Coords} {X : (curve p a b).Point} (h2 : p.toNat ≠ 2)
    (hc : (⟨c, a, b, p⟩ : Pt).Valid) (hX : Represents p a b c X) :
    ∃ e, ptMul ⟨c, a, b, p⟩ k = .ok ⟨e, a, b, p⟩ ∧ Represents p a b e (k • X) := by
  unfold ptMul
  rw [if_neg (by omega)]
  split
  · next h1 =>
    obtain rfl : k = 1 := by omega
    exact ⟨c, rfl, by rwa [one_nsmul]⟩
  · have h := ptMulLoop_represents (k := k) h2 Nat.lt_log2_self (ptIdentityOf_valid hc) hc
      (represents_identity_iff.mpr rfl) hX
    rwa [zero_add] at h

end

/-- Settles O36. -/
theorem paddIsGroupAddition : Obligations.PaddIsGroupAddition := by
  intro p a b _ c d X Y s rd ra rb h2 hc hd hX hY hP hR
  obtain ⟨e, he, hrep⟩ := ptAdd_represents h2 hc hd hX hY
  exact ⟨e, by rw [exec_padd rd hP hR, he, finishQ_ok], hrep⟩

/-- Settles O37. -/
theorem pmulIsGroupMultiple : Obligations.PmulIsGroupMultiple := by
  intro p a b _ c X s rd ra rb k h2 hc hX hP hk
  obtain ⟨e, he, hrep⟩ := ptMul_represents (k := k) h2 hc hX
  exact ⟨e, by rw [exec_pmul rd hP, hk, he, finishQ_ok], hrep⟩

end Sys2Proof.Machine
end

section
/-!
PROOFS of the family `43_secp256k1.md` (SNEW and SMUL stand with the field and the point commands). First the constants;
then the bytes of SEC data, SECENC, SECDEC and their round trip; then SVERIFY, in integers and in Mathlib's group of the
curve; then the order of the generator, by sums in Jacobian coordinates.
-/

namespace Sys2Proof.Machine

/-! ### The constants (R160, R167 to R169) -/

/-- Settles O41. -/
theorem secpConstantsLoad : Obligations.SecpConstantsLoad :=
  ⟨fun _ _ => ⟨rfl, rfl, rfl⟩, by decide, by decide, secpG_valid⟩

/-! ### Big-endian bytes (`00_scope.md` R9) -/

/-- The low byte is the last one. -/
theorem getElem_beBytes {n i : Nat} (v : Nat) (h : i < (beBytes n v).length) :
    (beBytes n v)[i] = BitVec.ofNat 8 (v >>> (8 * (n - 1 - i))) := by
  induction n generalizing v with
  | zero => exact absurd h (Nat.not_lt_zero i)
  | succ n ih =>
    rw [length_beBytes] at h
    simp only [beBytes, List.getElem_append, length_beBytes]
    split
    · next hi =>
      rw [ih, show v / 256 = v >>> 8 from (Nat.shiftRight_eq_div_pow v 8).symm, ← Nat.shiftRight_add]
      congr 2
      omega
    · next hi =>
      obtain rfl : i = n := by omega
      simp

theorem getElem_be32 {i : Nat} (v : U256) (h : i < (be32 v).length) : (be32 v)[i] = be32Byte v i := by
  rw [length_be32] at h
  simp only [be32, getElem_beBytes]
  rw [be32Byte, BitVec.extractLsb', show 8 * (32 - 1 - i) = 248 - 8 * i by omega]

theorem intBE_append (bs : List Byte) (b : Byte) : intBE (bs ++ [b]) = intBE bs * 256 + b.toNat := by
  rw [intBE, List.foldl_append]
  rfl

/-- `int_be` undoes the low bytes of a number. -/
theorem intBE_beBytes (n v : Nat) : intBE (beBytes n v) = v % 256 ^ n := by
  induction n generalizing v with
  | zero => rw [pow_zero, Nat.mod_one]; rfl
  | succ n ih =>
    rw [beBytes, intBE_append, ih, BitVec.toNat_ofNat, pow_succ' 256 n, Nat.mod_mul]
    omega

theorem intBE_be32 (v : U256) : intBE (be32 v) = v.toNat := by
  rw [be32, intBE_beBytes]
  exact Nat.mod_eq_of_lt v.isLt

/-- What SECDEC reads as an integer is the number in those bytes. -/
theorem intBE_readBytes (m : Memory) (j n : Nat) : intBE (m.readBytes j n) = secInteger m j n := by
  induction n with
  | zero => rfl
  | succ n ih =>
    rw [Memory.readBytes_add, secInteger, ← ih]
    exact intBE_append _ _

/-- A number whose 32 bytes stand in SECBUF is read back. -/
theorem secInteger_of_be32Bytes {m : Memory} {j : Nat} {v : U256} (h : ∀ i < 32, m.read (j + i) = be32Byte v i) :
    secInteger m j 32 = v.toNat := by
  have hbytes : m.readBytes j 32 = be32 v := by
    have hlen := Memory.length_readBytes m j 32
    refine List.ext_getElem (hlen.trans (length_be32 v).symm) fun i hi _ => ?_
    rw [Memory.getElem_readBytes, getElem_be32, h i (hi.trans_eq hlen)]
  rw [← intBE_readBytes, hbytes, intBE_be32]

/-! ### SECENC (R164, R172) -/

theorem exec_secenc {s : State} {ra : Reg} {P : Pt} (hP : s.q[ra] = some P) (c : Bool) :
    exec (.secenc ra c) s = finish s (secEncode P c >>= fun bytes => pure
      ((s.setSecbuf (Memory.writeBytes s.secbuf 0 bytes)).setSeclen (BitVec.ofNat 7 bytes.length))) :=
  congrArg (finish s) (readQ_bind hP _)

/-- The bytes of the SEC encoding of an affine point. -/
def secBytes (x y : U256) (c : Bool) : List Byte :=
  if c then (if y.toNat % 2 = 0 then 0x02#8 else 0x03#8) :: be32 x else 0x04#8 :: (be32 x ++ be32 y)

theorem secEncode_affine {P : Pt} {x y : U256} (h : P.a = 0#256 ∧ P.b = 7#256 ∧ P.prime = secpP)
    (hc : P.coords = .affine x y) (c : Bool) : secEncode P c = .ok (secBytes x y c) := by
  rw [secEncode, requireSecp_ok h, affineCoords_affine hc]
  cases c <;> rfl

theorem length_secBytes (x y : U256) (c : Bool) : (secBytes x y c).length = if c then 33 else 65 := by
  cases c <;> simp [secBytes, length_be32]

theorem getElem_secBytes {x y : U256} {c : Bool} {j : Nat} (h : j < (secBytes x y c).length) :
    (secBytes x y c)[j] = secByte x y c j := by
  rw [length_secBytes] at h
  cases j with
  | zero => cases c <;> rfl
  | succ j =>
    cases c with
    | true =>
      have hj : j < 32 := Nat.lt_of_succ_lt_succ h
      simp [secBytes, secByte, hj, getElem_be32]
    | false =>
      by_cases hj : j < 32
      · simp [secBytes, secByte, hj, getElem_be32, length_be32]
      · simp [secBytes, secByte, hj, getElem_be32, List.getElem_append, length_be32]

/-- Settles O45. -/
theorem secencWritesSecBytes : Obligations.SecencWritesSecBytes := by
  intro s ra c P hP hm
  rw [exec_secenc hP]
  refine ⟨fun h => ?_, fun ha hb hp hc => ?_, fun x y ha hb hp hc => ?_⟩
  · rw [secEncode, requireSecp_error h]
    rfl
  · rw [secEncode, requireSecp_ok ⟨ha, hb, hp⟩, affineCoords_identity hc]
    rfl
  · have hlen := length_secBytes x y c
    refine ⟨Memory.writeBytes s.secbuf 0 (secBytes x y c), ?_, ?_, fun j hj => ?_, fun j hj => ?_⟩
    · have hseclen : (if c then 33#7 else 65#7) = BitVec.ofNat 7 (secBytes x y c).length := by
        rw [hlen]
        cases c <;> rfl
      rw [secEncode_affine ⟨ha, hb, hp⟩ hc, hseclen]
      rfl
    · have h65 : 0 + (secBytes x y c).length ≤ secSize := by
        rw [hlen]
        cases c <;> decide
      exact Memory.wf_writeBytes hm h65
    · have hin : 0 ≤ j ∧ j - 0 < (secBytes x y c).length := ⟨j.zero_le, hj.trans_eq hlen.symm⟩
      rw [Memory.read_writeBytes hm.1, dif_pos hin]
      exact getElem_secBytes hin.2
    · have hout : ¬(0 ≤ j ∧ j - 0 < (secBytes x y c).length) := by
        rw [hlen]
        exact fun h => hj.not_gt h.2
      rw [Memory.read_writeBytes hm.1, dif_neg hout]

/-! ### SECDEC (R165, R173) -/

/-- A function that answers hands its value on. -/
theorem bind_of_ok {α β : Type} {x : Except CmdFault α} {a : α} (h : x = .ok a) (k : α → Except CmdFault β) :
    x >>= k = k a := by
  rw [h]
  rfl

theorem exec_secdec (s : State) (rd : Reg) : exec (.secdec rd) s = s.finishQ rd (secDecode s.secbuf) := rfl

section
variable {m : Memory}

theorem secDecode_uncompressed (h : m.read 0 = 0x04#8) :
    secDecode m = secpNew (secInteger m 1 32) (secInteger m 33 32) := by
  rw [secDecode, h, intBE_readBytes, intBE_readBytes]
  rfl

theorem secDecode_compressed (h : m.read 0 = 0x02#8 ∨ m.read 0 = 0x03#8) :
    secDecode m = secDecompress (secInteger m 1 32) (m.read 0 == 0x03#8) := by
  rw [secDecode, intBE_readBytes]
  rcases h with h | h <;> rw [h] <;> rfl

theorem secDecode_secFormat (h2 : m.read 0 ≠ 0x02#8) (h3 : m.read 0 ≠ 0x03#8) (h4 : m.read 0 ≠ 0x04#8) :
    secDecode m = .error .secFormat := by
  rw [secDecode, if_neg h4, if_neg (not_or.mpr ⟨h2, h3⟩)]

end

theorem secDecompress_rangeError {X : Nat} (h : secpP.toNat ≤ X) (wantOdd : Bool) :
    secDecompress X wantOdd = .error .rangeError := by
  rw [secDecompress, feNew_error_iff.mpr ⟨rfl, by omega⟩]
  rfl

/-- The number the compressed path takes the root of: `x³ + 7 mod p`. -/
def secAlpha (X : Nat) : Nat := (X * X * X + 7) % secpP.toNat

/-- The root the compressed path computes: `alpha^((p+1)/4) mod p`. -/
def secBeta (X : Nat) : Nat := secAlpha X ^ ((secpP.toNat + 1) / 4) % secpP.toNat

theorem secAlpha_lt (X : Nat) : secAlpha X < secpP.toNat := Nat.mod_lt _ secpP_prime.pos

theorem secBeta_lt (X : Nat) : secBeta X < secpP.toNat := Nat.mod_lt _ secpP_prime.pos

theorem feNew_secp {X : Nat} (hX : X < secpP.toNat) : feNew X secpP.toNat = .ok ⟨BitVec.ofNat 256 X, secpP⟩ := by
  rw [feNew_ofInt (Int.natCast_nonneg X) (Int.ofNat_lt.mpr hX), BitVec.ofInt_natCast]

/-- A number in range is its residue. -/
theorem residue_ofNat {X : Nat} {p : U256} (hX : X < p.toNat) : residue X p = ⟨BitVec.ofNat 256 X, p⟩ := by
  rw [residue, Int.emod_eq_of_lt (Int.natCast_nonneg X) (Int.ofNat_lt.mpr hX), Int.toNat_natCast]

/-- The computed root of the field element `x³ + 7`. -/
theorem feSqrt_secAlpha (X : Nat) : feSqrt (residue (X * X * X + (7#256).toNat) secpP) =
    .ok ⟨BitVec.ofNat 256 (secBeta X), secpP⟩ := by
  have hnum : (residue (X * X * X + (7#256).toNat) secpP).num.toNat = secAlpha X := by
    have h := residue_num (X * X * X + (7#256).toNat) secpP_prime.pos
    exact_mod_cast h
  rw [feSqrt_ok (by rw [residue_prime]; decide), hnum]
  rfl

/-- On an `x` in range the compressed path picks the root of the parity asked for and checks the curve equation. -/
theorem secDecompress_eq {X : Nat} (hX : X < secpP.toNat) (wantOdd : Bool) :
    secDecompress X wantOdd = secPickRoot ⟨BitVec.ofNat 256 (secBeta X), secpP⟩ wantOdd >>= fun y =>
      ptNew ⟨BitVec.ofNat 256 X, secpP⟩ y secpA0 secpB7 := by
  have hpos : 0 < secpP.toNat := secpP_prime.pos
  have hB7 : secpB7 = residue ((7#256).toNat : Int) secpP := (residue_self (by decide)).symm
  rw [secDecompress, bind_of_ok (feNew_secp hX), ← residue_ofNat hX, bind_of_ok (feMul_residue hpos _ _),
    bind_of_ok (feMul_residue hpos _ _), hB7, bind_of_ok (feAdd_residue hpos _ _), bind_of_ok (feSqrt_secAlpha X)]

/-- The validating constructor on secp256k1. -/
theorem ptNew_secp {X Y : Nat} (hX : X < secpP.toNat) (hY : Y < secpP.toNat) :
    ptNew ⟨BitVec.ofNat 256 X, secpP⟩ ⟨BitVec.ofNat 256 Y, secpP⟩ secpA0 secpB7 =
      if Y * Y % secpP.toNat = (X * X * X + 7) % secpP.toNat
      then .ok ⟨.affine (BitVec.ofNat 256 X) (BitVec.ofNat 256 Y), 0#256, 7#256, secpP⟩ else .error .invalidPoint := by
  have htoNat {n : Nat} (hn : n < secpP.toNat) : (BitVec.ofNat 256 n).toNat = n := by
    rw [BitVec.toNat_ofNat, Nat.mod_eq_of_lt (hn.trans secpP.isLt)]
  have hcurve : OnCurve X Y (0#256).toNat (7#256).toNat secpP.toNat ↔
      Y * Y % secpP.toNat = (X * X * X + 7) % secpP.toNat := by
    rw [OnCurve, BitVec.toNat_zero, zero_mul, add_zero]
    rfl
  rw [secpA0, secpB7, ptNew_eq secpP_prime.pos, htoNat hX, htoNat hY]
  simp only [hcurve]

theorem secpNew_natCast {X Y : Nat} (hX : X < secpP.toNat) (hY : Y < secpP.toNat) :
    secpNew X Y = if Y * Y % secpP.toNat = (X * X * X + 7) % secpP.toNat
      then .ok ⟨.affine (BitVec.ofNat 256 X) (BitVec.ofNat 256 Y), 0#256, 7#256, secpP⟩ else .error .invalidPoint := by
  rw [secpNew, bind_of_ok (feNew_secp hX), bind_of_ok (feNew_secp hY), ptNew_secp hX hY]

/-- The picked root has the parity asked for. A root 0 is its own negative, so only the even one is there. -/
theorem secPickRoot_ok {beta : Nat} {wantOdd : Bool} (hb : beta < secpP.toNat) (h0 : beta = 0 → wantOdd = false) :
    ∃ y, secPickRoot ⟨BitVec.ofNat 256 beta, secpP⟩ wantOdd = .ok ⟨BitVec.ofNat 256 y, secpP⟩ ∧ y < secpP.toNat ∧
      (y = beta ∨ y + beta = secpP.toNat) ∧ (y % 2 == 1) = wantOdd := by
  have hnum : (BitVec.ofNat 256 beta).toNat = beta := by
    rw [BitVec.toNat_ofNat, Nat.mod_eq_of_lt (hb.trans secpP.isLt)]
  rw [secPickRoot, hnum]
  split
  · next h => exact ⟨beta, rfl, hb, .inl rfl, h⟩
  · next h =>
    have hne : beta ≠ 0 := by
      rintro rfl
      exact h (h0 rfl).symm
    have hodd : secpP.toNat % 2 = 1 := by decide
    have hlt : secpP.toNat - beta < secpP.toNat := Nat.sub_lt secpP_prime.pos (Nat.pos_of_ne_zero hne)
    refine ⟨secpP.toNat - beta, ?_, hlt, .inr (Nat.sub_add_cancel hb.le), ?_⟩
    · rw [← Int.ofNat_sub hb.le, feNew_secp hlt]
    · cases wantOdd <;> simp only [beq_iff_eq, beq_eq_false_iff_ne] at h ⊢ <;> omega

/-- If `alpha` has a root then the computed one is a root. -/
theorem secBeta_mul_self {X y : Nat} (h : y * y % secpP.toNat = secAlpha X) :
    secBeta X * secBeta X % secpP.toNat = y * y % secpP.toNat := by
  have : Fact secpP.toNat.Prime := ⟨secpP_prime⟩
  have hroot := (sqrtPower_mul_self_cases (p := secpP.toNat) (by decide) (secAlpha X : ZMod secpP.toNat)).1
    ((isSquare_natCast_zmod_iff (secAlpha_lt X)).mpr ⟨y, h⟩)
  rw [← ZMod.natCast_eq_natCast_iff', ← ZMod.natCast_mod (y * y), h, Nat.cast_mul, secBeta, ZMod.natCast_mod,
    Nat.cast_pow, hroot]

/-- A number below a prime has the root of another square only up to its sign. -/
theorem eq_or_add_eq_of_mul_self {p a b : Nat} (hp : p.Prime) (ha : a < p) (hb : b < p)
    (h : a * a % p = b * b % p) : a = b ∨ a + b = p := by
  have : Fact p.Prime := ⟨hp⟩
  rw [← ZMod.natCast_eq_natCast_iff', Nat.cast_mul, Nat.cast_mul, mul_self_eq_mul_self_iff, eq_neg_iff_add_eq_zero,
    ← Nat.cast_add, ZMod.natCast_eq_natCast_iff', Nat.mod_eq_of_lt ha, Nat.mod_eq_of_lt hb, ZMod.natCast_eq_zero_iff]
    at h
  rcases h with h | hdvd
  · exact .inl h
  · by_cases h0 : a + b = 0
    · exact .inl (by omega)
    · exact .inr (Nat.eq_of_dvd_of_lt_two_mul h0 hdvd (by omega))

/-- A root with the parity asked for is the point's `y`. -/
theorem secDecompress_of_root {X y : Nat} (hX : X < secpP.toNat) (hy : y < secpP.toNat)
    (h : y * y % secpP.toNat = secAlpha X) :
    secDecompress X (y % 2 == 1) = .ok ⟨.affine (BitVec.ofNat 256 X) (BitVec.ofNat 256 y), 0#256, 7#256, secpP⟩ := by
  have hodd : secpP.toNat % 2 = 1 := by decide
  have hbeta := eq_or_add_eq_of_mul_self secpP_prime (secBeta_lt X) hy (secBeta_mul_self h)
  obtain ⟨y', hpick, -, hcase, hpar⟩ := secPickRoot_ok (wantOdd := y % 2 == 1) (secBeta_lt X) fun h0 => by
    obtain rfl : y = 0 := by omega
    rfl
  rw [Bool.eq_iff_iff, beq_iff_eq, beq_iff_eq] at hpar
  obtain rfl : y' = y := by omega
  rw [secDecompress_eq hX, bind_of_ok hpick, ptNew_secp hX hy]
  exact if_pos h

/-- An `x` without a root is no point's. -/
theorem secDecompress_invalidPoint {X : Nat} (hX : X < secpP.toNat)
    (h : ∀ y < secpP.toNat, y * y % secpP.toNat ≠ secAlpha X) (wantOdd : Bool) :
    secDecompress X wantOdd = .error .invalidPoint := by
  have hne : secBeta X ≠ 0 := fun h0 => by
    have halpha : secpP.toNat ∣ secAlpha X :=
      secpP_prime.dvd_of_dvd_pow (Nat.dvd_of_mod_eq_zero h0)
    exact h 0 secpP_prime.pos (Nat.eq_zero_of_dvd_of_lt halpha (secAlpha_lt X)).symm
  obtain ⟨y, hpick, hy, -, -⟩ := secPickRoot_ok (wantOdd := wantOdd) (secBeta_lt X) (absurd · hne)
  rw [secDecompress_eq hX, bind_of_ok hpick, ptNew_secp hX hy]
  exact if_neg (h y hy)

/-- Settles O46. -/
theorem secdecDecodesByPrefix : Obligations.SecdecDecodesByPrefix := by
  rintro s rd X Y rfl rfl
  rw [exec_secdec]
  refine ⟨fun h4 hle => ?_, fun h4 hX hY => ?_, fun h hle => ?_, fun y hX hy hroot hpre => ?_,
    fun h hX hroot => ?_, fun h2 h3 h4 => ?_⟩
  · rw [secDecode_uncompressed h4, secpNew_rangeError (by omega)]
    exact finishQ_error s rd _
  · rw [secDecode_uncompressed h4, secpNew_natCast hX hY]
    split
    · exact finishQ_ok s rd _
    · exact finishQ_error s rd _
  · rw [secDecode_compressed h, secDecompress_rangeError hle]
    exact finishQ_error s rd _
  · have hodd : (s.secbuf.read 0 == 0x03#8) = (y % 2 == 1) := by
      rcases Nat.mod_two_eq_zero_or_one y with e | e <;> rw [hpre, e] <;> rfl
    have hform : s.secbuf.read 0 = 0x02#8 ∨ s.secbuf.read 0 = 0x03#8 := by
      rw [hpre]
      exact ite_eq_or_eq _ _ _
    rw [secDecode_compressed hform, hodd, secDecompress_of_root hX hy hroot]
    exact finishQ_ok s rd _
  · rw [secDecode_compressed h, secDecompress_invalidPoint hX hroot]
    exact finishQ_error s rd _
  · rw [secDecode_secFormat h2 h3 h4]
    exact finishQ_error s rd _

/-! ### The round trip (R175) -/

theorem secByte_x (x y : U256) (c : Bool) {i : Nat} (hi : i < 32) : secByte x y c (1 + i) = be32Byte x i := by
  rw [secByte, if_neg (by omega), if_pos (by omega), Nat.add_sub_cancel_left]

theorem secByte_y (x y : U256) (c : Bool) (i : Nat) : secByte x y c (33 + i) = be32Byte y i := by
  rw [secByte, if_neg (by omega), if_neg (by omega), Nat.add_sub_cancel_left]

/-- SECDEC of a SEC encoding answers the point: in the compressed form its own `y` is the root of its parity. -/
theorem exec_secdec_of_secBytes {s : State} {x y : U256} {c : Bool} (rd : Reg)
    (hv : (⟨.affine x y, 0#256, 7#256, secpP⟩ : Pt).Valid)
    (hbytes : ∀ j, j < (if c then 33 else 65) → s.secbuf.read j = secByte x y c j) :
    exec (.secdec rd) s = .next (s.endQ rd ⟨.affine x y, 0#256, 7#256, secpP⟩) := by
  obtain ⟨-, -, hx, hy, hcurve⟩ := hv
  have hroot : y.toNat * y.toNat % secpP.toNat = (x.toNat * x.toNat * x.toNat + 7) % secpP.toNat := by
    rw [hcurve, BitVec.toNat_zero, zero_mul, add_zero]
    rfl
  have hX : secInteger s.secbuf 1 32 = x.toNat := secInteger_of_be32Bytes fun i hi => by
    rw [hbytes (1 + i) (by split <;> omega), secByte_x x y c hi]
  obtain ⟨-, huncompressed, -, hcompressed, -, -⟩ := secdecDecodesByPrefix s rd _ _ hX rfl
  cases c with
  | true =>
    have h := hcompressed y.toNat hx hy hroot (hbytes 0 (by decide))
    simpa only [BitVec.ofNat_toNat, BitVec.setWidth_eq] using h
  | false =>
    have hY : secInteger s.secbuf 33 32 = y.toNat := secInteger_of_be32Bytes fun i hi => by
      rw [hbytes (33 + i) (show 33 + i < 65 by omega), secByte_y]
    have h := huncompressed (hbytes 0 (by decide)) hx (by rwa [hY])
    rw [hY, if_pos hroot] at h
    simpa only [BitVec.ofNat_toNat, BitVec.setWidth_eq] using h

/-- Settles O47: the bytes SECENC writes are those SECDEC reads. -/
theorem secRoundTripGivesPointBack : Obligations.SecRoundTripGivesPointBack := by
  rintro s c x y P rfl hv hm hq
  obtain ⟨-, -, henc⟩ := secencWritesSecBytes s 1 c _ hq hm
  obtain ⟨m, ht1, -, hbytes, -⟩ := henc x y rfl rfl rfl rfl
  let P : Pt := ⟨.affine x y, 0#256, 7#256, secpP⟩
  let t1 : State := { s with secbuf := m, seclen := if c then 33#7 else 65#7, busy := false, done := true }
  let t2 : State := t1.endQ 2 P
  have h1 : t2.q[(1 : Reg)] = some P := (t1.setQ_q_get 2 1 P).trans hq
  have h2 : t2.q[(2 : Reg)] = some P := t1.setQ_q_get 2 2 P
  refine ⟨t1, t2, _, ht1, exec_secdec_of_secBytes 2 hv hbytes, h2, exec_peq h1 h2, ?_⟩
  rw [ptEq_eq_decide]
  exact decide_eq_true rfl

/-! ### SVERIFY (R163, R166, R174) -/

theorem exec_sverify {s : State} {ra : Reg} {P : Pt} (hP : s.q[ra] = some P) (rb rc re : Reg) :
    exec (.sverify ra rb rc re) s = finish s
      (secpVerify P s.k[rb].toInt s.k[rc].toInt s.k[re].toInt >>= fun ok => pure (s.setT ok)) :=
  congrArg (finish s) (readQ_bind hP _)

/-- The sum SVERIFY computes, from the two multiples by scalars already reduced modulo `N`. -/
theorem secpVerifyPoint_eq {P A B : Pt} {z r s sInv : Int} (hs : sInv = s ^ (secpN.toNat - 2) % secpN.toNat)
    (hA : ptMul secpG (z * sInv % secpN.toNat) = .ok A) (hB : ptMul P (r * sInv % secpN.toNat) = .ok B) :
    secpVerifyPoint P z r s = ptAdd A B := by
  have hinv : (modexp s (secpN.toNat - 2) secpN.toNat : Int) = sInv := by
    rw [hs, modexp_int _ _ _ (by decide)]
  rw [secpVerifyPoint]
  simp only [hinv, secpMul, Int.emod_emod]
  rw [bind_of_ok hA, bind_of_ok hB]

/-- The end of SVERIFY, from the sum `R` of the two multiples. -/
theorem exec_sverify_of_sum {st : State} {ra rb rc re : Reg} {P R : Pt} (hP : st.q[ra] = some P)
    (hsecp : P.a = 0#256 ∧ P.b = 7#256 ∧ P.prime = secpP)
    (hR : secpVerifyPoint P st.k[rb].toInt st.k[rc].toInt st.k[re].toInt = .ok R) :
    (R.coords = .identity → exec (.sverify ra rb rc re) st = .next (st.faulted 0x12#8)) ∧
    (∀ x y : U256, R.coords = .affine x y →
      exec (.sverify ra rb rc re) st = .next (st.endT (decide ((x.toNat : Int) = st.k[rc].toInt)))) := by
  rw [exec_sverify hP, secpVerify, bind_of_ok (requireSecp_ok hsecp), bind_of_ok hR]
  refine ⟨fun hc => ?_, fun x y hc => ?_⟩
  · rw [affineCoords_identity hc]
    rfl
  · rw [affineCoords_affine hc, ← beq_eq_decide]
    rfl

theorem codedPoint_ok (P : Pt) : codedPoint (.ok P) = .ok P := rfl

/-- Settles O48. -/
theorem sverifyComparesXCoordinate : Obligations.SverifyComparesXCoordinate := by
  rintro st ra rb rc re P z r s sInv hP hv rfl rfl rfl hs
  refine ⟨fun h => ?_, fun ha hb hp => ?_⟩
  · rw [exec_sverify hP, secpVerify, requireSecp_error h]
    rfl
  · have hprime : P.prime.toNat.Prime := hp ▸ secpP_prime
    have h2 : P.prime.toNat ≠ 2 := by rw [hp]; decide
    have hN : (secpN.toNat : Int) ≠ 0 := by decide
    obtain ⟨A, hA⟩ := ptMul_ok secpG_valid (Int.emod_nonneg (st.k[rb].toInt * sInv) hN) secpP_prime (by decide)
    obtain ⟨B, hB⟩ := ptMul_ok hv (Int.emod_nonneg (st.k[rc].toInt * sInv) hN) hprime h2
    obtain ⟨hvA, hGA⟩ := ptMul_valid secpG_valid hA
    obtain ⟨hvB, hPB⟩ := ptMul_valid hv hB
    have hGP : SameCurve secpG P := ⟨ha.symm, hb.symm, hp.symm⟩
    have hAprime : A.prime = secpP := hGA.2.2.symm
    obtain ⟨R, hR⟩ := ptAdd_ok hvA hvB (hGA.symm.trans (hGP.trans hPB)) (hAprime ▸ secpP_prime)
      (by rw [hAprime]; decide)
    refine ⟨A, B, R, ?_, ?_, ?_, exec_sverify_of_sum hP ⟨ha, hb, hp⟩ ((secpVerifyPoint_eq hs hA hB).trans hR)⟩
    · rw [← codedPoint_ptMul secpG_valid, hA, codedPoint_ok]
    · rw [← codedPoint_ptMul hv, hB, codedPoint_ok]
    · rw [← codedPoint_ptAdd hvA hvB, hR, codedPoint_ok]

/-! ### SVERIFY in Mathlib's group of the curve -/

/-- Coordinates in range that stand for an affine point of the group are its coordinates. -/
theorem eq_affine_of_represents_some {p a b x y : U256} {c : Coords}
    {h : (curve p a b).Nonsingular (x.toNat : ZMod p.toNat) (y.toNat : ZMod p.toNat)} (hx : x.toNat < p.toNat)
    (hy : y.toNat < p.toNat) (hc : (⟨c, a, b, p⟩ : Pt).Valid) (hrep : Represents p a b c (.some _ _ h)) :
    c = .affine x y := by
  rcases hrep with ⟨-, ⟨⟩⟩ | ⟨x', y', h', rfl, hxy⟩
  obtain ⟨-, -, hx', hy', -⟩ := hc
  obtain ⟨ex, ey⟩ := (WeierstrassCurve.Affine.Point.some.injEq ..).mp hxy
  rw [(zmod_eq_iff hx hx').mp ex, (zmod_eq_iff hy hy').mp ey]

theorem eq_identity_of_represents_zero {p a b : U256} {c : Coords} (hrep : Represents p a b c 0) : c = .identity := by
  rcases hrep with ⟨h, -⟩ | ⟨x, y, h, -, ⟨⟩⟩
  exact h

/-- Settles O49. -/
theorem sverifyIsEcdsaVerification : Obligations.SverifyIsEcdsaVerification := by
  rintro _ st ra rb rc re c X G z r s w u v hX hG hv hP rfl rfl rfl hw hu hvw
  have h2 : secpP.toNat ≠ 2 := by decide
  obtain ⟨cA, hA, hrepA⟩ := ptMul_represents (k := u) h2 secpG_valid hG
  obtain ⟨cB, hB, hrepB⟩ := ptMul_represents (k := v) h2 hv hX
  obtain ⟨cR, hR, hrepR⟩ := ptAdd_represents h2 (ptMul_valid secpG_valid hA).1 (ptMul_valid hv hB).1 hrepA hrepB
  have hvR := (ptAdd_valid (ptMul_valid secpG_valid hA).1 (ptMul_valid hv hB).1 hR).1
  rw [hu] at hA
  rw [hvw] at hB
  obtain ⟨hidentity, haffine⟩ := exec_sverify_of_sum hP ⟨rfl, rfl, rfl⟩ ((secpVerifyPoint_eq hw hA hB).trans hR)
  refine ⟨fun h0 => hidentity ?_, fun x y h hx hy hsum => haffine x y ?_⟩
  · rw [h0] at hrepR
    exact eq_identity_of_represents_zero hrepR
  · rw [hsum] at hrepR
    exact eq_affine_of_represents_some hx hy hvR hrepR

/-! ### The group order (R175), in Jacobian coordinates -/

/-- Jacobian coordinates of the affine point `(X / Z², Y / Z³)`: sums in them need no inverse. -/
structure Jac where
  X : Int
  Y : Int
  Z : Int

/-- The double of a point, on a curve with `a = 0`, modulo `p`. -/
def Jac.double (p : Nat) (J : Jac) : Jac :=
  let S := 4 * J.X * J.Y ^ 2
  let M := 3 * J.X ^ 2
  ⟨(M ^ 2 - 2 * S) % p, (M * (S - (M ^ 2 - 2 * S)) - 8 * J.Y ^ 4) % p, (2 * J.Y * J.Z) % p⟩

/-- The sum of a point and the affine point `(x, y)`, modulo `p`. -/
def Jac.addAffine (p x y : Nat) (J : Jac) : Jac :=
  let U := x * J.Z ^ 2 - J.X
  let R := y * J.Z ^ 3 - J.Y
  let V := J.X * U ^ 2
  ⟨(R ^ 2 - U ^ 3 - 2 * V) % p, (R * (V - (R ^ 2 - U ^ 3 - 2 * V)) - J.Y * U ^ 3) % p, (U * J.Z) % p⟩

/-- `k` times `(x, y)`, for `k ≥ 1` of at most `fuel + 1` bits, from the most significant bit on. -/
def Jac.multiple (p x y : Nat) : Nat → Nat → Jac
  | 0, _ => ⟨x, y, 1⟩
  | fuel + 1, k =>
    if k = 1 then ⟨x, y, 1⟩
    else
      let D := (Jac.multiple p x y fuel (k / 2)).double p
      if k % 2 = 1 then D.addAffine p x y else D

section
variable {p b : U256}

theorem point_eq_some {x y x' y' : ZMod p.toNat} {h : (curve p 0#256 b).Nonsingular x y} (hx : x = x') (hy : y = y') :
    ∃ h', (.some x y h : (curve p 0#256 b).Point) = .some x' y' h' := by
  subst hx hy
  exact ⟨h, rfl⟩

variable [Fact p.toNat.Prime]

/-- The tangent at a point given by Jacobian coordinates. -/
theorem double_some_div {X Y Z S M : ZMod p.toNat} {h : (curve p 0#256 b).Nonsingular (X / Z ^ 2) (Y / Z ^ 3)}
    (hS : S = 4 * X * Y ^ 2) (hM : M = 3 * X ^ 2) (hZ' : 2 * Y * Z ≠ 0) :
    ∃ h', (.some _ _ h + .some _ _ h : (curve p 0#256 b).Point) =
      .some ((M ^ 2 - 2 * S) / (2 * Y * Z) ^ 2)
        ((M * (S - (M ^ 2 - 2 * S)) - 8 * Y ^ 4) / (2 * Y * Z) ^ 3) h' := by
  obtain ⟨h2Y, hZ⟩ := mul_ne_zero_iff.mp hZ'
  obtain ⟨h2, hY⟩ := mul_ne_zero_iff.mp h2Y
  have h2y : 2 * (Y / Z ^ 3) ≠ 0 := mul_ne_zero h2 (div_ne_zero hY (pow_ne_zero 3 hZ))
  have hneg : Y / Z ^ 3 ≠ (curve p 0#256 b).negY (X / Z ^ 2) (Y / Z ^ 3) := by
    rwa [negY_curve, ne_eq, eq_neg_iff_add_eq_zero, ← two_mul]
  have hslope : (curve p 0#256 b).slope (X / Z ^ 2) (X / Z ^ 2) (Y / Z ^ 3) (Y / Z ^ 3) = M / (2 * Y * Z) := by
    rw [WeierstrassCurve.Affine.slope_of_Y_ne rfl hneg, negY_curve, sub_neg_eq_add, ← two_mul, div_eq_div_iff h2y hZ']
    simp only [BitVec.toNat_zero, Nat.cast_zero, hM]
    field_simp
    ring
  rw [WeierstrassCurve.Affine.Point.add_self_of_Y_ne hneg]
  refine point_eq_some ?_ ?_
  · rw [addX_curve, hslope, hS]
    field_simp
    ring
  · rw [addY_curve, hslope, hS]
    field_simp
    ring

/-- The chord through a point given by Jacobian coordinates and an affine point. -/
theorem add_some_div {X Y Z U R x y : ZMod p.toNat} {h : (curve p 0#256 b).Nonsingular (X / Z ^ 2) (Y / Z ^ 3)}
    {h' : (curve p 0#256 b).Nonsingular x y} (hU : U = x * Z ^ 2 - X) (hR : R = y * Z ^ 3 - Y) (hZ' : U * Z ≠ 0) :
    ∃ h'', (.some _ _ h + .some _ _ h' : (curve p 0#256 b).Point) =
      .some ((R ^ 2 - U ^ 3 - 2 * (X * U ^ 2)) / (U * Z) ^ 2)
        ((R * (X * U ^ 2 - (R ^ 2 - U ^ 3 - 2 * (X * U ^ 2))) - Y * U ^ 3) / (U * Z) ^ 3) h'' := by
  obtain ⟨hU0, hZ⟩ := mul_ne_zero_iff.mp hZ'
  obtain rfl : x = (X + U) / Z ^ 2 := by rw [eq_div_iff (pow_ne_zero 2 hZ), hU, add_sub_cancel]
  obtain rfl : y = (Y + R) / Z ^ 3 := by rw [eq_div_iff (pow_ne_zero 3 hZ), hR, add_sub_cancel]
  have hx : X / Z ^ 2 - (X + U) / Z ^ 2 = -U / Z ^ 2 := by ring
  have hdx : X / Z ^ 2 - (X + U) / Z ^ 2 ≠ 0 := hx ▸ div_ne_zero (neg_ne_zero.mpr hU0) (pow_ne_zero 2 hZ)
  have hne := sub_ne_zero.mp hdx
  have hslope : (curve p 0#256 b).slope (X / Z ^ 2) ((X + U) / Z ^ 2) (Y / Z ^ 3) ((Y + R) / Z ^ 3) = R / (U * Z) := by
    rw [WeierstrassCurve.Affine.slope_of_X_ne hne, div_eq_div_iff hdx hZ', hx]
    field_simp
    ring
  rw [WeierstrassCurve.Affine.Point.add_of_X_ne hne]
  refine point_eq_some ?_ ?_
  · rw [addX_curve, hslope]
    field_simp
    ring
  · rw [addY_curve, hslope]
    field_simp
    ring

/-- These coordinates, unless `Z` is 0, are those of this point of the curve's group. -/
def Jac.Stands (J : Jac) (P : (curve p 0#256 b).Point) : Prop :=
  (J.Z : ZMod p.toNat) ≠ 0 → ∃ h, P = .some ((J.X : ZMod p.toNat) / (J.Z : ZMod p.toNat) ^ 2)
    ((J.Y : ZMod p.toNat) / (J.Z : ZMod p.toNat) ^ 3) h

theorem Jac.Stands.double {J : Jac} {P : (curve p 0#256 b).Point} (hJ : J.Stands P) :
    (J.double p.toNat).Stands (P + P) := by
  intro hZ'
  simp only [Jac.double, ZMod.intCast_mod] at hZ' ⊢
  push_cast at hZ' ⊢
  obtain ⟨h, rfl⟩ := hJ (right_ne_zero_of_mul hZ')
  exact double_some_div rfl rfl hZ'

theorem Jac.Stands.addAffine {J : Jac} {P : (curve p 0#256 b).Point} {x y : Nat}
    {h' : (curve p 0#256 b).Nonsingular (x : ZMod p.toNat) (y : ZMod p.toNat)} (hJ : J.Stands P) :
    (J.addAffine p.toNat x y).Stands (P + .some _ _ h') := by
  intro hZ'
  simp only [Jac.addAffine, ZMod.intCast_mod] at hZ' ⊢
  push_cast at hZ' ⊢
  obtain ⟨h, rfl⟩ := hJ (right_ne_zero_of_mul hZ')
  exact add_some_div rfl rfl hZ'

theorem Jac.stands_affine {x y : Nat} (h : (curve p 0#256 b).Nonsingular (x : ZMod p.toNat) (y : ZMod p.toNat)) :
    (⟨x, y, 1⟩ : Jac).Stands (.some _ _ h) :=
  fun _ => point_eq_some (by simp) (by simp)

theorem Jac.stands_multiple {fuel k : Nat} {x y : Nat}
    (h : (curve p 0#256 b).Nonsingular (x : ZMod p.toNat) (y : ZMod p.toNat)) (h1 : 1 ≤ k) (hk : k < 2 ^ (fuel + 1)) :
    (Jac.multiple p.toNat x y fuel k).Stands (k • .some _ _ h) := by
  induction fuel generalizing k with
  | zero =>
    obtain rfl : k = 1 := by omega
    rw [one_nsmul]
    exact Jac.stands_affine h
  | succ fuel ih =>
    rw [Jac.multiple]
    split
    · next e =>
      rw [e, one_nsmul]
      exact Jac.stands_affine h
    · have hD := (ih (k := k / 2) (by omega) (by rw [pow_succ] at hk; omega)).double
      rw [← two_nsmul, ← mul_smul] at hD
      split
      · next hodd =>
        have hsum := hD.addAffine (h' := h)
        rwa [← succ_nsmul, show 2 * (k / 2) + 1 = k by omega] at hsum
      · rwa [show 2 * (k / 2) = k by omega] at hD

end

/-- `(N − 1)·G` has the generator's `x`, and the negative of its `y`. -/
theorem multiple_secpG_pred_order :
    let J := Jac.multiple secpP.toNat secpGx.toNat secpGy.toNat 255 (secpN.toNat - 1)
    J.Z % secpP.toNat ≠ 0 ∧ (J.X - secpGx.toNat * J.Z ^ 2) % secpP.toNat = 0 ∧
      (J.Y + secpGy.toNat * J.Z ^ 3) % secpP.toNat = 0 := by
  decide +kernel

/-- The generator's multiple by `N` is the neutral element. -/
theorem order_smul_secpG [Fact secpP.toNat.Prime]
    (h : (curve secpP 0#256 7#256).Nonsingular (secpGx.toNat : ZMod secpP.toNat) (secpGy.toNat : ZMod secpP.toNat)) :
    secpN.toNat • (.some _ _ h : (curve secpP 0#256 7#256).Point) = 0 := by
  obtain ⟨hZ, hX, hY⟩ := multiple_secpG_pred_order
  have hstands := Jac.stands_multiple h (fuel := 255) (k := secpN.toNat - 1) (by decide) (by decide)
  generalize Jac.multiple secpP.toNat secpGx.toNat secpGy.toNat 255 (secpN.toNat - 1) = J at *
  rw [ne_eq, ← Int.dvd_iff_emod_eq_zero, ← ZMod.intCast_zmod_eq_zero_iff_dvd] at hZ
  rw [← Int.dvd_iff_emod_eq_zero, ← ZMod.intCast_zmod_eq_zero_iff_dvd] at hX hY
  push_cast at hX hY
  obtain ⟨h', hpred⟩ := hstands hZ
  rw [show secpN.toNat = secpN.toNat - 1 + 1 by decide, succ_nsmul, hpred]
  refine WeierstrassCurve.Affine.Point.add_of_Y_eq ?_ ?_
  · rw [div_eq_iff (pow_ne_zero 2 hZ)]
    exact sub_eq_zero.mp hX
  · rw [negY_curve, div_eq_iff (pow_ne_zero 3 hZ)]
    linear_combination hY

/-- The generator as a point of Mathlib's group: it is not its own negative. -/
theorem secpG_nonsingular [Fact secpP.toNat.Prime] :
    (curve secpP 0#256 7#256).Nonsingular (secpGx.toNat : ZMod secpP.toNat) (secpGy.toNat : ZMod secpP.toNat) := by
  have hcurve : OnCurve secpGx.toNat secpGy.toNat (0#256).toNat (7#256).toNat secpP.toNat := by decide +kernel
  rw [onCurve_iff_zmod] at hcurve
  rw [WeierstrassCurve.Affine.nonsingular_iff, WeierstrassCurve.Affine.equation_iff]
  have h2y : (2 : ZMod secpP.toNat) * secpGy.toNat ≠ 0 :=
    mul_ne_zero (two_ne_zero_zmod (by decide)) (natCast_ne_zero_zmod (by decide) (by decide))
  refine ⟨?_, .inr fun h => h2y ?_⟩
  · linear_combination hcurve
  · linear_combination h

theorem ptMul_secpG_order : ptMul secpG secpN.toNat = .ok ⟨.identity, 0#256, 7#256, secpP⟩ := by
  have : Fact secpP.toNat.Prime := ⟨secpP_prime⟩
  obtain ⟨e, he, hrep⟩ := ptMul_represents (k := secpN.toNat) (by decide) secpG_valid
    (represents_affine_iff.mpr ⟨secpG_nonsingular, rfl⟩)
  rw [order_smul_secpG] at hrep
  rwa [eq_identity_of_represents_zero hrep] at he

/-- Settles O44: SMUL reduces the scalar to 0 first, PMUL computes the whole multiple. -/
theorem groupOrderGivesIdentity : Obligations.GroupOrderGivesIdentity := by
  intro s rd ra rb hG hN
  have hk : s.k[rb].toInt = secpN.toNat := by
    rw [hN]
    rfl
  constructor
  · rw [exec_smul rd hG, hk, requireSecp_ok ⟨rfl, rfl, rfl⟩, secpMul, Int.emod_self, ptMul_zero]
    rfl
  · rw [exec_pmul rd hG, hk, ptMul_secpG_order, finishQ_ok]

end Sys2Proof.Machine
end

section
/-!
PROOFS of the family `60_exceptions.md`. First the record of a fault; then the faults each function of a command can
raise, from the checks up to the group law, scalar multiples and SEC decoding; then the commands, row by row of R221.
-/

namespace Sys2Proof.Machine

/-! ### The record of a fault (R220, R222) -/

/-- The codes of R220. -/
theorem CmdFault.code_mem (e : CmdFault) : e.code ∈ [0x01#8, 0x02#8, 0x03#8, 0x04#8, 0x05#8, 0x06#8, 0x07#8, 0x08#8,
    0x10#8, 0x11#8, 0x12#8, 0x13#8, 0x14#8] := by
  cases e <;> decide

theorem CmdFault.eq_invalidPoint_of_code {e : CmdFault} (h : e.code = 0x04#8) : e = .invalidPoint := by
  revert h
  cases e <;> decide

/-- A core step that ends with `ERRF = 1` where there was no fault has taken one, of a command or of an illegal word. -/
theorem step_fault_of_errf {s t : State} (hb : s.busy = true) (hw : s.HostWaits) (he : s.errf = false)
    (h : step s = .next t) (ht : t.errf = true) : ∃ e, t = s.takeFault e := by
  rcases step_core_cases hb hw with ⟨i, -, hstep⟩ | ⟨-, hstep⟩
  · exact exec_fault_of_errf (hstep.symm.trans h) he ht
  · cases hstep.symm.trans h
    exact ⟨_, rfl⟩

/-- Settles O10. -/
theorem faultLeavesOnlyItsRecord : Obligations.FaultLeavesOnlyItsRecord := by
  intro s t hb hw he h ht
  obtain ⟨e, rfl⟩ := step_fault_of_errf hb hw he h ht
  exact ⟨⟨e.code, e.code_mem, rfl⟩, rfl⟩

/-! ### Computations that may raise a fault (R221, R224) -/

section
variable {α β : Type}

/-- The computation raises only faults of `es`, and what it answers has the property `Q`. -/
def Answers (es : List CmdFault) (Q : α → Prop) : Except CmdFault α → Prop
  | .ok a => Q a
  | .error e => e ∈ es

/-- The computation raises only faults of `es`. -/
abbrev FaultsIn (es : List CmdFault) (x : Except CmdFault α) : Prop := Answers es (fun _ => True) x

variable {ds es : List CmdFault} {P Q : α → Prop} {x : Except CmdFault α}

theorem Answers.pure {a : α} (h : Q a) : Answers es Q (pure a) := h

/-- In sequence, the faults are those of the parts; that a part's are among the whole's is read off the two lists. -/
theorem Answers.bind {R : β → Prop} {k : α → Except CmdFault β} (hx : Answers ds P x)
    (hk : ∀ a, P a → Answers es R (k a)) (hsub : ds ⊆ es := by simp [mayRaise]) : Answers es R (x >>= k) := by
  cases x with
  | ok a => exact hk a hx
  | error e => exact hsub hx

theorem Answers.mono (hx : Answers ds Q x) (hsub : ds ⊆ es := by simp [mayRaise]) : Answers es Q x := by
  cases x with
  | ok a => exact hx
  | error e => exact hsub hx

/-- A computation that raises only faults of `es` does so with any property its answers are known to have. -/
theorem FaultsIn.answers (hx : FaultsIn es x) (hQ : ∀ {a}, x = .ok a → Q a) : Answers es Q x := by
  cases x with
  | ok a => exact hQ rfl
  | error e => exact hx

/-- One check before the answer. -/
theorem faultsIn_check (c : Prop) [Decidable c] (e : CmdFault) (a : α) :
    FaultsIn [e] (if c then .error e else .ok a) := by
  split
  · exact List.mem_singleton_self e
  · trivial

end

/-! ### Sources (`40_system.md` R93) -/

theorem readF_answers (s : State) (r : Reg) : Answers [.uninit] (s.f[r] = some ·) (s.readF r) := by
  cases h : s.f[r] with
  | some u => rw [State.readF_some h]; rfl
  | none => rw [State.readF_none h]; exact List.mem_singleton_self _

theorem readQ_answers (s : State) (r : Reg) : Answers [.uninit] (s.q[r] = some ·) (s.readQ r) := by
  cases h : s.q[r] with
  | some p => rw [State.readQ_some h]; rfl
  | none => rw [State.readQ_none h]; exact List.mem_singleton_self _

/-! ### Field functions (`41_field.md` R100 to R109) -/

theorem feNew_faultsIn (n p : Int) : FaultsIn [.rangeError] (feNew n p) := faultsIn_check _ _ _

section
variable (u v : FE)

theorem feCompat_faultsIn : FaultsIn [.incompatibleField] (feCompat u v) := faultsIn_check _ _ _

theorem feAdd_faultsIn : FaultsIn [.incompatibleField] (feAdd u v) := (feCompat_faultsIn u v).bind fun _ _ => trivial

theorem feSub_faultsIn : FaultsIn [.incompatibleField] (feSub u v) := (feCompat_faultsIn u v).bind fun _ _ => trivial

theorem feMul_faultsIn : FaultsIn [.incompatibleField] (feMul u v) := (feCompat_faultsIn u v).bind fun _ _ => trivial

theorem fePow_faultsIn (e : Int) : FaultsIn [.badModulus] (fePow u e) := faultsIn_check _ _ _

theorem feInv_faultsIn : FaultsIn [.badModulus] (feInv u) := faultsIn_check _ _ _

theorem feDiv_faultsIn : FaultsIn [.incompatibleField, .badModulus] (feDiv u v) :=
  (feCompat_faultsIn u v).bind fun _ _ => (feInv_faultsIn v).bind fun _ _ => trivial

/-- A prime that is 3 modulo 4 is not 1, so the power does not fault. -/
theorem feSqrt_faultsIn : FaultsIn [.unsupportedOperation] (feSqrt u) := by
  by_cases h : u.prime.toNat % 4 = 3
  · rw [feSqrt_ok h]
    trivial
  · rw [feSqrt_error h]
    exact List.mem_singleton_self _

end

/-! ### Construction of points (`42_point.md` R130, R131) -/

/-- Over one prime only the curve equation can fail. -/
theorem ptNew_faultsIn_of_pos {p : U256} (hp : 0 < p.toNat) (x y a b : U256) :
    FaultsIn [.invalidPoint] (ptNew ⟨x, p⟩ ⟨y, p⟩ ⟨a, p⟩ ⟨b, p⟩) := by
  rw [ptNew_eq hp]
  split
  · trivial
  · exact List.mem_singleton_self _

theorem ptNew_faultsIn {x : FE} (hx : x.Valid) (y a b : FE) :
    FaultsIn [.incompatibleField, .invalidPoint] (ptNew x y a b) := by
  by_cases h : x.prime = y.prime ∧ x.prime = a.prime ∧ x.prime = b.prime
  · obtain ⟨x, p⟩ := x
    obtain ⟨y, _⟩ := y
    obtain ⟨a, _⟩ := a
    obtain ⟨b, _⟩ := b
    obtain ⟨⟨⟩, ⟨⟩, ⟨⟩⟩ := h
    exact (ptNew_faultsIn_of_pos hx.pos x y a b).mono
  · rw [ptNew_incompatible h]
    exact List.mem_cons_self

theorem ptInf_faultsIn (a b : FE) : FaultsIn [.incompatibleField] (ptInf a b) :=
  (feCompat_faultsIn a b).bind fun _ _ => trivial

theorem affineCoords_faultsIn (P : Pt) : FaultsIn [.identityCoordinate] P.affineCoords := by
  unfold Pt.affineCoords
  split
  · exact List.mem_singleton_self _
  · trivial

/-! ### Sums and multiples of points (R132, R134, R135) -/

theorem thirdPoint_error {P : Pt} {x1 y1 x2 m : Int} {c : BitVec 8} (he : thirdPoint P x1 y1 x2 m = .error c) :
    c = 0x04#8 := by
  unfold thirdPoint at he
  dsimp only at he
  split at he <;> cases he
  rfl

/-- On one curve the group law in integers raises a fault only through the curve equation of the third point. -/
theorem groupLaw_error {P R : Pt} {c : BitVec 8} (h : SameCurve P R) (he : groupLaw P R = .error c) : c = 0x04#8 := by
  cases hP : P.coords with
  | identity => cases (groupLaw_identity_left h hP).symm.trans he
  | affine x1 y1 =>
    cases hR : R.coords with
    | identity => cases (groupLaw_identity_right h (by simp [hP]) hR).symm.trans he
    | affine x2 y2 =>
      rw [groupLaw_affine h hP hR] at he
      split_ifs at he
      · exact thirdPoint_error he
      · exact thirdPoint_error he

/-- On one curve a sum raises `InvalidPoint` only. -/
theorem ptAdd_faultsIn_of_sameCurve {P R : Pt} (hP : P.Valid) (hR : R.Valid) (h : SameCurve P R) :
    FaultsIn [.invalidPoint] (ptAdd P R) := by
  have hlaw := codedPoint_ptAdd hP hR
  cases hS : ptAdd P R with
  | ok S => trivial
  | error e =>
    rw [hS] at hlaw
    exact List.mem_singleton.mpr (CmdFault.eq_invalidPoint_of_code (groupLaw_error h hlaw.symm))

theorem ptAdd_faultsIn {P R : Pt} (hP : P.Valid) (hR : R.Valid) :
    FaultsIn [.incompatibleCurve, .invalidPoint] (ptAdd P R) := by
  by_cases h : SameCurve P R
  · exact (ptAdd_faultsIn_of_sameCurve hP hR h).mono
  · rw [ptAdd_incompatible h]
    exact List.mem_cons_self

theorem ptDbl_faultsIn {P : Pt} (hP : P.Valid) : FaultsIn [.invalidPoint] (ptDbl P) :=
  ptAdd_faultsIn_of_sameCurve hP hP ⟨rfl, rfl, rfl⟩

theorem ptMulBit_faultsIn {res cur : Pt} (hr : res.Valid) (hc : cur.Valid) (h : SameCurve res cur) (k : Nat) :
    FaultsIn [.invalidPoint] (ptMulBit res cur k) := by
  unfold ptMulBit
  split
  · exact ptAdd_faultsIn_of_sameCurve hr hc h
  · trivial

/-- Double-and-add stays on the curve, so each of its sums is one on one curve. -/
theorem ptMulLoop_faultsIn {fuel : Nat} {res cur : Pt} (hr : res.Valid) (hc : cur.Valid) (h : SameCurve res cur)
    (k : Nat) : FaultsIn [.invalidPoint] (ptMulLoop fuel res cur k) := by
  induction fuel generalizing res cur k with
  | zero => trivial
  | succ fuel ih =>
    rw [ptMulLoop]
    split
    · trivial
    · refine ((ptMulBit_faultsIn hr hc h k).answers (ptMulBit_valid hr hc)).bind fun res' ⟨hvr, hsr⟩ => ?_
      refine ((ptDbl_faultsIn hc).answers (ptAdd_valid hc hc)).bind fun cur' ⟨hvc, hsc⟩ => ?_
      exact ih hvr hvc (hsr.symm.trans (h.trans hsc)) (k / 2)

theorem ptMul_faultsIn {P : Pt} (hP : P.Valid) (k : Int) :
    FaultsIn [.invalidArgument, .invalidPoint] (ptMul P k) := by
  unfold ptMul
  split
  · exact List.mem_cons_self
  · split
    · trivial
    · exact (ptMulLoop_faultsIn (ptIdentityOf_valid hP) hP ⟨rfl, rfl, rfl⟩ k.toNat).mono

/-! ### secp256k1 (`43_secp256k1.md` R161 to R166) -/

theorem requireSecp_answers (P : Pt) : Answers [.incompatibleCurve] (fun _ => SameCurve P secpG) (requireSecp P) := by
  by_cases h : SameCurve P secpG
  · rw [requireSecp_ok h]
    exact h
  · rw [requireSecp_error h]
    exact List.mem_singleton_self _

theorem SameCurve.secp_prime {P : Pt} (h : SameCurve P secpG) : P.prime.toNat.Prime ∧ P.prime.toNat ≠ 2 := by
  have hp : P.prime = secpP := h.2.2
  rw [hp]
  exact ⟨secpP_prime, by decide⟩

/-- On secp256k1 no multiple by a reduced scalar faults: the prime is odd and the scalar is not negative. -/
theorem secpMul_answers {P : Pt} (hP : P.Valid) (h : SameCurve P secpG) (k : Int) :
    Answers [] (fun S => S.Valid ∧ SameCurve S secpG) (secpMul P k) := by
  obtain ⟨hprime, h2⟩ := h.secp_prime
  obtain ⟨S, hS⟩ := ptMul_ok hP (Int.emod_nonneg k (b := secpN.toNat) (by decide)) hprime h2
  obtain ⟨hvS, hPS⟩ := ptMul_valid hP hS
  rw [secpMul, hS]
  exact ⟨hvS, hPS.symm.trans h⟩

/-- The two multiples and the sum of SVERIFY are on secp256k1, so none of them faults. -/
theorem secpVerifyPoint_faultsIn {P : Pt} (hP : P.Valid) (h : SameCurve P secpG) (z r s : Int) :
    FaultsIn [] (secpVerifyPoint P z r s) := by
  refine (secpMul_answers secpG_valid ⟨rfl, rfl, rfl⟩ _).bind fun A ⟨hvA, hA⟩ => ?_
  refine (secpMul_answers hP h _).bind fun B ⟨hvB, hB⟩ => ?_
  obtain ⟨hprime, h2⟩ := hA.secp_prime
  obtain ⟨R, hR⟩ := ptAdd_ok hvA hvB (hA.trans hB.symm) hprime h2
  rw [hR]
  trivial

theorem secpVerify_faultsIn {P : Pt} (hP : P.Valid) (z r s : Int) :
    FaultsIn [.incompatibleCurve, .identityCoordinate] (secpVerify P z r s) :=
  (requireSecp_answers P).bind fun _ h => (secpVerifyPoint_faultsIn hP h z r s).bind fun R _ =>
    (affineCoords_faultsIn R).bind fun _ _ => trivial

theorem secEncode_faultsIn (P : Pt) (c : Bool) :
    FaultsIn [.incompatibleCurve, .identityCoordinate] (secEncode P c) := by
  refine (requireSecp_answers P).bind fun _ _ => (affineCoords_faultsIn P).bind fun _ _ => ?_
  cases c with
  | true => trivial
  | false => trivial

theorem secpNew_faultsIn (x y : Int) : FaultsIn [.rangeError, .invalidPoint] (secpNew x y) := by
  by_cases h : 0 ≤ x ∧ x < secpP.toNat ∧ 0 ≤ y ∧ y < secpP.toNat
  · obtain ⟨hx0, hx, hy0, hy⟩ := h
    rw [secpNew_eq hx0 hx hy0 hy]
    split
    · trivial
    · exact List.mem_cons_of_mem _ (List.mem_singleton_self _)
  · rw [secpNew_rangeError h]
    exact List.mem_cons_self

/-- The root 0 has no odd negative, and asking for one is a `RangeError`. -/
theorem secPickRoot_answers {beta : FE} (h : beta.prime = secpP) (wantOdd : Bool) :
    Answers [.rangeError] (·.prime = secpP) (secPickRoot beta wantOdd) := by
  unfold secPickRoot
  split
  · exact h
  · refine (feNew_faultsIn _ _).answers fun hy => ?_
    obtain ⟨-, rfl⟩ := feNew_ok_iff.mp hy
    rfl

theorem secDecompress_faultsIn (X : Nat) (wantOdd : Bool) :
    FaultsIn [.rangeError, .invalidPoint] (secDecompress X wantOdd) := by
  rcases Nat.lt_or_ge X secpP.toNat with h | h
  · rw [secDecompress_eq h]
    refine (secPickRoot_answers rfl wantOdd).bind ?_
    rintro ⟨y, _⟩ ⟨⟩
    exact (ptNew_faultsIn_of_pos secpP_prime.pos _ y _ _).mono
  · rw [secDecompress_rangeError h]
    exact List.mem_cons_self

theorem secDecode_faultsIn (m : Memory) : FaultsIn [.secFormat, .rangeError, .invalidPoint] (secDecode m) := by
  by_cases h4 : m.read 0 = 0x04#8
  · rw [secDecode_uncompressed h4]
    exact (secpNew_faultsIn _ _).mono
  · by_cases h : m.read 0 = 0x02#8 ∨ m.read 0 = 0x03#8
    · rw [secDecode_compressed h]
      exact (secDecompress_faultsIn _ _).mono
    · obtain ⟨h2, h3⟩ := not_or.mp h
      rw [secDecode_secFormat h2 h3 h4]
      exact List.mem_cons_self

/-! ### The commands (R221) -/

/-- Every command is the end of a computation that raises only faults of its rows; if that answers, it has not touched
the fault record. -/
theorem exec_answers (i : Instr) {s : State} (hf : s.FieldsValid) (hq : s.PointsValid) :
    ∃ r, exec i s = finish s r ∧ Answers (mayRaise i) (·.errf = s.errf) r := by
  have F := readF_answers s
  have Q := readQ_answers s
  cases i with
  | nop => exact ⟨.ok _, rfl, rfl⟩
  | fnew => exact ⟨_, rfl, (feNew_faultsIn _ _).bind fun _ _ => .pure rfl⟩
  | fadd _ ra rb => exact ⟨_, rfl, (F ra).bind fun u _ => (F rb).bind fun v _ =>
      (feAdd_faultsIn u v).bind fun _ _ => .pure rfl⟩
  | fsub _ ra rb => exact ⟨_, rfl, (F ra).bind fun u _ => (F rb).bind fun v _ =>
      (feSub_faultsIn u v).bind fun _ _ => .pure rfl⟩
  | fmul _ ra rb => exact ⟨_, rfl, (F ra).bind fun u _ => (F rb).bind fun v _ =>
      (feMul_faultsIn u v).bind fun _ _ => .pure rfl⟩
  | fdiv _ ra rb => exact ⟨_, rfl, (F ra).bind fun u _ => (F rb).bind fun v _ =>
      (feDiv_faultsIn u v).bind fun _ _ => .pure rfl⟩
  | finv _ ra => exact ⟨_, rfl, (F ra).bind fun u _ => (feInv_faultsIn u).bind fun _ _ => .pure rfl⟩
  | fpow _ ra => exact ⟨_, rfl, (F ra).bind fun u _ => (fePow_faultsIn u _).bind fun _ _ => .pure rfl⟩
  | fsqrt _ ra => exact ⟨_, rfl, (F ra).bind fun u _ => (feSqrt_faultsIn u).bind fun _ _ => .pure rfl⟩
  | feq ra rb => exact ⟨_, rfl, (F ra).bind fun _ _ => (F rb).bind fun _ _ => .pure rfl⟩
  | fget _ ra | fgetp _ ra => exact ⟨_, rfl, (F ra).bind fun _ _ => .pure rfl⟩
  | pnew _ ra rb rc re => exact ⟨_, rfl, (F ra).bind fun x hx => (F rb).bind fun y _ => (F rc).bind fun a _ =>
      (F re).bind fun b _ => (ptNew_faultsIn (hf ra x hx) y a b).bind fun _ _ => .pure rfl⟩
  | pinf _ rc re => exact ⟨_, rfl, (F rc).bind fun a _ => (F re).bind fun b _ =>
      (ptInf_faultsIn a b).bind fun _ _ => .pure rfl⟩
  | padd _ ra rb => exact ⟨_, rfl, (Q ra).bind fun P hP => (Q rb).bind fun R hR =>
      (ptAdd_faultsIn (hq ra P hP) (hq rb R hR)).bind fun _ _ => .pure rfl⟩
  | pdbl _ ra => exact ⟨_, rfl, (Q ra).bind fun P hP => (ptDbl_faultsIn (hq ra P hP)).bind fun _ _ => .pure rfl⟩
  | pmul _ ra => exact ⟨_, rfl, (Q ra).bind fun P hP => (ptMul_faultsIn (hq ra P hP) _).bind fun _ _ => .pure rfl⟩
  | peq ra rb => exact ⟨_, rfl, (Q ra).bind fun _ _ => (Q rb).bind fun _ _ => .pure rfl⟩
  | pisinf ra | pgeta _ ra | pgetb _ ra => exact ⟨_, rfl, (Q ra).bind fun _ _ => .pure rfl⟩
  | pgetx _ ra | pgety _ ra => exact ⟨_, rfl, (Q ra).bind fun P _ =>
      (affineCoords_faultsIn P).bind fun _ _ => .pure rfl⟩
  | sldg | sldn | sldp => exact ⟨.ok _, rfl, rfl⟩
  | snew => exact ⟨_, rfl, (secpNew_faultsIn _ _).bind fun _ _ => .pure rfl⟩
  | smul _ ra => exact ⟨_, rfl, (Q ra).bind fun P hP => (requireSecp_answers P).bind fun _ h =>
      (secpMul_answers (hq ra P hP) h _).bind fun _ _ => .pure rfl⟩
  | secenc ra c => exact ⟨_, rfl, (Q ra).bind fun P _ => (secEncode_faultsIn P c).bind fun _ _ => .pure rfl⟩
  | secdec => exact ⟨_, rfl, (secDecode_faultsIn _).bind fun _ _ => .pure rfl⟩
  | sverify ra => exact ⟨_, rfl, (Q ra).bind fun P hP =>
      (secpVerify_faultsIn (hq ra P hP) _ _ _).bind fun _ _ => .pure rfl⟩

/-- Settles O11. -/
theorem faultsStayInTheCommandsRows : Obligations.FaultsStayInTheCommandsRows := by
  intro i s t hf hq he h ht
  obtain ⟨r, hr, hrows⟩ := exec_answers i hf hq
  rw [hr] at h
  cases r with
  | error e =>
    cases h
    exact ⟨e, hrows, rfl⟩
  | ok s' =>
    cases h
    have hkept : s'.errf = s.errf := hrows
    cases he.symm.trans (hkept.symm.trans ht)

end Sys2Proof.Machine
end

section
/-!
PROOFS of the family `70_reset_and_hazards.md`: the port while `rst` is asserted, and the assertion and release of `rst`.
-/

namespace Sys2Proof.Machine

/-- While `rst` is asserted a write is ignored (R252). -/
theorem hostAct_write_rst {s : State} (a : PortAddr) (v : Word) (hr : s.rst = true) : s.hostAct (.write a v) = s :=
  if_pos hr

/-- While `rst` is asserted a read returns 0 (R252). -/
theorem hostAct_read_rst {s : State} (a : PortAddr) (hr : s.rst = true) : s.hostAct (.read a) = s.reply 0#32 := by
  rw [State.hostAct, State.readReply, State.portRead, if_pos hr]

/-- Settles O51: `PEND` takes the value it has in the model's reset state. -/
theorem resetOverridesEverything : Obligations.ResetOverridesEverything := by
  refine ⟨fun s => ⟨State.reset.pend, ?assert⟩, fun s a v n hr => ⟨?write, ?read, ?poll⟩, fun s => ?release⟩
  case assert => exact (rfl : s.hostAct .rstAssert = s.assertReset)
  case write => exact hostAct_write_rst a v hr
  case read => exact hostAct_read_rst a hr
  case poll => exact pollStatus_rst n hr
  case release => rfl

end Sys2Proof.Machine
end
